-- ==== Sys2Proof/Word.lean ====
section
/-! DEFINITION. The widths of CORE's values (spec/00_scope.md R7): words, bytes, addresses, page and frame
numbers, request words. -/

namespace Sys2Proof

/-- One byte, the smallest access (R25). -/
abbrev Byte := BitVec 8

/-- A word is 32 bits, `WORD_BYTES = 4` (R7). -/
abbrev Word := BitVec 32

/-- A flat virtual address as presented at the interface, `VA_IN_BITS = 64` (R7, R85). -/
abbrev VAddr := BitVec 64

/-- A flat physical address, `PA_BITS = 32` (R7, R87). -/
abbrev PAddr := BitVec 32

/-- A virtual page number, `VPN_BITS = 36` (R7, R86). -/
abbrev Vpn := BitVec 36

/-- A physical frame number, `PFN_BITS = 20` (R7, R87). -/
abbrev Pfn := BitVec 20

/-- A request word `REQ`, 100 bits (R81). -/
abbrev Request := BitVec 100

end Sys2Proof
end

