-- ==== Sys2Proof/Syntax.lean ====
section
/-! DEFINITION. The instructions of CORE are the requests of its interface: one constructor per row of
spec/opcode_table.json (spec/30_encoding.md R82). Every field of a row's 100 bits is an operand, the
must-be-zero ones too, since a request with a non-zero one is answered, not undecodable (R92, R93). -/

namespace Sys2Proof

/-- One request (R81, R82). `wdata` is `REQ[95:64]`, `vaddr` is `REQ[63:0]`. -/
inductive Instr where
  /-- `RDB.I`: read a byte, kind instruction (R233) -/
  | rdbI (wdata : Word) (vaddr : VAddr)
  /-- `RDW.I`: read a word, kind instruction (R231) -/
  | rdwI (wdata : Word) (vaddr : VAddr)
  /-- `RDB.D`: read a byte, kind data (R234) -/
  | rdbD (wdata : Word) (vaddr : VAddr)
  /-- `RDW.D`: read a word, kind data (R232) -/
  | rdwD (wdata : Word) (vaddr : VAddr)
  /-- `ILLEGAL.WR.I`: a write of kind instruction, `size` being `cmd[0]` (R237) -/
  | illegalWrI (size : BitVec 1) (wdata : Word) (vaddr : VAddr)
  /-- `WRB.D`: write a byte, kind data (R236) -/
  | wrbD (wdata : Word) (vaddr : VAddr)
  /-- `WRW.D`: write a word, kind data (R235) -/
  | wrwD (wdata : Word) (vaddr : VAddr)
  /-- `XLATE`: translate, bypassing TLB and caches (R238) -/
  | xlate (wdata : Word) (vaddr : VAddr)
  /-- `DUMP`: inspect one entry of one array (R240), the selector split as R97 splits `vaddr` -/
  | dump (wdata : Word) (mbz : BitVec 20) (way : BitVec 8) (idx : BitVec 32) (arr : BitVec 4)
  /-- `RESERVED.101x`: `x` is `cmd[0]` (R241) -/
  | reserved101x (x : BitVec 1) (wdata : Word) (vaddr : VAddr)
  /-- `RESERVED.11xx`: `x` is `cmd[1:0]` (R241) -/
  | reserved11xx (x : BitVec 2) (wdata : Word) (vaddr : VAddr)
deriving DecidableEq, Repr

end Sys2Proof
end

