-- ==== Sys2Proof/Decode.lean ====
section
/-! DEFINITION. The decoder and, after it, the encoder of the 100-bit request word `REQ`
(spec/30_encoding.md R81, R82, R92, R97; spec/opcode_table.json). -/

namespace Sys2Proof

/-- `cmd` is `REQ[99:96]` (R81). -/
def requestCmd (w : Request) : BitVec 4 := w.extractLsb' 96 4

/-- `wdata` is `REQ[95:64]` (R81). -/
def requestWdata (w : Request) : Word := w.extractLsb' 64 32

/-- `vaddr` is `REQ[63:0]` (R81). -/
def requestVaddr (w : Request) : VAddr := w.extractLsb' 0 64

/-- Decoding looks at `cmd` only (R92): the sixteen values of `cmd` are the rows of R82, so every word of 100
bits is a request. -/
def decode (w : Request) : Instr :=
  match (requestCmd w).toNat with
  | 0 => .rdbI (requestWdata w) (requestVaddr w)
  | 1 => .rdwI (requestWdata w) (requestVaddr w)
  | 2 => .rdbD (requestWdata w) (requestVaddr w)
  | 3 => .rdwD (requestWdata w) (requestVaddr w)
  | 4 => .illegalWrI 0 (requestWdata w) (requestVaddr w)
  | 5 => .illegalWrI 1 (requestWdata w) (requestVaddr w)
  | 6 => .wrbD (requestWdata w) (requestVaddr w)
  | 7 => .wrwD (requestWdata w) (requestVaddr w)
  | 8 => .xlate (requestWdata w) (requestVaddr w)
  | 9 => .dump (requestWdata w) (w.extractLsb' 44 20) (w.extractLsb' 36 8) (w.extractLsb' 4 32) (w.extractLsb' 0 4)
  | 10 => .reserved101x 0 (requestWdata w) (requestVaddr w)
  | 11 => .reserved101x 1 (requestWdata w) (requestVaddr w)
  | _ => .reserved11xx (w.extractLsb' 96 2) (requestWdata w) (requestVaddr w)

/-- Why a number is no request word. -/
inductive DecodeError where
  /-- a bit at or above bit 100 is set: the length is always 100 bits (R92) -/
  | widerThanRequest
deriving DecidableEq, Repr

/-- The instruction of a request word given as a number, refused by name when it is wider than `REQ` (R81, R92). -/
def decodeNat (w : Nat) : Except DecodeError Instr :=
  if w < 2 ^ 100 then .ok (decode (BitVec.ofNat 100 w)) else .error .widerThanRequest

/-- The instruction of a word numbered as spec/opcode_table.json numbers it. A request is one word of 100 bits, so
the table's number is the request word itself; the bits above `nbits` are 0. -/
def decodeTableWord (_nbits w : Nat) : Option Instr :=
  match decodeNat w with
  | .ok i => some i
  | .error _ => none

/-- The request word of an instruction (R81, R82, R97). -/
def encode : Instr → Request
  | .rdbI wdata vaddr => 0x0#4 ++ wdata ++ vaddr
  | .rdwI wdata vaddr => 0x1#4 ++ wdata ++ vaddr
  | .rdbD wdata vaddr => 0x2#4 ++ wdata ++ vaddr
  | .rdwD wdata vaddr => 0x3#4 ++ wdata ++ vaddr
  | .illegalWrI size wdata vaddr => (0b010#3 ++ size) ++ wdata ++ vaddr
  | .wrbD wdata vaddr => 0x6#4 ++ wdata ++ vaddr
  | .wrwD wdata vaddr => 0x7#4 ++ wdata ++ vaddr
  | .xlate wdata vaddr => 0x8#4 ++ wdata ++ vaddr
  | .dump wdata mbz way idx arr => 0x9#4 ++ wdata ++ (mbz ++ way ++ idx ++ arr)
  | .reserved101x x wdata vaddr => (0b101#3 ++ x) ++ wdata ++ vaddr
  | .reserved11xx x wdata vaddr => (0b11#2 ++ x) ++ wdata ++ vaddr

end Sys2Proof
end

