-- ==== Sys2Proof/Config.lean ====
section
/-! DEFINITION. The build parameters P1 to P9 of CORE (spec/00_scope.md R8, spec/92_eei_decisions.md section 2).
They are fixed for the life of a machine (R23, R293); which values are admitted is `Config.valid` of
Sys2Proof/Machine/Build.lean. P10, the loaded memory, is the field `mem` of the state. The one free value
stands after them. -/

namespace Sys2Proof

/-- `TLB_ORG` (R8, decision D10): which of the two mutually exclusive TLB organisations is built. -/
inductive TlbOrg where
  /-- fully-associative, with the ordered eviction list -/
  | fa
  /-- two-level direct-mapped -/
  | hier
deriving DecidableEq, Repr

/-- The build parameters of R8. A line count that R8 requires to be a power of two is held as its `log2`
(the derived constants of R9), so it is a power of two by construction. -/
structure Config where
  /-- `TLB_ORG` -/
  org : TlbOrg
  /-- `TLB_LINES`, entries of the fully-associative TLB -/
  tlbLines : Nat
  /-- `L1T_BITS = log2(L1_TLB_LINES)` -/
  l1tBits : Nat
  /-- `L2T_BITS = log2(L2_TLB_LINES)` -/
  l2tBits : Nat
  /-- `L1C_BITS = log2(L1_CACHE_LINES)` -/
  l1cBits : Nat
  /-- `L1_WAYS` -/
  l1Ways : Nat
  /-- `L2C_BITS = log2(L2_CACHE_LINES)` -/
  l2cBits : Nat
  /-- `L2_WAYS` -/
  l2Ways : Nat
  /-- `MEM_LEN`, the length of the memory buffer in bytes -/
  memLen : Nat
deriving DecidableEq, Repr

/-- FREE VALUE (DESIGN CHOICE, log 18): the 32 bits that a DUMP of `LRU` shows for a token of `2^32` or more. R97 gives the
token 32 bits and R8 no upper bound on `TLB_LINES`; the spec states no result there, so it is left open. -/
opaque Config.wideTokenWord : Nat → Word

end Sys2Proof
end

