-- ==== Sys2Proof/Machine/Build.lean ====
section
/-! DEFINITION. The constants derived from the build parameters (spec/00_scope.md R9), the constraints on them
(R8), the values the reset state is built with, and what a memory byte that nothing has written reads as. -/

namespace Sys2Proof

/-- `L1_TLB_LINES` (R8, R9). -/
def Config.l1TlbLines (c : Config) : Nat := 2 ^ c.l1tBits

/-- `L2_TLB_LINES` (R8, R9). -/
def Config.l2TlbLines (c : Config) : Nat := 2 ^ c.l2tBits

/-- `L1_CACHE_LINES` (R8, R9). -/
def Config.l1CacheLines (c : Config) : Nat := 2 ^ c.l1cBits

/-- `L2_CACHE_LINES` (R8, R9). -/
def Config.l2CacheLines (c : Config) : Nat := 2 ^ c.l2cBits

/-- The constraints of R8 (decisions D9, D27): counts at least 1, `L1_TLB_LINES ≤ L2_TLB_LINES`,
`log2 + 4 ≤ 32` for the caches, `MEM_LEN` a multiple of 4 and at most `2^32`. Powers of two hold by construction. -/
def Config.valid (c : Config) : Bool :=
  decide (1 ≤ c.tlbLines) && decide (c.l1tBits ≤ c.l2tBits) && decide (c.l1cBits + 4 ≤ 32) &&
    decide (c.l2cBits + 4 ≤ 32) && decide (1 ≤ c.l1Ways) && decide (1 ≤ c.l2Ways) &&
    decide (c.memLen % 4 = 0) && decide (c.memLen ≤ 2 ^ 32)

/-- The parameters the reset state is built with: the suggested sizes of R8 (PRESUMED, log 2), the organisation
`FA` and the whole 32-bit physical space (DESIGN CHOICE, log 2). R8 leaves every one of them open. -/
def Config.suggested : Config where
  org := .fa
  tlbLines := 128
  l1tBits := 4
  l2tBits := 6
  l1cBits := 6
  l1Ways := 4
  l2cBits := 9
  l2Ways := 8
  memLen := 2 ^ 32

/-- What a byte of memory that nothing has written reads as (DESIGN CHOICE, unsafe: log 3; the content at the
first request is parameter P10). -/
def unlistedByte : Byte := 0

end Sys2Proof
end

