-- ==== Sys2Proof/Machine/EvictionList.lean ====
section
/-! DEFINITION. The Ordered Eviction List as a sequence of tokens (spec/42_eviction_list.md R145 to R153): the
head of the list is the front. -/

namespace Sys2Proof.Machine

/-- `push_back(t)` (R148). -/
def pushBack (lru : List Nat) (t : Nat) : List Nat := lru ++ [t]

/-- `push_front(t)` (R149). -/
def pushFront (lru : List Nat) (t : Nat) : List Nat := t :: lru

/-- `pop_back()`: the last token and the list without it; none on the empty list, outside the precondition of R150. -/
def popBack (lru : List Nat) : Option (Nat × List Nat) :=
  match lru.getLast? with
  | some t => some (t, lru.dropLast)
  | none => none

/-- `pop_front()`: the first token and the list without it; none on the empty list, outside the precondition of R151. -/
def popFront (lru : List Nat) : Option (Nat × List Nat) :=
  match lru with
  | t :: rest => some (t, rest)
  | [] => none

/-- `move_to_back(t)`: remove `t` from where it is and append it (R152). -/
def moveToBack (lru : List Nat) (t : Nat) : List Nat := lru.erase t ++ [t]

/-- `front()`: the next eviction victim (R153); none on the empty list, outside its precondition. -/
def front (lru : List Nat) : Option Nat := lru.head?

/-- `list_init(N)`: the tokens `0..N-1` pushed in order (R147, decision D13). -/
def listInit (n : Nat) : List Nat := (List.range n).foldl pushBack []

end Sys2Proof.Machine
end

