-- ==== Sys2Proof/Machine/State.lean ====
section
/-! DEFINITION. The state of CORE as plain data (spec/10_state.md R24 to R30), the response record
(spec/30_encoding.md R83, R84, R97), the reasons a step can stop, and the state after reset
(spec/70_reset_and_hazards.md R275). -/

namespace Sys2Proof.Machine

/-- The four kinds of error DOC0 names (R252). `allocation` and `io` are never raised by CORE. -/
inductive ErrorKind where
  | badParameter
  | outOfBounds
  | allocation
  | io
deriving DecidableEq, Repr

/-- The status of a response (R84); the reserved codes 5 to 7 are never produced and have no value here (U5). -/
inductive Status where
  | ok
  | error (kind : ErrorKind)
deriving DecidableEq, Repr

/-- The access kind of a request (R16): selects L1-I or L1-D and the L1 instruction or data TLB. -/
inductive AccessKind where
  | instruction
  | data
deriving DecidableEq, Repr

/-- Which stage supplied the word of a cache access (R83 `level`). -/
inductive HitLevel where
  | none
  | l1
  | l2
  | mem
deriving DecidableEq, Repr

/-- The four words of a cache line (R29); `w0` is the word at the line's first byte. -/
structure Line where
  w0 : Word
  w1 : Word
  w2 : Word
  w3 : Word
deriving DecidableEq, Repr

/-- A translation-cache entry (R26, R28). The tag is held zero-extended to 36 bits (log 11). -/
structure TlbEntry where
  valid : Bool
  tag : Vpn
  pfn : Pfn
deriving DecidableEq, Repr

/-- A cache line entry (R29). The tag is held zero-extended to 32 bits (log 11). -/
structure CacheEntry where
  valid : Bool
  age : Nat
  tag : BitVec 32
  words : Line
deriving DecidableEq, Repr

/-- A cache array: sets of ways, `C[s][w]` (R29). -/
abbrev CacheArray := List (List CacheEntry)

/-- The memory buffer as (address, byte) pairs, canonical form `Memory.wf` of Machine/Ops.lean (R24). -/
abbrev Memory := List Host.Cell

/-- The payload of a DUMP response, unpacked (R97). -/
structure DumpPayload where
  valid : Bool
  age : Nat
  tag : BitVec 36
  w0 : Word
  w1 : Word
  w2 : Word
  w3 : Word
deriving DecidableEq, Repr

/-- The response record `RSP`, unpacked (R83); its 211-bit form is `Response.pack` of Machine/Flags.lean. -/
structure Response where
  status : Status
  tlbHit : Bool
  level : HitLevel
  data : Word
  dump : DumpPayload
deriving DecidableEq, Repr

/-- The state of CORE (R20: exactly the arrays and the memory buffer) and, marked so, the model's own fields. The
arrays of the organisation that is not built are empty lists. -/
structure State where
  /-- the MODEL's own: the build parameters, which no step writes (log 1) -/
  cfg : Config
  /-- `MEM` (R24) -/
  mem : Memory
  /-- `TLB`, organisation FA (R26) -/
  tlb : List TlbEntry
  /-- `LRU`, organisation FA, front first (R27) -/
  lru : List Nat
  /-- `ITLB`, organisation HIER (R28) -/
  itlb : List TlbEntry
  /-- `DTLB`, organisation HIER (R28) -/
  dtlb : List TlbEntry
  /-- `TLB2`, organisation HIER (R28) -/
  tlb2 : List TlbEntry
  /-- `L1I` (R29) -/
  l1i : CacheArray
  /-- `L1D` (R29) -/
  l1d : CacheArray
  /-- `L2` (R29) -/
  l2 : CacheArray
  /-- the MODEL's own: the host's requests in arrival order, the head taken next (R80, R81; log 5) -/
  requests : List Request
  /-- the MODEL's own: the response to the last request (R83; log 6) -/
  response : Option Response
deriving DecidableEq, Repr

/-- CORE has no fault: every error is a status of a response and the machine goes on (R250, R256, R257). The type has
no constructor, so no step can answer one. -/
inductive Fault where
deriving DecidableEq, Repr

/-- Why a step has no transition. -/
inductive Refusal where
  /-- an instruction whose arm has no meaning (no arm of this model raises it); safe -/
  | notModelled (mnemonic : String)
  /-- raised by `step` on build parameters outside the constraints of R8: not a CORE, no rule is defined for it
  (U15, log 8); safe -/
  | notACore
deriving DecidableEq, Repr

/-- Every field of a TLB entry at reset (R26, R28, R275). -/
def TlbEntry.reset : TlbEntry where
  valid := false
  tag := 0
  pfn := 0

/-- A line of four zero words (R275). -/
def Line.zero : Line where
  w0 := 0
  w1 := 0
  w2 := 0
  w3 := 0

/-- Every field of a cache line entry at reset (R29, R275). -/
def CacheEntry.reset : CacheEntry where
  valid := false
  age := 0
  tag := 0
  words := Line.zero

/-- The reset state of a CORE built with parameters `c` over the memory `m` the host has loaded (R275, R282). -/
def State.resetWith (c : Config) (m : Memory) : State where
  cfg := c
  mem := m
  tlb := match c.org with
    | .fa => List.replicate c.tlbLines TlbEntry.reset
    | .hier => []
  lru := match c.org with
    | .fa => listInit c.tlbLines
    | .hier => []
  itlb := match c.org with
    | .fa => []
    | .hier => List.replicate c.l1TlbLines TlbEntry.reset
  dtlb := match c.org with
    | .fa => []
    | .hier => List.replicate c.l1TlbLines TlbEntry.reset
  tlb2 := match c.org with
    | .fa => []
    | .hier => List.replicate c.l2TlbLines TlbEntry.reset
  l1i := List.replicate c.l1CacheLines (List.replicate c.l1Ways CacheEntry.reset)
  l1d := List.replicate c.l1CacheLines (List.replicate c.l1Ways CacheEntry.reset)
  l2 := List.replicate c.l2CacheLines (List.replicate c.l2Ways CacheEntry.reset)
  requests := []
  response := none

/-- The machine right after reset (R275), with the parameters of `Config.suggested` (log 2) and memory with nothing
listed (log 3). -/
def State.reset : State := State.resetWith Config.suggested []

end Sys2Proof.Machine
end

