-- ==== Sys2Proof/Machine/Ops.lean ====
section
/-! DEFINITION. The shared operations over memory (spec/20_memory.md R50 to R58), the response port and the one
operation of raising an error (spec/00_scope.md R13, spec/60_exceptions.md R250, R256, R257), and what the host
does between requests (spec/70_reset_and_hazards.md R276, R282, R285). -/

namespace Sys2Proof.Machine

/-! ### The memory buffer -/

/-- The canonical form of memory: addresses strictly rising, no entry equal to what an unlisted address reads as. -/
abbrev Memory.wf (m : Memory) : Prop :=
  m.Pairwise (fun c d => c.1 < d.1) ∧ ∀ c ∈ m, c.2 ≠ unlistedByte

/-- Every listed address lies inside the buffer (R24). -/
abbrev Memory.inside (m : Memory) (memLen : Nat) : Prop := ∀ c ∈ m, c.1 < memLen

/-- `MEM[a]` (R24). -/
def memByte : Memory → Nat → Byte
  | [], _ => unlistedByte
  | (b, v) :: m, a => if a = b then v else memByte m a

/-- `MEM[a] <- v`, keeping the canonical form. -/
def memSetByte : Memory → Nat → Byte → Memory
  | [], a, v => if v = unlistedByte then [] else [(a, v)]
  | (b, w) :: m, a, v =>
    if a < b then (if v = unlistedByte then (b, w) :: m else (a, v) :: (b, w) :: m)
    else if a = b then (if v = unlistedByte then m else (a, v) :: m)
    else (b, w) :: memSetByte m a v

/-- `MemRead(addr, 4)`, little-endian (R52, R54). Every caller checks the bounds first (R55; log 10). -/
def memRead (m : Memory) (addr : Nat) : Word :=
  memByte m (addr + 3) ++ memByte m (addr + 2) ++ memByte m (addr + 1) ++ memByte m addr

/-- `MemWrite(addr, 4, v)`, little-endian (R53, R54). Every caller checks the bounds first (R55; log 10). -/
def memWrite (m : Memory) (addr : Nat) (v : Word) : Memory :=
  let m0 := memSetByte m addr (v.extractLsb' 0 8)
  let m1 := memSetByte m0 (addr + 1) (v.extractLsb' 8 8)
  let m2 := memSetByte m1 (addr + 2) (v.extractLsb' 16 8)
  memSetByte m2 (addr + 3) (v.extractLsb' 24 8)

/-- A line fill: four `MemRead`s at `b, b+4, b+8, b+12` (R58, R203). -/
def memReadLine (m : Memory) (b : Nat) : Line where
  w0 := memRead m b
  w1 := memRead m (b + 4)
  w2 := memRead m (b + 8)
  w3 := memRead m (b + 12)

/-- A line write: four `MemWrite`s at the same offsets, in that order (R58, R211). -/
def memWriteLine (m : Memory) (b : Nat) (line : Line) : Memory :=
  let m0 := memWrite m b line.w0
  let m1 := memWrite m0 (b + 4) line.w1
  let m2 := memWrite m1 (b + 8) line.w2
  memWrite m2 (b + 12) line.w3

/-! ### Responses -/

/-- The `dump` field of a response that is not DUMP's (R83). -/
def DumpPayload.zero : DumpPayload where
  valid := false
  age := 0
  tag := 0
  w0 := 0
  w1 := 0
  w2 := 0
  w3 := 0

/-- An error response: when `status ≠ 0` every other field is 0 (R83). -/
def Response.error (e : ErrorKind) : Response where
  status := .error e
  tlbHit := false
  level := .none
  data := 0
  dump := DumpPayload.zero

/-- The `OK` response of an access (R83, R239). -/
def Response.access (tlbHit : Bool) (level : HitLevel) (data : Word) : Response where
  status := .ok
  tlbHit := tlbHit
  level := level
  data := data
  dump := DumpPayload.zero

/-- The `OK` response of XLATE (R83, R238). -/
def Response.translation (paddr : PAddr) : Response where
  status := .ok
  tlbHit := false
  level := .none
  data := paddr
  dump := DumpPayload.zero

/-- The `OK` response of DUMP, with `data = w0` (R97, R240). -/
def Response.inspection (payload : DumpPayload) : Response where
  status := .ok
  tlbHit := false
  level := .none
  data := payload.w0
  dump := payload

/-- Give a response: nothing else of the state changes. -/
def State.respond (s : State) (r : Response) : State := { s with response := some r }

/-- Raise an error (R13, R250): the response with its status is the whole mechanism (R256), so nothing but the response
is written; what an earlier stage of the same request wrote stays in `s` (R13, R257). -/
def State.raise (s : State) (e : ErrorKind) : State := s.respond (Response.error e)

/-! ### The host -/

/-- The request CORE takes next and the state with it taken (R21, R285); none when the host has issued none. -/
def takeRequest (s : State) : Option (Request × State) :=
  match s.requests with
  | [] => none
  | w :: rest => some (w, { s with requests := rest })

/-- With no request CORE waits (R276): nothing changes (log 5). -/
def idle (s : State) : State := s

/-- The host issues one more request, after those already issued (R285). -/
def State.issue (s : State) (w : Request) : State := { s with requests := s.requests ++ [w] }

/-- The host loads the memory buffer, before the first request (R282). -/
def State.loadMemory (s : State) (m : Memory) : State := { s with mem := m }

/-- Reset as an event outside the request stream (R276): the arrays as R275 gives them, `MEM` not touched. -/
def State.hardReset (s : State) : State := State.resetWith s.cfg s.mem

end Sys2Proof.Machine
end

