-- ==== Sys2Proof/Machine/Cache.lean ====
section
/-! DEFINITION. The Cache Hierarchy (spec/44_cache.md R190 to R219): address decomposition, lookup and ageing,
install, moves between the levels, word and byte reads and writes. -/

namespace Sys2Proof.Machine

/-! ### Address decomposition -/

/-- The two sizes of a cache level: `LINES = 2^bits` sets of `ways` ways (R190). -/
structure Geometry where
  bits : Nat
  ways : Nat
deriving DecidableEq, Repr

/-- L1-I and L1-D: `L1_CACHE_LINES`, `L1_WAYS` (R29). -/
def l1Geometry (c : Config) : Geometry where
  bits := c.l1cBits
  ways := c.l1Ways

/-- L2: `L2_CACHE_LINES`, `L2_WAYS` (R29). -/
def l2Geometry (c : Config) : Geometry where
  bits := c.l2cBits
  ways := c.l2Ways

/-- `line_index(C, paddr)` (R190). -/
def lineIndex (g : Geometry) (paddr : PAddr) : Nat := paddr.toNat / 16 % 2 ^ g.bits

/-- `tag(C, paddr)` (R190). -/
def cacheTag (g : Geometry) (paddr : PAddr) : BitVec 32 := paddr >>> (g.bits + 4)

/-- `word_select(paddr)` (R190). -/
def wordSelect (paddr : PAddr) : Fin 4 := ⟨paddr.toNat / 4 % 4, Nat.mod_lt _ (by decide)⟩

/-- `byte_index(paddr)` (R190). -/
def byteIndex (paddr : PAddr) : Nat := paddr.toNat % 4

/-- `line_base(paddr)` (R190). -/
def lineBase (paddr : PAddr) : Nat := paddr.toNat - paddr.toNat % 16

/-- `line_address(C, s, t)`, the inverse of the decomposition (R196). -/
def lineAddress (g : Geometry) (s : Nat) (t : BitVec 32) : PAddr := (t <<< (g.bits + 4)) ||| BitVec.ofNat 32 (s * 16)

/-! ### Lines, sets and ways -/

/-- `words[k]` of a line. -/
def Line.get (line : Line) (k : Fin 4) : Word :=
  match k with
  | 0 => line.w0
  | 1 => line.w1
  | 2 => line.w2
  | 3 => line.w3

/-- `words[k] <- v`. -/
def Line.put (line : Line) (k : Fin 4) (v : Word) : Line :=
  match k with
  | 0 => { line with w0 := v }
  | 1 => { line with w1 := v }
  | 2 => { line with w2 := v }
  | 3 => { line with w3 := v }

/-- `C[s]`. -/
def cacheSet (c : CacheArray) (s : Nat) : List CacheEntry := c.getD s []

/-- `C[s][w]`, given the set. -/
def wayAt (ways : List CacheEntry) (w : Nat) : CacheEntry := ways.getD w CacheEntry.reset

/-- `C[s][w].words` for the set of `paddr`. -/
def lineHeld (g : Geometry) (c : CacheArray) (paddr : PAddr) (w : Nat) : Line :=
  (wayAt (cacheSet c (lineIndex g paddr)) w).words

/-- Replace the set of `paddr`. -/
def putSet (g : Geometry) (c : CacheArray) (paddr : PAddr) (ways : List CacheEntry) : CacheArray :=
  c.set (lineIndex g paddr) ways

/-- A complete valid entry of age 0: every field is written at once (R194, R195, R258). -/
def CacheEntry.installed (tag : BitVec 32) (line : Line) : CacheEntry where
  valid := true
  age := 0
  tag := tag
  words := line

/-! ### Lookup and the ageing rule -/

/-- A way matches if `valid == 1 && tag == expected_tag` (R191). -/
def CacheEntry.matchesTag (tag : BitVec 32) (e : CacheEntry) : Bool := e.valid && e.tag == tag

/-- The scan of the ways at the computed line index in ascending order, without its age update (R191, decision D15). -/
def cacheProbe (g : Geometry) (c : CacheArray) (paddr : PAddr) : Option Nat :=
  (cacheSet c (lineIndex g paddr)).findIdx? (CacheEntry.matchesTag (cacheTag g paddr))

/-- What the ageing rule does to a way that is not the matching one (R192, R195): a valid way whose age is below
`WAYS-1` and below the matching way's prior age is incremented. -/
def ageBelow (ways prior : Nat) (e : CacheEntry) : CacheEntry :=
  if e.valid ∧ e.age < ways - 1 ∧ e.age < prior then { e with age := e.age + 1 } else e

/-- `age_on_hit` on one set (R192); every comparison uses the values from before the call. -/
def ageOnHit (ways : Nat) (set : List CacheEntry) (w : Nat) : List CacheEntry :=
  (set.map (ageBelow ways (wayAt set w).age)).set w { wayAt set w with age := 0 }

/-- `cache_lookup` (R191): on a hit the way and the array with its ages updated, on a miss none and nothing changes. -/
def cacheLookup (g : Geometry) (c : CacheArray) (paddr : PAddr) : Option (Nat × CacheArray) :=
  match cacheProbe g c paddr with
  | some w => some (w, putSet g c paddr (ageOnHit g.ways (cacheSet c (lineIndex g paddr)) w))
  | none => none

/-! ### Install -/

/-- A line leaving a level: its physical address and its words (R193). -/
structure Victim where
  addr : PAddr
  line : Line
deriving DecidableEq, Repr

/-- The lowest-numbered invalid way (R194, decision D16). -/
def freeWay (set : List CacheEntry) : Option Nat := set.findIdx? (fun e => !e.valid)

/-- The bump of a cold-fill: unconditional, capped at `WAYS-1` (R194). -/
def bumpAge (ways : Nat) (e : CacheEntry) : CacheEntry := { e with age := min (e.age + 1) (ways - 1) }

/-- Cold-fill of way `w` (R194): every other way of the set is bumped, valid or not. -/
def coldFill (ways : Nat) (set : List CacheEntry) (w : Nat) (tag : BitVec 32) (line : Line) : List CacheEntry :=
  (set.map (bumpAge ways)).set w (CacheEntry.installed tag line)

/-- The maximum age over a set (R195). -/
def maxAge (set : List CacheEntry) : Nat := set.foldr (fun e m => max e.age m) 0

/-- The lowest-numbered way whose age is the maximum over the set (R195). -/
def oldestWay (set : List CacheEntry) : Nat := set.findIdx (fun e => e.age == maxAge set)

/-- Overwrite way `w` and age the others as on a hit, the prior age being the victim's (R195). -/
def evictFill (ways : Nat) (set : List CacheEntry) (w : Nat) (tag : BitVec 32) (line : Line) : List CacheEntry :=
  (set.map (ageBelow ways (wayAt set w).age)).set w (CacheEntry.installed tag line)

/-- `cache_install` (R193 to R196): the array with the line placed, and the line it displaced. -/
def cacheInstall (g : Geometry) (c : CacheArray) (paddr : PAddr) (line : Line) : CacheArray × Option Victim :=
  let set := cacheSet c (lineIndex g paddr)
  match freeWay set with
  | some w => (putSet g c paddr (coldFill g.ways set w (cacheTag g paddr) line), none)
  | none =>
    let w := oldestWay set
    (putSet g c paddr (evictFill g.ways set w (cacheTag g paddr) line),
      some { addr := lineAddress g (lineIndex g paddr) (wayAt set w).tag, line := (wayAt set w).words })

/-! ### Moving lines between levels -/

/-- `L1I` or `L1D` by the access kind (R200). -/
def State.l1 (s : State) : AccessKind → CacheArray
  | .instruction => s.l1i
  | .data => s.l1d

/-- Write the L1 array of a kind. -/
def State.setL1 (s : State) (k : AccessKind) (c : CacheArray) : State :=
  match k with
  | .instruction => { s with l1i := c }
  | .data => { s with l1d := c }

/-- Pass an L1 victim to L2, whose own victim is discarded (R197, R198). -/
def installVictim (s : State) (v : Option Victim) : State :=
  match v with
  | none => s
  | some v => { s with l2 := (cacheInstall (l2Geometry s.cfg) s.l2 v.addr v.line).1 }

/-- `fill_l1` (R198). -/
def fillL1 (s : State) (k : AccessKind) (paddr : PAddr) (line : Line) : State :=
  installVictim (s.setL1 k (cacheInstall (l1Geometry s.cfg) (s.l1 k) paddr line).1)
    (cacheInstall (l1Geometry s.cfg) (s.l1 k) paddr line).2

/-- Invalidate way `w` of the set of `paddr`: `valid` only is cleared (R30, R199). -/
def invalidateWay (g : Geometry) (c : CacheArray) (paddr : PAddr) (w : Nat) : CacheArray :=
  putSet g c paddr ((cacheSet c (lineIndex g paddr)).set w
    { wayAt (cacheSet c (lineIndex g paddr)) w with valid := false })

/-- `migrate` (R199, decision D18): invalidate the L2 way first, then fill L1 with its line. -/
def migrate (s : State) (k : AccessKind) (paddr : PAddr) (w2 : Nat) : State :=
  fillL1 { s with l2 := invalidateWay (l2Geometry s.cfg) s.l2 paddr w2 } k paddr
    (lineHeld (l2Geometry s.cfg) s.l2 paddr w2)

/-! ### Word and byte reads -/

/-- What a cache operation returns: the word or byte (0 for a write), the level that served it, the state it leaves. -/
structure Served where
  data : Word
  level : HitLevel
  state : State
deriving DecidableEq, Repr

/-- A read that missed both levels (R203): one bounds check on the whole line, then fetch it and fill L1. -/
def readMiss (s : State) (paddr : PAddr) (k : AccessKind) : Except ErrorKind Served :=
  if s.cfg.memLen < lineBase paddr + 16 then .error .outOfBounds
  else .ok
    { data := (memReadLine s.mem (lineBase paddr)).get (wordSelect paddr)
      level := .mem
      state := fillL1 s k paddr (memReadLine s.mem (lineBase paddr)) }

/-- `cache_read_word` (R200 to R203). -/
def cacheReadWord (s : State) (paddr : PAddr) (k : AccessKind) : Except ErrorKind Served :=
  if paddr.toNat % 4 ≠ 0 then .error .badParameter
  else
    match cacheLookup (l1Geometry s.cfg) (s.l1 k) paddr with
    | some (w, c) => .ok
        { data := (lineHeld (l1Geometry s.cfg) (s.l1 k) paddr w).get (wordSelect paddr)
          level := .l1
          state := s.setL1 k c }
    | none =>
      match cacheLookup (l2Geometry s.cfg) s.l2 paddr with
      | some (w2, c2) => .ok
          { data := (lineHeld (l2Geometry s.cfg) s.l2 paddr w2).get (wordSelect paddr)
            level := .l2
            state := migrate { s with l2 := c2 } k paddr w2 }
      | none => readMiss s paddr k

/-- `paddr - paddr mod 4`, the containing word (R214, R219). -/
def wordAligned (paddr : PAddr) : PAddr := BitVec.ofNat 32 (paddr.toNat - paddr.toNat % 4)

/-- `(word >> 8*byte_index) mod 256`, zero-extended (R54, R91, R214). -/
def byteOf (word : Word) (paddr : PAddr) : Word := (word >>> (8 * byteIndex paddr)) &&& 0xFF#32

/-- `old` with bits `sh+7:sh` replaced by the byte, `sh = 8 * byte_index` (R219). -/
def mergeByte (old : Word) (byte : Byte) (paddr : PAddr) : Word :=
  (old &&& ~~~(0xFF#32 <<< (8 * byteIndex paddr))) ||| (byte.setWidth 32 <<< (8 * byteIndex paddr))

/-- `cache_read_byte` (R214). -/
def cacheReadByte (s : State) (paddr : PAddr) (k : AccessKind) : Except ErrorKind Served :=
  match cacheReadWord s (wordAligned paddr) k with
  | .error e => .error e
  | .ok r => .ok { data := byteOf r.data paddr, level := r.level, state := r.state }

/-! ### Word and byte writes -/

/-- `C[line_index(paddr)][w].words[word_select(paddr)] <- v` (R207, R208). -/
def storeWord (g : Geometry) (c : CacheArray) (paddr : PAddr) (w : Nat) (v : Word) : CacheArray :=
  putSet g c paddr ((cacheSet c (lineIndex g paddr)).set w
    { wayAt (cacheSet c (lineIndex g paddr)) w with words := (lineHeld g c paddr w).put (wordSelect paddr) v })

/-- A write that missed both levels (R211): build the line from memory, merge, write the whole line, fill L1-D. -/
def writeMiss (s : State) (paddr : PAddr) (v : Word) : Except ErrorKind Served :=
  if s.cfg.memLen < lineBase paddr + 16 then .error .outOfBounds
  else
    let line := (memReadLine s.mem (lineBase paddr)).put (wordSelect paddr) v
    .ok
      { data := 0
        level := .mem
        state := fillL1 { s with mem := memWriteLine s.mem (lineBase paddr) line } .data paddr line }

/-- `cache_write_word` (R205, R207, R208, R211): data only, `L1I` is never looked at. -/
def cacheWriteWord (s : State) (paddr : PAddr) (v : Word) : Except ErrorKind Served :=
  if paddr.toNat % 4 ≠ 0 then .error .badParameter
  else if s.cfg.memLen < paddr.toNat + 4 then .error .outOfBounds
  else
    match cacheLookup (l1Geometry s.cfg) s.l1d paddr with
    | some (w, c) => .ok
        { data := 0
          level := .l1
          state := { s with l1d := storeWord (l1Geometry s.cfg) c paddr w v, mem := memWrite s.mem paddr.toNat v } }
    | none =>
      match cacheLookup (l2Geometry s.cfg) s.l2 paddr with
      | some (w2, c2) => .ok
          { data := 0
            level := .l2
            state := migrate
              { s with l2 := storeWord (l2Geometry s.cfg) c2 paddr w2 v, mem := memWrite s.mem paddr.toNat v }
              .data paddr w2 }
      | none => writeMiss s paddr v

/-- `cache_write_byte` (R219, decision D20): a full data read of the containing word, then a write of the merged word; the
level is the read half's. -/
def cacheWriteByte (s : State) (paddr : PAddr) (byte : Byte) : Except ErrorKind Served :=
  match cacheReadWord s (wordAligned paddr) .data with
  | .error e => .error e
  | .ok r =>
    match cacheWriteWord r.state (wordAligned paddr) (mergeByte r.data byte paddr) with
    | .error e => .error e
    | .ok w => .ok { data := 0, level := r.level, state := w.state }

end Sys2Proof.Machine
end

