-- ==== Sys2Proof/Machine/Operands.lean ====
section
/-! DEFINITION. The operand forms of the requests (spec/30_encoding.md R81, R91, R97): the value operand of a write,
the must-be-zero value of the others, and the DUMP selector. -/

namespace Sys2Proof.Machine

/-- `wdata` must be 0 on a request that is not a write (R230 check 3). -/
def zeroOperand (wdata : Word) : Bool := wdata == 0

/-- `wdata[7:0]`, or none when `wdata ≥ 256` (R91, R230 check 4). -/
def byteOperand (wdata : Word) : Option Byte :=
  if 256 ≤ wdata.toNat then none else some (wdata.extractLsb' 0 8)

/-- The arrays a DUMP can name (R97). -/
inductive DumpArray where
  | tlb
  | itlb
  | dtlb
  | tlb2
  | l1i
  | l1d
  | l2
  | lru
deriving DecidableEq, Repr

/-- The array of code `arr`; codes 8 to 15 are reserved (R97). -/
def dumpArray (arr : BitVec 4) : Option DumpArray :=
  match arr.toNat with
  | 0 => some .tlb
  | 1 => some .itlb
  | 2 => some .dtlb
  | 3 => some .tlb2
  | 4 => some .l1i
  | 5 => some .l1d
  | 6 => some .l2
  | 7 => some .lru
  | _ => none

/-- The array exists in the organisation that is built (R240). -/
def DumpArray.built (c : Config) : DumpArray → Bool
  | .tlb => c.org == .fa
  | .lru => c.org == .fa
  | .itlb => c.org == .hier
  | .dtlb => c.org == .hier
  | .tlb2 => c.org == .hier
  | .l1i => true
  | .l1d => true
  | .l2 => true

/-- `size(arr)` (R240). -/
def DumpArray.size (c : Config) : DumpArray → Nat
  | .tlb => c.tlbLines
  | .lru => c.tlbLines
  | .itlb => c.l1TlbLines
  | .dtlb => c.l1TlbLines
  | .tlb2 => c.l2TlbLines
  | .l1i => c.l1CacheLines
  | .l1d => c.l1CacheLines
  | .l2 => c.l2CacheLines

/-- How many values of `way` an array admits: `WAYS(arr)` for a cache, only 0 for the others (R240). -/
def DumpArray.wayCount (c : Config) : DumpArray → Nat
  | .l1i => c.l1Ways
  | .l1d => c.l1Ways
  | .l2 => c.l2Ways
  | .tlb => 1
  | .itlb => 1
  | .dtlb => 1
  | .tlb2 => 1
  | .lru => 1

/-- The selector checks of R240 (and check 3 of R230): the array selected, or none where the answer is `BadParameter`. -/
def dumpSelect (c : Config) (wdata : Word) (mbz : BitVec 20) (way : BitVec 8) (idx : BitVec 32) (arr : BitVec 4) :
    Option DumpArray :=
  if wdata ≠ 0 ∨ mbz ≠ 0 then none
  else
    match dumpArray arr with
    | none => none
    | some x =>
      if x.built c ∧ idx.toNat < x.size c ∧ way.toNat < x.wayCount c then some x else none

end Sys2Proof.Machine
end

