-- ==== Sys2Proof/Machine/Codec.lean ====
section
/-! DEFINITION. The Address Codec (spec/40_address_codec.md R110 to R118): structured and flat addresses. -/

namespace Sys2Proof.Machine

/-- The five fields of a virtual address; the type bounds every field as the invariant of R110 does. -/
structure VirtualAddress where
  top : BitVec 9
  upper : BitVec 9
  middle : BitVec 9
  lower : BitVec 9
  offset : BitVec 12
deriving DecidableEq, Repr

/-- The two fields of a physical address (R110). -/
structure PhysicalAddress where
  pfn : Pfn
  offset : BitVec 12
deriving DecidableEq, Repr

/-- `decompose_virtual` (R111): any of bits 63:48 set is `BadParameter` (conflict C1). -/
def decomposeVirtual (v : VAddr) : Except ErrorKind VirtualAddress :=
  if 2 ^ 48 ≤ v.toNat then .error .badParameter
  else .ok
    { top := v.extractLsb' 39 9
      upper := v.extractLsb' 30 9
      middle := v.extractLsb' 21 9
      lower := v.extractLsb' 12 9
      offset := v.extractLsb' 0 12 }

/-- `compose_virtual` (R112): the five fields tile bits 47:0. -/
def composeVirtual (a : VirtualAddress) : VAddr :=
  0#16 ++ a.top ++ a.upper ++ a.middle ++ a.lower ++ a.offset

/-- `virtual_page_number` (R113): the four indices, the top one most significant. -/
def virtualPageNumber (a : VirtualAddress) : Vpn := a.top ++ a.upper ++ a.middle ++ a.lower

/-- `make_virtual` (R114): the field constructor, refusing an over-wide field. -/
def makeVirtual (top upper middle lower offset : Nat) : Except ErrorKind VirtualAddress :=
  if 512 ≤ top ∨ 512 ≤ upper ∨ 512 ≤ middle ∨ 512 ≤ lower ∨ 4096 ≤ offset then .error .badParameter
  else .ok
    { top := BitVec.ofNat 9 top
      upper := BitVec.ofNat 9 upper
      middle := BitVec.ofNat 9 middle
      lower := BitVec.ofNat 9 lower
      offset := BitVec.ofNat 12 offset }

/-- `make_physical` (R115): the field constructor, refusing an over-wide field. -/
def makePhysical (pfn offset : Nat) : Except ErrorKind PhysicalAddress :=
  if 2 ^ 20 ≤ pfn ∨ 4096 ≤ offset then .error .badParameter
  else .ok { pfn := BitVec.ofNat 20 pfn, offset := BitVec.ofNat 12 offset }

/-- `compose_physical` (R116). -/
def composePhysical (p : PhysicalAddress) : PAddr := p.pfn ++ p.offset

/-- `decompose_physical` (R117). -/
def decomposePhysical (x : PAddr) : PhysicalAddress where
  pfn := x.extractLsb' 12 20
  offset := x.extractLsb' 0 12

/-- `physical_from_base` (R118, decision D4): a frame base that is not a multiple of 4096 is `BadParameter`. -/
def physicalFromBase (base : Word) (offset : BitVec 12) : Except ErrorKind PhysicalAddress :=
  if base.toNat % 4096 ≠ 0 then .error .badParameter
  else makePhysical (base.toNat / 4096) offset.toNat

end Sys2Proof.Machine
end

