-- ==== Sys2Proof/Machine/Walker.lean ====
section
/-! DEFINITION. The Page Table Walker (spec/41_page_walker.md R130 to R137): four dependent word reads of `MEM`,
the root table at byte 0. -/

namespace Sys2Proof.Machine

/-- The byte offset of a table's entry: `4 * (base / 4 + index)` on naturals, without wrap-around (R132, R133, R137). -/
def entryOffset (base : Word) (index : BitVec 9) : Nat := 4 * (base.toNat / 4 + index.toNat)

/-- The levels of a walk from the table at `base`, in order; the result is the last entry read (R132). The first
entry outside memory ends the walk (R133). -/
def walkLevels (memLen : Nat) (m : Memory) : List (BitVec 9) → Word → Except ErrorKind Word
  | [], base => .ok base
  | index :: rest, base =>
    if memLen < entryOffset base index + 4 then .error .outOfBounds
    else walkLevels memLen m rest (memRead m (entryOffset base index))

/-- The four indices in walk order (R132). -/
def walkIndices (a : VirtualAddress) : List (BitVec 9) := [a.top, a.upper, a.middle, a.lower]

/-- `walk` (R130 to R135): it reads `MEM` only and returns no state, so it changes none (R136). -/
def walk (memLen : Nat) (m : Memory) (a : VirtualAddress) : Except ErrorKind PhysicalAddress :=
  match walkLevels memLen m (walkIndices a) 0 with
  | .error e => .error e
  | .ok base => physicalFromBase base a.offset

end Sys2Proof.Machine
end

