-- ==== Sys2Proof/Machine/Tlb.lean ====
section
/-! DEFINITION. The Translation Cache in both organisations (spec/43_tlb.md R160 to R169): the pure probe
`tlb_lookup` and `tlb_service`, which alone changes TLB state. -/

namespace Sys2Proof.Machine

/-- `A[i]` of a TLB array. -/
def tlbEntryAt (arr : List TlbEntry) (i : Nat) : TlbEntry := arr.getD i TlbEntry.reset

/-- A complete valid entry: every field is written at once (R258). -/
def TlbEntry.installed (tag : Vpn) (pfn : Pfn) : TlbEntry where
  valid := true
  tag := tag
  pfn := pfn

/-- What `tlb_service` returns (R160), with the state it leaves. -/
structure Translated where
  phys : PhysicalAddress
  hit : Bool
  state : State
deriving DecidableEq, Repr

/-! ### Fully-associative organisation -/

/-- The test of `fa_probe` on one entry (R162): an invalid entry never matches. -/
def TlbEntry.matchesVpn (vpn : Vpn) (e : TlbEntry) : Bool := e.valid && e.tag == vpn

/-- `fa_probe`: the first valid entry with this tag, scanning in ascending order (R162, decision D12). -/
def faProbe (tlb : List TlbEntry) (vpn : Vpn) : Option Nat := tlb.findIdx? (TlbEntry.matchesVpn vpn)

/-- The install of a miss: overwrite the front token's entry and move the token to the back (R163). -/
def faInstall (s : State) (vpn : Vpn) (pfn : Pfn) : State :=
  match front s.lru with
  | none => s
  | some t => { s with tlb := s.tlb.set t (TlbEntry.installed vpn pfn), lru := moveToBack s.lru t }

/-- `tlb_service`, organisation FA (R161 to R163): the walk is done before anything is overwritten. -/
def faService (s : State) (a : VirtualAddress) : Except ErrorKind Translated :=
  match faProbe s.tlb (virtualPageNumber a) with
  | some i => .ok
      { phys := { pfn := (tlbEntryAt s.tlb i).pfn, offset := a.offset }
        hit := true
        state := { s with lru := moveToBack s.lru i } }
  | none =>
    match walk s.cfg.memLen s.mem a with
    | .error e => .error e
    | .ok p => .ok { phys := p, hit := false, state := faInstall s (virtualPageNumber a) p.pfn }

/-! ### Hierarchical organisation -/

/-- `index_X(v) = v mod LINES` for an array of `2^bits` entries (R89, R165). -/
def directIndex (bits : Nat) (vpn : Vpn) : Nat := vpn.toNat % 2 ^ bits

/-- `tag_X(v) = v >> log2(LINES)` (R89, R165). -/
def directTag (bits : Nat) (vpn : Vpn) : Vpn := vpn >>> bits

/-- `X` holds `v` (R165). -/
def directHolds (bits : Nat) (arr : List TlbEntry) (vpn : Vpn) : Bool :=
  TlbEntry.matchesVpn (directTag bits vpn) (tlbEntryAt arr (directIndex bits vpn))

/-- The frame a holding array gives for `v`. -/
def directPfn (bits : Nat) (arr : List TlbEntry) (vpn : Vpn) : Pfn := (tlbEntryAt arr (directIndex bits vpn)).pfn

/-- Install `v` at its index, overwriting whatever stood there (R168, R169). -/
def directInstall (bits : Nat) (arr : List TlbEntry) (vpn : Vpn) (pfn : Pfn) : List TlbEntry :=
  arr.set (directIndex bits vpn) (TlbEntry.installed (directTag bits vpn) pfn)

/-- Invalidate `v` where the array holds it: `valid` only is cleared (R30, R169). -/
def directDrop (bits : Nat) (arr : List TlbEntry) (vpn : Vpn) : List TlbEntry :=
  if directHolds bits arr vpn then
    arr.set (directIndex bits vpn) { tlbEntryAt arr (directIndex bits vpn) with valid := false }
  else arr

/-- The VPN of the entry with this tag at index `i`: `(tag << bits) | i` (R28, R169). -/
def directVpn (bits : Nat) (tag : Vpn) (i : Nat) : Vpn := (tag <<< bits) ||| BitVec.ofNat 36 i

/-- The L1 array of a request: `ITLB` or `DTLB` by its kind (R165). -/
def State.l1Tlb (s : State) : AccessKind → List TlbEntry
  | .instruction => s.itlb
  | .data => s.dtlb

/-- Write the L1 array of a kind. -/
def State.setL1Tlb (s : State) (k : AccessKind) (arr : List TlbEntry) : State :=
  match k with
  | .instruction => { s with itlb := arr }
  | .data => { s with dtlb := arr }

/-- Copy a translation into the L1 array of the request's kind (R168, R169). -/
def hierPromote (s : State) (k : AccessKind) (vpn : Vpn) (pfn : Pfn) : State :=
  s.setL1Tlb k (directInstall s.cfg.l1tBits (s.l1Tlb k) vpn pfn)

/-- Before the install of `vpn` overwrites a valid `TLB2` entry, the VPN it held is invalidated in both L1 arrays
(R169, conflict C8). -/
def hierSupersede (s : State) (vpn : Vpn) : State :=
  let i2 := directIndex s.cfg.l2tBits vpn
  let old := tlbEntryAt s.tlb2 i2
  if old.valid then
    let oldVpn := directVpn s.cfg.l2tBits old.tag i2
    { s with itlb := directDrop s.cfg.l1tBits s.itlb oldVpn, dtlb := directDrop s.cfg.l1tBits s.dtlb oldVpn }
  else s

/-- The install of a miss at both levels: supersede, install into `TLB2`, promote into the L1 array (R169). -/
def hierInstall (s : State) (k : AccessKind) (vpn : Vpn) (pfn : Pfn) : State :=
  let s1 := hierSupersede s vpn
  let s2 := { s1 with tlb2 := directInstall s.cfg.l2tBits s1.tlb2 vpn pfn }
  hierPromote s2 k vpn pfn

/-- `tlb_service`, organisation HIER: L1 hit (R167), `TLB2` hit with promotion (R168), full miss (R169). -/
def hierService (s : State) (a : VirtualAddress) (k : AccessKind) : Except ErrorKind Translated :=
  let vpn := virtualPageNumber a
  if directHolds s.cfg.l1tBits (s.l1Tlb k) vpn then .ok
    { phys := { pfn := directPfn s.cfg.l1tBits (s.l1Tlb k) vpn, offset := a.offset }
      hit := true
      state := s }
  else if directHolds s.cfg.l2tBits s.tlb2 vpn then .ok
    { phys := { pfn := directPfn s.cfg.l2tBits s.tlb2 vpn, offset := a.offset }
      hit := true
      state := hierPromote s k vpn (directPfn s.cfg.l2tBits s.tlb2 vpn) }
  else
    match walk s.cfg.memLen s.mem a with
    | .error e => .error e
    | .ok p => .ok { phys := p, hit := false, state := hierInstall s k vpn p.pfn }

/-! ### The common contract -/

/-- `tlb_lookup(vpn, kind)`: a pure probe that never walks (R160, R162, R166). -/
def tlbLookup (s : State) (vpn : Vpn) (k : AccessKind) : Bool × Pfn :=
  match s.cfg.org with
  | .fa =>
    match faProbe s.tlb vpn with
    | some i => (true, (tlbEntryAt s.tlb i).pfn)
    | none => (false, 0)
  | .hier =>
    if directHolds s.cfg.l1tBits (s.l1Tlb k) vpn then (true, directPfn s.cfg.l1tBits (s.l1Tlb k) vpn)
    else if directHolds s.cfg.l2tBits s.tlb2 vpn then (true, directPfn s.cfg.l2tBits s.tlb2 vpn)
    else (false, 0)

/-- `tlb_service(MEM, a, kind)` of the organisation that is built (R160, R171). -/
def tlbService (s : State) (a : VirtualAddress) (k : AccessKind) : Except ErrorKind Translated :=
  match s.cfg.org with
  | .fa => faService s a
  | .hier => hierService s a k

end Sys2Proof.Machine
end

