-- ==== Sys2Proof/Machine/Access.lean ====
section
/-! DEFINITION. The access pipeline common to the six access requests (spec/45_access.md R239): codec, TLB stage, cache
stage, response. -/

namespace Sys2Proof.Machine

/-- `access` (R239) with the cache stage of the request given. An error of the codec or of the TLB stage leaves the state as
it was; an error of the cache stage leaves what the TLB stage wrote (R257, decision D25). -/
def access (s : State) (k : AccessKind) (vaddr : VAddr) (cacheStage : State → PAddr → Except ErrorKind Served) : State :=
  match decomposeVirtual vaddr with
  | .error e => s.raise e
  | .ok a =>
    match tlbService s a k with
    | .error e => s.raise e
    | .ok r =>
      match cacheStage r.state (composePhysical r.phys) with
      | .error e => r.state.raise e
      | .ok c => c.state.respond (Response.access r.hit c.level c.data)

end Sys2Proof.Machine
end

