-- ==== Sys2Proof/Machine/Inspect.lean ====
section
/-! DEFINITION. The two requests that change no state: XLATE (spec/45_access.md R238) and DUMP (R240, payload
spec/30_encoding.md R97). -/

namespace Sys2Proof.Machine

/-- `XLATE` (R238): codec and walker only; TLB, eviction list and caches are neither consulted nor touched. -/
def execXlate (wdata : Word) (vaddr : VAddr) (s : State) : Host.Outcome State Fault Refusal :=
  .next (if zeroOperand wdata then
      match decomposeVirtual vaddr with
      | .error e => s.raise e
      | .ok a =>
        match walk s.cfg.memLen s.mem a with
        | .error e => s.raise e
        | .ok p => s.respond (Response.translation (composePhysical p))
    else s.raise .badParameter)

/-- The payload of a TLB array's entry (R97). -/
def tlbPayload (e : TlbEntry) : DumpPayload where
  valid := e.valid
  age := 0
  tag := e.tag
  w0 := e.pfn.setWidth 32
  w1 := 0
  w2 := 0
  w3 := 0

/-- The payload of a cache entry (R97): invalid entries are returned as they are (R240). -/
def cachePayload (e : CacheEntry) : DumpPayload where
  valid := e.valid
  age := e.age
  tag := e.tag.setWidth 36
  w0 := e.words.w0
  w1 := e.words.w1
  w2 := e.words.w2
  w3 := e.words.w3

/-- The 32-bit field of a token (R97). The spec does not state what it shows for a token of `2^32` or more, which a
`TLB_LINES` above `2^32` has (R8 sets no bound): a free value (DESIGN CHOICE, log 18). -/
def tokenWord (t : Nat) : Word := if t < 2 ^ 32 then BitVec.ofNat 32 t else Config.wideTokenWord t

/-- The payload of a position of `LRU`: the token (R97; one of `2^32` or more, log 18). -/
def tokenPayload (t : Nat) : DumpPayload where
  valid := true
  age := 0
  tag := 0
  w0 := tokenWord t
  w1 := 0
  w2 := 0
  w3 := 0

/-- The entry selected by array, index and way (R97, R240). -/
def dumpPayload (s : State) (x : DumpArray) (idx way : Nat) : DumpPayload :=
  match x with
  | .tlb => tlbPayload (tlbEntryAt s.tlb idx)
  | .itlb => tlbPayload (tlbEntryAt s.itlb idx)
  | .dtlb => tlbPayload (tlbEntryAt s.dtlb idx)
  | .tlb2 => tlbPayload (tlbEntryAt s.tlb2 idx)
  | .l1i => cachePayload (wayAt (cacheSet s.l1i idx) way)
  | .l1d => cachePayload (wayAt (cacheSet s.l1d idx) way)
  | .l2 => cachePayload (wayAt (cacheSet s.l2 idx) way)
  | .lru => tokenPayload (s.lru.getD idx 0)

/-- `DUMP` (R240): one entry of one array; it changes no state. -/
def execDump (wdata : Word) (mbz : BitVec 20) (way : BitVec 8) (idx : BitVec 32) (arr : BitVec 4) (s : State) :
    Host.Outcome State Fault Refusal :=
  .next (match dumpSelect s.cfg wdata mbz way idx arr with
    | none => s.raise .badParameter
    | some x => s.respond (Response.inspection (dumpPayload s x idx.toNat way.toNat)))

end Sys2Proof.Machine
end

