-- ==== Sys2Proof/Machine/Reads.lean ====
section
/-! DEFINITION. The four read requests (spec/45_access.md R231 to R234). -/

namespace Sys2Proof.Machine

/-- `RDB.I` (R233): the pipeline with `cache_read_byte(.., instruction)`. -/
def execRdbI (wdata : Word) (vaddr : VAddr) (s : State) : Host.Outcome State Fault Refusal :=
  .next (if zeroOperand wdata then access s .instruction vaddr (fun t p => cacheReadByte t p .instruction)
    else s.raise .badParameter)

/-- `RDW.I` (R231): the pipeline with `cache_read_word(.., instruction)`. -/
def execRdwI (wdata : Word) (vaddr : VAddr) (s : State) : Host.Outcome State Fault Refusal :=
  .next (if zeroOperand wdata then access s .instruction vaddr (fun t p => cacheReadWord t p .instruction)
    else s.raise .badParameter)

/-- `RDB.D` (R234): the pipeline with `cache_read_byte(.., data)`. -/
def execRdbD (wdata : Word) (vaddr : VAddr) (s : State) : Host.Outcome State Fault Refusal :=
  .next (if zeroOperand wdata then access s .data vaddr (fun t p => cacheReadByte t p .data)
    else s.raise .badParameter)

/-- `RDW.D` (R232): the pipeline with `cache_read_word(.., data)`. -/
def execRdwD (wdata : Word) (vaddr : VAddr) (s : State) : Host.Outcome State Fault Refusal :=
  .next (if zeroOperand wdata then access s .data vaddr (fun t p => cacheReadWord t p .data)
    else s.raise .badParameter)

end Sys2Proof.Machine
end

