-- ==== Sys2Proof/Machine/Reserved.lean ====
section
/-! DEFINITION. The reserved values of `cmd` (spec/45_access.md R241). -/

namespace Sys2Proof.Machine

/-- `RESERVED.101x` (R241): `BadParameter`, no state changed. -/
def execReserved101x (_x : BitVec 1) (_wdata : Word) (_vaddr : VAddr) (s : State) : Host.Outcome State Fault Refusal :=
  .next (s.raise .badParameter)

/-- `RESERVED.11xx` (R241): `BadParameter`, no state changed. -/
def execReserved11xx (_x : BitVec 2) (_wdata : Word) (_vaddr : VAddr) (s : State) : Host.Outcome State Fault Refusal :=
  .next (s.raise .badParameter)

end Sys2Proof.Machine
end

