-- ==== Sys2Proof/Machine/Writes.lean ====
section
/-! DEFINITION. The two data writes and the illegal writes of kind instruction (spec/45_access.md R235 to R237). -/

namespace Sys2Proof.Machine

/-- `WRW.D` (R235): the pipeline with `cache_write_word`. -/
def execWrwD (wdata : Word) (vaddr : VAddr) (s : State) : Host.Outcome State Fault Refusal :=
  .next (access s .data vaddr (fun t p => cacheWriteWord t p wdata))

/-- `WRB.D` (R236): the pipeline with `cache_write_byte`; `wdata[31:8]` must be 0. -/
def execWrbD (wdata : Word) (vaddr : VAddr) (s : State) : Host.Outcome State Fault Refusal :=
  .next (match byteOperand wdata with
    | some byte => access s .data vaddr (fun t p => cacheWriteByte t p byte)
    | none => s.raise .badParameter)

/-- `ILLEGAL.WR.I` (R237): `BadParameter`, no state changed; `vaddr` and `wdata` are not looked at. -/
def execIllegalWrI (_size : BitVec 1) (_wdata : Word) (_vaddr : VAddr) (s : State) : Host.Outcome State Fault Refusal :=
  .next (s.raise .badParameter)

end Sys2Proof.Machine
end

