-- ==== Sys2Proof/Machine/Dispatch.lean ====
section
/-! DEFINITION. One arm per request of spec/opcode_table.json, each a call of its meaning (spec/30_encoding.md R82). -/

namespace Sys2Proof.Machine

def exec (i : Instr) (s : State) : Host.Outcome State Fault Refusal :=
  match i with
  | .rdbI wdata vaddr => Sys2Proof.Machine.execRdbI wdata vaddr s
  | .rdwI wdata vaddr => Sys2Proof.Machine.execRdwI wdata vaddr s
  | .rdbD wdata vaddr => Sys2Proof.Machine.execRdbD wdata vaddr s
  | .rdwD wdata vaddr => Sys2Proof.Machine.execRdwD wdata vaddr s
  | .illegalWrI size wdata vaddr => Sys2Proof.Machine.execIllegalWrI size wdata vaddr s
  | .wrbD wdata vaddr => Sys2Proof.Machine.execWrbD wdata vaddr s
  | .wrwD wdata vaddr => Sys2Proof.Machine.execWrwD wdata vaddr s
  | .xlate wdata vaddr => Sys2Proof.Machine.execXlate wdata vaddr s
  | .dump wdata mbz way idx arr => Sys2Proof.Machine.execDump wdata mbz way idx arr s
  | .reserved101x x wdata vaddr => Sys2Proof.Machine.execReserved101x x wdata vaddr s
  | .reserved11xx x wdata vaddr => Sys2Proof.Machine.execReserved11xx x wdata vaddr s

end Sys2Proof.Machine
end

