-- ==== Sys2Proof/Machine/Step.lean ====
section
/-! DEFINITION. One step of CORE: one request, to completion (spec/00_scope.md R3, spec/45_access.md R230). -/

namespace Sys2Proof.Machine

/-- Take the host's next request, decode it and execute it; with none issued, wait (R276). Build parameters outside the
constraints of R8 are not a CORE and the step is refused (U15, log 8). -/
def step (s : State) : Host.Outcome State Fault Refusal :=
  if s.cfg.valid then
    match takeRequest s with
    | none => .next (idle s)
    | some (w, t) => exec (decode w) t
  else .refused .notACore

/-- The state with the request word `w` issued as the one CORE takes next (log 7). -/
def State.withFetchWord (s : State) (_nbits w : Nat) : State :=
  { s with requests := BitVec.ofNat 100 w :: s.requests }

end Sys2Proof.Machine
end

