-- ==== Sys2Proof/Laws/State.lean ====
section
/-! SUPPORT. One lemma per field per update of the state, so that no later proof unfolds a record update. -/

namespace Sys2Proof.Machine

section

variable (s : State) (r : Response) (e : ErrorKind) (k : AccessKind) (c : CacheArray) (arr : List TlbEntry)

/-! ### The response port -/

@[simp] theorem State.respond_cfg : (s.respond r).cfg = s.cfg := rfl

@[simp] theorem State.respond_mem : (s.respond r).mem = s.mem := rfl

@[simp] theorem State.respond_tlb : (s.respond r).tlb = s.tlb := rfl

@[simp] theorem State.respond_lru : (s.respond r).lru = s.lru := rfl

@[simp] theorem State.respond_itlb : (s.respond r).itlb = s.itlb := rfl

@[simp] theorem State.respond_dtlb : (s.respond r).dtlb = s.dtlb := rfl

@[simp] theorem State.respond_tlb2 : (s.respond r).tlb2 = s.tlb2 := rfl

@[simp] theorem State.respond_l1i : (s.respond r).l1i = s.l1i := rfl

@[simp] theorem State.respond_l1d : (s.respond r).l1d = s.l1d := rfl

@[simp] theorem State.respond_l2 : (s.respond r).l2 = s.l2 := rfl

@[simp] theorem State.respond_requests : (s.respond r).requests = s.requests := rfl

@[simp] theorem State.respond_response : (s.respond r).response = some r := rfl

@[simp] theorem State.raise_cfg : (s.raise e).cfg = s.cfg := rfl

@[simp] theorem State.raise_mem : (s.raise e).mem = s.mem := rfl

@[simp] theorem State.raise_tlb : (s.raise e).tlb = s.tlb := rfl

@[simp] theorem State.raise_lru : (s.raise e).lru = s.lru := rfl

@[simp] theorem State.raise_itlb : (s.raise e).itlb = s.itlb := rfl

@[simp] theorem State.raise_dtlb : (s.raise e).dtlb = s.dtlb := rfl

@[simp] theorem State.raise_tlb2 : (s.raise e).tlb2 = s.tlb2 := rfl

@[simp] theorem State.raise_l1i : (s.raise e).l1i = s.l1i := rfl

@[simp] theorem State.raise_l1d : (s.raise e).l1d = s.l1d := rfl

@[simp] theorem State.raise_l2 : (s.raise e).l2 = s.l2 := rfl

@[simp] theorem State.raise_requests : (s.raise e).requests = s.requests := rfl

@[simp] theorem State.raise_response : (s.raise e).response = some (Response.error e) := rfl

@[simp] theorem State.respond_l1 : (s.respond r).l1 k = s.l1 k := by cases k <;> rfl

@[simp] theorem State.raise_l1 : (s.raise e).l1 k = s.l1 k := by cases k <;> rfl

@[simp] theorem State.respond_l1Tlb : (s.respond r).l1Tlb k = s.l1Tlb k := by cases k <;> rfl

@[simp] theorem State.raise_l1Tlb : (s.raise e).l1Tlb k = s.l1Tlb k := by cases k <;> rfl

/-! ### The L1 cache array of a kind -/

@[simp] theorem State.setL1_cfg : (s.setL1 k c).cfg = s.cfg := by cases k <;> rfl

@[simp] theorem State.setL1_mem : (s.setL1 k c).mem = s.mem := by cases k <;> rfl

@[simp] theorem State.setL1_tlb : (s.setL1 k c).tlb = s.tlb := by cases k <;> rfl

@[simp] theorem State.setL1_lru : (s.setL1 k c).lru = s.lru := by cases k <;> rfl

@[simp] theorem State.setL1_itlb : (s.setL1 k c).itlb = s.itlb := by cases k <;> rfl

@[simp] theorem State.setL1_dtlb : (s.setL1 k c).dtlb = s.dtlb := by cases k <;> rfl

@[simp] theorem State.setL1_tlb2 : (s.setL1 k c).tlb2 = s.tlb2 := by cases k <;> rfl

@[simp] theorem State.setL1_l2 : (s.setL1 k c).l2 = s.l2 := by cases k <;> rfl

@[simp] theorem State.setL1_requests : (s.setL1 k c).requests = s.requests := by cases k <;> rfl

@[simp] theorem State.setL1_response : (s.setL1 k c).response = s.response := by cases k <;> rfl

@[simp] theorem State.setL1_l1 : (s.setL1 k c).l1 k = c := by cases k <;> rfl

theorem State.setL1_l1_of_ne (j : AccessKind) (h : j ≠ k) : (s.setL1 k c).l1 j = s.l1 j := by
  cases k <;> cases j <;> first | rfl | exact absurd rfl h

@[simp] theorem State.setL1_l1Tlb (j : AccessKind) : (s.setL1 k c).l1Tlb j = s.l1Tlb j := by
  cases k <;> cases j <;> rfl

@[simp] theorem State.l1_instruction : s.l1 .instruction = s.l1i := rfl

@[simp] theorem State.l1_data : s.l1 .data = s.l1d := rfl

@[simp] theorem State.setL1_instruction : s.setL1 .instruction c = { s with l1i := c } := rfl

@[simp] theorem State.setL1_data : s.setL1 .data c = { s with l1d := c } := rfl

/-! ### The L1 TLB array of a kind -/

@[simp] theorem State.setL1Tlb_cfg : (s.setL1Tlb k arr).cfg = s.cfg := by cases k <;> rfl

@[simp] theorem State.setL1Tlb_mem : (s.setL1Tlb k arr).mem = s.mem := by cases k <;> rfl

@[simp] theorem State.setL1Tlb_tlb : (s.setL1Tlb k arr).tlb = s.tlb := by cases k <;> rfl

@[simp] theorem State.setL1Tlb_lru : (s.setL1Tlb k arr).lru = s.lru := by cases k <;> rfl

@[simp] theorem State.setL1Tlb_tlb2 : (s.setL1Tlb k arr).tlb2 = s.tlb2 := by cases k <;> rfl

@[simp] theorem State.setL1Tlb_l1i : (s.setL1Tlb k arr).l1i = s.l1i := by cases k <;> rfl

@[simp] theorem State.setL1Tlb_l1d : (s.setL1Tlb k arr).l1d = s.l1d := by cases k <;> rfl

@[simp] theorem State.setL1Tlb_l2 : (s.setL1Tlb k arr).l2 = s.l2 := by cases k <;> rfl

@[simp] theorem State.setL1Tlb_requests : (s.setL1Tlb k arr).requests = s.requests := by cases k <;> rfl

@[simp] theorem State.setL1Tlb_response : (s.setL1Tlb k arr).response = s.response := by cases k <;> rfl

@[simp] theorem State.setL1Tlb_l1Tlb : (s.setL1Tlb k arr).l1Tlb k = arr := by cases k <;> rfl

theorem State.setL1Tlb_l1Tlb_of_ne (j : AccessKind) (h : j ≠ k) : (s.setL1Tlb k arr).l1Tlb j = s.l1Tlb j := by
  cases k <;> cases j <;> first | rfl | exact absurd rfl h

@[simp] theorem State.setL1Tlb_l1 (j : AccessKind) : (s.setL1Tlb k arr).l1 j = s.l1 j := by
  cases k <;> cases j <;> rfl

@[simp] theorem State.l1Tlb_instruction : s.l1Tlb .instruction = s.itlb := rfl

@[simp] theorem State.l1Tlb_data : s.l1Tlb .data = s.dtlb := rfl

/-! ### The request port -/

@[simp] theorem State.withFetchWord_cfg (nbits w : Nat) : (s.withFetchWord nbits w).cfg = s.cfg := rfl

@[simp] theorem State.withFetchWord_mem (nbits w : Nat) : (s.withFetchWord nbits w).mem = s.mem := rfl

@[simp] theorem State.withFetchWord_tlb (nbits w : Nat) : (s.withFetchWord nbits w).tlb = s.tlb := rfl

@[simp] theorem State.withFetchWord_lru (nbits w : Nat) : (s.withFetchWord nbits w).lru = s.lru := rfl

@[simp] theorem State.withFetchWord_itlb (nbits w : Nat) : (s.withFetchWord nbits w).itlb = s.itlb := rfl

@[simp] theorem State.withFetchWord_dtlb (nbits w : Nat) : (s.withFetchWord nbits w).dtlb = s.dtlb := rfl

@[simp] theorem State.withFetchWord_tlb2 (nbits w : Nat) : (s.withFetchWord nbits w).tlb2 = s.tlb2 := rfl

@[simp] theorem State.withFetchWord_l1i (nbits w : Nat) : (s.withFetchWord nbits w).l1i = s.l1i := rfl

@[simp] theorem State.withFetchWord_l1d (nbits w : Nat) : (s.withFetchWord nbits w).l1d = s.l1d := rfl

@[simp] theorem State.withFetchWord_l2 (nbits w : Nat) : (s.withFetchWord nbits w).l2 = s.l2 := rfl

@[simp] theorem State.withFetchWord_requests (nbits w : Nat) :
    (s.withFetchWord nbits w).requests = BitVec.ofNat 100 w :: s.requests := rfl

@[simp] theorem State.withFetchWord_response (nbits w : Nat) : (s.withFetchWord nbits w).response = s.response := rfl

/-- Taking the next request changes the request port only. -/
theorem takeRequest_eq_some (t : State) (w : Request) :
    takeRequest s = some (w, t) ↔ s.requests = w :: t.requests ∧ t = { s with requests := t.requests } := by
  unfold takeRequest
  cases h : s.requests with
  | nil => simp
  | cons v rest =>
    simp only [Option.some.injEq, Prod.mk.injEq, List.cons.injEq]
    constructor
    · rintro ⟨rfl, rfl⟩
      exact ⟨⟨rfl, rfl⟩, rfl⟩
    · rintro ⟨⟨rfl, h2⟩, h3⟩
      exact ⟨rfl, by rw [h2]; exact h3.symm⟩

/-- With no request issued there is none to take. -/
theorem takeRequest_eq_none : takeRequest s = none ↔ s.requests = [] := by
  unfold takeRequest
  cases s.requests <;> simp

end

end Sys2Proof.Machine
end

