-- ==== Sys2Proof/Machine/Flags.lean ====
section
/-! DEFINITION. CORE has no status flags (spec/10_state.md R22): the indications of a request are outputs, the fields of
its response. This file gives their codes and the packed 211-bit `RSP` (spec/30_encoding.md R83, R84, R97). -/

namespace Sys2Proof.Machine

/-- The status codes (R84, R252; decision D23). -/
def Status.code : Status → BitVec 3
  | .ok => 0
  | .error .badParameter => 1
  | .error .outOfBounds => 2
  | .error .allocation => 3
  | .error .io => 4

/-- The codes of `level` (R83). -/
def HitLevel.code : HitLevel → BitVec 2
  | .none => 0
  | .l1 => 1
  | .l2 => 2
  | .mem => 3

/-- The 173 bits of the `dump` field (R97); an age above 255 has no packed form (U20, log 13). -/
def DumpPayload.pack (d : DumpPayload) : Option (BitVec 173) :=
  if d.age < 256 then
    some (d.w3 ++ d.w2 ++ d.w1 ++ d.w0 ++ d.tag ++ BitVec.ofNat 8 d.age ++ BitVec.ofBool d.valid)
  else none

/-- The packed response `RSP` (R83). -/
def Response.pack (r : Response) : Option (BitVec 211) :=
  match r.dump.pack with
  | some d => some (d ++ r.data ++ r.level.code ++ BitVec.ofBool r.tlbHit ++ r.status.code)
  | none => none

end Sys2Proof.Machine
end

