-- ==== Sys2Proof/Machine/LinkedList.lean ====
section
/-! DEFINITION. The doubly linked hardware representation of the eviction list (spec/42_eviction_list.md R146).
The state holds the sequence (R27); this representation is related to it by `LinkedList.represents`. -/

namespace Sys2Proof.Machine

/-- The arrays `next` and `prev` indexed by token, and the registers `head` and `tail`; `none` is `nil` (R146). -/
structure LinkedList where
  next : List (Option Nat)
  prev : List (Option Nat)
  head : Option Nat
  tail : Option Nat
deriving DecidableEq, Repr

/-- What follows token `t` in a sequence. -/
def tokenAfter : List Nat → Nat → Option Nat
  | [], _ => none
  | x :: rest, t => if x = t then rest.head? else tokenAfter rest t

/-- What precedes token `t` in a sequence. -/
def tokenBefore (seq : List Nat) (t : Nat) : Option Nat := tokenAfter seq.reverse t

/-- The representation reads off as `seq`: from `head` by `next` to `nil`, `prev` the inverse of `next`,
`prev[head] = nil`, `next[tail] = nil` (R146). -/
abbrev LinkedList.represents (l : LinkedList) (seq : List Nat) : Prop :=
  l.head = seq.head? ∧ l.tail = seq.getLast? ∧
    ∀ t ∈ seq, l.next[t]? = some (tokenAfter seq t) ∧ l.prev[t]? = some (tokenBefore seq t)

/-- Take token `t` out of its place: its neighbours are joined to each other. -/
def LinkedList.unlink (l : LinkedList) (t : Nat) : LinkedList :=
  let before := (l.prev[t]?).join
  let after := (l.next[t]?).join
  { next := match before with
      | some b => l.next.set b after
      | none => l.next
    prev := match after with
      | some a => l.prev.set a before
      | none => l.prev
    head := if before = none then after else l.head
    tail := if after = none then before else l.tail }

/-- Put an unlinked token `t` at the back. -/
def LinkedList.append (l : LinkedList) (t : Nat) : LinkedList where
  next := match l.tail with
    | some b => (l.next.set b (some t)).set t none
    | none => l.next.set t none
  prev := l.prev.set t l.tail
  head := if l.tail = none then some t else l.head
  tail := some t

/-- `move_to_back(t)` by direct addressing of the token's node (R146, R152). -/
def LinkedList.moveToBack (l : LinkedList) (t : Nat) : LinkedList := (l.unlink t).append t

/-- `front()` is the register `head` (R146, R153). -/
def LinkedList.front (l : LinkedList) : Option Nat := l.head

end Sys2Proof.Machine
end

