-- ==== Sys2Proof/WellFormed.lean ====
section
/-! DEFINITION. Well-formed requests: those with a legal `cmd` and with every must-be-zero field zero
(spec/30_encoding.md R81, R91, R93, R97; the checks of spec/45_access.md R230 that need the request alone).
A request that is not well-formed still decodes and is answered with `BadParameter` (R93). -/

namespace Sys2Proof

/-- `wdata` must be 0 on every request that is not a write (R81, R93). -/
def Instr.zeroWdata (wdata : Word) : Bool := wdata == 0

/-- For a byte write the byte is `wdata[7:0]` and `wdata[31:8]` must be 0 (R81, R93). -/
def Instr.byteWdata (wdata : Word) : Bool := wdata.extractLsb' 8 24 == 0

/-- `vaddr[63:48]` must be zero on an access or XLATE (R85, R93). -/
def Instr.shortVaddr (vaddr : VAddr) : Bool := vaddr.extractLsb' 48 16 == 0

/-- The selector's bits 63:44 must be zero and the array code 8 to 15 is reserved (R97). -/
def Instr.dumpSelector (mbz : BitVec 20) (arr : BitVec 4) : Bool := mbz == 0 && arr.extractLsb' 3 1 == 0

/-- The request breaks no must-be-zero field and is of no illegal or reserved group (R93). -/
def Instr.wellFormed : Instr → Bool
  | .rdbI wdata vaddr => zeroWdata wdata && shortVaddr vaddr
  | .rdwI wdata vaddr => zeroWdata wdata && shortVaddr vaddr
  | .rdbD wdata vaddr => zeroWdata wdata && shortVaddr vaddr
  | .rdwD wdata vaddr => zeroWdata wdata && shortVaddr vaddr
  | .illegalWrI _ _ _ => false
  | .wrbD wdata vaddr => byteWdata wdata && shortVaddr vaddr
  | .wrwD _ vaddr => shortVaddr vaddr
  | .xlate wdata vaddr => zeroWdata wdata && shortVaddr vaddr
  | .dump wdata mbz _ _ arr => zeroWdata wdata && dumpSelector mbz arr
  | .reserved101x _ _ _ => false
  | .reserved11xx _ _ _ => false

end Sys2Proof
end

