-- ==== Sys2Proof/Safety.lean ====
section
/-! DEFINITION. The terms claims about CORE are written in: the well-formed states, the invariants of
spec/10_state.md R31, the duty of spec/70_reset_and_hazards.md R287, and what a request answers, said without
the state it leaves. -/

namespace Sys2Proof.Machine

/-! ### Well-formed states -/

/-- A TLB array of `n` entries whose tags fit in `36 - bits` bits (R26, R28). -/
abbrev tlbArrayWf (n bits : Nat) (arr : List TlbEntry) : Prop :=
  arr.length = n ∧ ∀ e ∈ arr, e.tag.toNat < 2 ^ (36 - bits)

/-- A cache array of the level's size: every age in `0..WAYS-1` (R31 item 4), every tag in `28 - bits` bits (R29). -/
abbrev cacheArrayWf (g : Geometry) (c : CacheArray) : Prop :=
  c.length = 2 ^ g.bits ∧
    ∀ ways ∈ c, ways.length = g.ways ∧ ∀ e ∈ ways, e.age < g.ways ∧ e.tag.toNat < 2 ^ (28 - g.bits)

/-- The TLB state of organisation FA: `TLB_LINES` entries, and `LRU` a permutation of the tokens (R26, R27, R31 item 1);
the other organisation's arrays do not exist. -/
abbrev faTlbWf (s : State) : Prop :=
  tlbArrayWf s.cfg.tlbLines 0 s.tlb ∧ s.lru.Perm (List.range s.cfg.tlbLines) ∧
    s.itlb = [] ∧ s.dtlb = [] ∧ s.tlb2 = []

/-- The TLB state of organisation HIER (R28); the other organisation's arrays do not exist. -/
abbrev hierTlbWf (s : State) : Prop :=
  s.tlb = [] ∧ s.lru = [] ∧
    tlbArrayWf s.cfg.l1TlbLines s.cfg.l1tBits s.itlb ∧ tlbArrayWf s.cfg.l1TlbLines s.cfg.l1tBits s.dtlb ∧
    tlbArrayWf s.cfg.l2TlbLines s.cfg.l2tBits s.tlb2

/-- A state of a CORE: admitted build parameters (R8), memory in its canonical form and inside `MEM_LEN` (R24), the TLB
arrays of the organisation built, and the three cache arrays (R29). -/
abbrev State.wf (s : State) : Prop :=
  s.cfg.valid = true ∧ Memory.wf s.mem ∧ Memory.inside s.mem s.cfg.memLen ∧
    (s.cfg.org = .fa → faTlbWf s) ∧ (s.cfg.org = .hier → hierTlbWf s) ∧
    cacheArrayWf (l1Geometry s.cfg) s.l1i ∧ cacheArrayWf (l1Geometry s.cfg) s.l1d ∧
    cacheArrayWf (l2Geometry s.cfg) s.l2

/-! ### Invariants of the TLB -/

/-- At most one valid entry of `TLB` has a given tag (R31 item 2). -/
abbrev tlbTagsUnique (s : State) : Prop :=
  s.tlb.Pairwise (fun e f => ¬ (e.valid = true ∧ f.valid = true ∧ e.tag = f.tag))

/-- Every translation an L1 TLB holds is held by `TLB2` with the same frame (R31 item 3). -/
def tlbInclusive (s : State) : Prop :=
  ∀ (k : AccessKind) (vpn : Vpn), directHolds s.cfg.l1tBits (s.l1Tlb k) vpn = true →
    directHolds s.cfg.l2tBits s.tlb2 vpn = true ∧
      directPfn s.cfg.l2tBits s.tlb2 vpn = directPfn s.cfg.l1tBits (s.l1Tlb k) vpn

/-- Some TLB array holds the translation of `vpn` to frame `pfn`. -/
def holdsTranslation (s : State) (vpn : Vpn) (pfn : Pfn) : Prop :=
  (∃ e ∈ s.tlb, e.valid = true ∧ e.tag = vpn ∧ e.pfn = pfn) ∨
    (∃ k, directHolds s.cfg.l1tBits (s.l1Tlb k) vpn = true ∧ directPfn s.cfg.l1tBits (s.l1Tlb k) vpn = pfn) ∨
    (directHolds s.cfg.l2tBits s.tlb2 vpn = true ∧ directPfn s.cfg.l2tBits s.tlb2 vpn = pfn)

/-- No translation is stale: what a TLB array holds is what the walk of the current page tables answers (the duty
of R286). -/
def tlbFaithful (s : State) : Prop :=
  ∀ (a : VirtualAddress) (pfn : Pfn), holdsTranslation s (virtualPageNumber a) pfn →
    walk s.cfg.memLen s.mem a = .ok { pfn := pfn, offset := a.offset }

/-! ### Invariants of the caches -/

/-- Way `w` of the set of `paddr` is valid, has the tag of `paddr` and holds `line` (R191). -/
def holdsLine (g : Geometry) (c : CacheArray) (paddr : PAddr) (w : Nat) (line : Line) : Prop :=
  ∃ e, (cacheSet c (lineIndex g paddr))[w]? = some e ∧ e.valid = true ∧ e.tag = cacheTag g paddr ∧ e.words = line

/-- Within one set at most one valid way has a given tag (R31 item 7). -/
def linesUnique (g : Geometry) (c : CacheArray) : Prop :=
  ∀ (paddr : PAddr) (w w' : Nat) (line line' : Line),
    holdsLine g c paddr w line → holdsLine g c paddr w' line' → w = w'

/-- Every line an array holds lies inside memory and equals memory (R31 item 5). -/
def linesMatchMemory (g : Geometry) (c : CacheArray) (m : Memory) (memLen : Nat) : Prop :=
  ∀ (paddr : PAddr) (w : Nat) (line : Line), holdsLine g c paddr w line →
    lineBase paddr + 16 ≤ memLen ∧ line = memReadLine m (lineBase paddr)

/-- `L1k` and `L2` never both hold a line (R31 item 6). -/
def linesExclusive (g1 g2 : Geometry) (c1 c2 : CacheArray) : Prop :=
  ∀ (paddr : PAddr) (w w' : Nat) (line line' : Line), holdsLine g1 c1 paddr w line → ¬ holdsLine g2 c2 paddr w' line'

/-- The duty of R287 as a classification of the physical lines: `isCode n` says that line number `n` is accessed with
kind instruction only, otherwise it is accessed with kind data only. -/
abbrev LineClass := Nat → Bool

/-- The invariants 5, 6 and 7 of R31 under their proviso: `L1I` holds lines of the instruction class, `L1D` of the data
class, every held line equals memory, no line is in an L1 and in `L2`, no line is in two ways. -/
def cachesCoherent (isCode : LineClass) (s : State) : Prop :=
  (∀ paddr w line, holdsLine (l1Geometry s.cfg) s.l1i paddr w line → isCode (paddr.toNat / 16) = true) ∧
    (∀ paddr w line, holdsLine (l1Geometry s.cfg) s.l1d paddr w line → isCode (paddr.toNat / 16) = false) ∧
    linesMatchMemory (l1Geometry s.cfg) s.l1i s.mem s.cfg.memLen ∧
    linesMatchMemory (l1Geometry s.cfg) s.l1d s.mem s.cfg.memLen ∧
    linesMatchMemory (l2Geometry s.cfg) s.l2 s.mem s.cfg.memLen ∧
    linesExclusive (l1Geometry s.cfg) (l2Geometry s.cfg) s.l1i s.l2 ∧
    linesExclusive (l1Geometry s.cfg) (l2Geometry s.cfg) s.l1d s.l2 ∧
    linesUnique (l1Geometry s.cfg) s.l1i ∧ linesUnique (l1Geometry s.cfg) s.l1d ∧ linesUnique (l2Geometry s.cfg) s.l2

/-! ### What a request asks and answers -/

/-- The kind and the virtual address of the six access requests (R239); none for the others. -/
def accessOf : Instr → Option (AccessKind × VAddr)
  | .rdbI _ vaddr => some (.instruction, vaddr)
  | .rdwI _ vaddr => some (.instruction, vaddr)
  | .rdbD _ vaddr => some (.data, vaddr)
  | .rdwD _ vaddr => some (.data, vaddr)
  | .wrbD _ vaddr => some (.data, vaddr)
  | .wrwD _ vaddr => some (.data, vaddr)
  | .illegalWrI _ _ _ => none
  | .xlate _ _ => none
  | .dump _ _ _ _ _ => none
  | .reserved101x _ _ _ => none
  | .reserved11xx _ _ _ => none

/-- The request is a write (R82, R235, R236). -/
def isWrite : Instr → Bool
  | .wrbD _ _ => true
  | .wrwD _ _ => true
  | .rdbI _ _ => false
  | .rdwI _ _ => false
  | .rdbD _ _ => false
  | .rdwD _ _ => false
  | .illegalWrI _ _ _ => false
  | .xlate _ _ => false
  | .dump _ _ _ _ _ => false
  | .reserved101x _ _ _ => false
  | .reserved11xx _ _ _ => false

/-- The request reaches, in this state, only a physical line of its own kind's class (the duty of R287). -/
def obeysSeparation (isCode : LineClass) (s : State) (i : Instr) : Prop :=
  ∀ (k : AccessKind) (vaddr : VAddr) (a : VirtualAddress) (r : Translated),
    accessOf i = some (k, vaddr) → decomposeVirtual vaddr = .ok a → tlbService s a k = .ok r →
      isCode ((composePhysical r.phys).toNat / 16) = decide (k = .instruction)

/-- The physical address a request of kind `k` reaches: `tlb_lookup` first, the walk on a miss (R160). -/
def translation (s : State) (k : AccessKind) (a : VirtualAddress) : Except ErrorKind PhysicalAddress :=
  if (tlbLookup s (virtualPageNumber a) k).1 then
    .ok { pfn := (tlbLookup s (virtualPageNumber a) k).2, offset := a.offset }
  else walk s.cfg.memLen s.mem a

/-- The line that serves a read of `paddr` with kind `k` and the level it comes from (R201 to R203). -/
def lineServed (s : State) (k : AccessKind) (paddr : PAddr) : Except ErrorKind (HitLevel × Line) :=
  match cacheProbe (l1Geometry s.cfg) (s.l1 k) paddr with
  | some w => .ok (.l1, lineHeld (l1Geometry s.cfg) (s.l1 k) paddr w)
  | none =>
    match cacheProbe (l2Geometry s.cfg) s.l2 paddr with
    | some w => .ok (.l2, lineHeld (l2Geometry s.cfg) s.l2 paddr w)
    | none =>
      if s.cfg.memLen < lineBase paddr + 16 then .error .outOfBounds
      else .ok (.mem, memReadLine s.mem (lineBase paddr))

/-- `RDW.I` or `RDW.D` by the kind. -/
def readWordRequest (k : AccessKind) (vaddr : VAddr) : Instr :=
  match k with
  | .instruction => .rdwI 0 vaddr
  | .data => .rdwD 0 vaddr

/-- `RDB.I` or `RDB.D` by the kind. -/
def readByteRequest (k : AccessKind) (vaddr : VAddr) : Instr :=
  match k with
  | .instruction => .rdbI 0 vaddr
  | .data => .rdbD 0 vaddr

/-- The other access kind. -/
def AccessKind.other : AccessKind → AccessKind
  | .instruction => .data
  | .data => .instruction

/-! ### What an access leaves in the caches -/

/-- No valid way of the set of `paddr` has its tag (R191). -/
abbrev noMatch (g : Geometry) (c : CacheArray) (paddr : PAddr) : Prop :=
  ∀ e ∈ cacheSet c (lineIndex g paddr), e.valid = true → e.tag ≠ cacheTag g paddr

/-- Way `w`, with entry `e`, is the lowest valid way of the set of `paddr` that has its tag (R191). -/
def firstMatch (g : Geometry) (c : CacheArray) (paddr : PAddr) (w : Nat) (e : CacheEntry) : Prop :=
  (cacheSet c (lineIndex g paddr))[w]? = some e ∧ e.valid = true ∧ e.tag = cacheTag g paddr ∧
    ∀ (u : Nat) (f : CacheEntry), u < w → (cacheSet c (lineIndex g paddr))[u]? = some f → f.valid = true →
      f.tag ≠ cacheTag g paddr

/-- The line as the request leaves it in L1: with the word, or the word with its one byte merged in, of a write (R207, R208,
R211, R219), as it was for every other request. -/
def storedLine (i : Instr) (paddr : PAddr) (line : Line) : Line :=
  match i with
  | .wrwD v _ => line.put (wordSelect paddr) v
  | .wrbD v _ => line.put (wordSelect paddr) (mergeByte (line.get (wordSelect paddr)) (v.extractLsb' 0 8) paddr)
  | .rdbI _ _ => line
  | .rdwI _ _ => line
  | .rdbD _ _ => line
  | .rdwD _ _ => line
  | .illegalWrI _ _ _ => line
  | .xlate _ _ => line
  | .dump _ _ _ _ _ => line
  | .reserved101x _ _ _ => line
  | .reserved11xx _ _ _ => line

/-- The words that stay in the `L2` way a request migrates its line from: a word write stores in place before the line
moves (R208), the read half of a byte write moves it first (R219). -/
def lineLeftBehind (i : Instr) (paddr : PAddr) (line : Line) : Line :=
  match i with
  | .wrwD v _ => line.put (wordSelect paddr) v
  | .wrbD _ _ => line
  | .rdbI _ _ => line
  | .rdwI _ _ => line
  | .rdbD _ _ => line
  | .rdwD _ _ => line
  | .illegalWrI _ _ _ => line
  | .xlate _ _ => line
  | .dump _ _ _ _ _ => line
  | .reserved101x _ _ _ => line
  | .reserved11xx _ _ _ => line

/-- `L2` after it takes the line an L1 install displaced, if any; its own victim is discarded (R197, R198). -/
def takeVictim (g : Geometry) (c : CacheArray) (v : Option Victim) : CacheArray :=
  match v with
  | none => c
  | some v => (cacheInstall g c v.addr v.line).1

/-! ### Agreement of states -/

/-- `t` differs from `s` in TLB state at most. -/
abbrev sameButTlb (s t : State) : Prop :=
  t.cfg = s.cfg ∧ t.mem = s.mem ∧ t.l1i = s.l1i ∧ t.l1d = s.l1d ∧ t.l2 = s.l2 ∧ t.requests = s.requests ∧
    t.response = s.response

/-- `t` has the TLB state of `s`. -/
abbrev sameTlb (s t : State) : Prop :=
  t.tlb = s.tlb ∧ t.lru = s.lru ∧ t.itlb = s.itlb ∧ t.dtlb = s.dtlb ∧ t.tlb2 = s.tlb2

/-- Two machines, of either organisation, that agree on everything below the TLB: memory, the cache sizes, the caches
(R171, R293). -/
abbrev sameBelowTlb (s t : State) : Prop :=
  t.cfg.memLen = s.cfg.memLen ∧ l1Geometry t.cfg = l1Geometry s.cfg ∧ l2Geometry t.cfg = l2Geometry s.cfg ∧
    t.mem = s.mem ∧ t.l1i = s.l1i ∧ t.l1d = s.l1d ∧ t.l2 = s.l2

/-- A response without its `tlb_hit`: what a claim that holds for both organisations is stated over (R293). -/
def State.answer (s : State) : Option (Status × HitLevel × Word) :=
  s.response.map (fun r => (r.status, r.level, r.data))

/-- The status of the response. -/
def State.status (s : State) : Option Status := s.response.map Response.status

/-! ### Safe runs -/

/-- Every run of this state, of any number of steps, answers a next state: CORE has no fatal abort path (R250). -/
def runsSafely (s : State) : Prop := ∀ n, ∃ t, Host.Core.run Sys2Proof.core n s = Host.Outcome.next t

end Sys2Proof.Machine
end

