-- ==== Sys2Proof/Laws/Cache.lean ====
section
/-! SUPPORT. What the cache operations can do: one inversion lemma per operation, and the frames they share. -/

namespace Sys2Proof.Machine

/-! ### Sets -/

/-- A set that is not the one replaced. -/
theorem cacheSet_putSet_of_ne (g : Geometry) (c : CacheArray) (paddr : PAddr) (ways : List CacheEntry) (i : Nat)
    (h : i ≠ lineIndex g paddr) : cacheSet (putSet g c paddr ways) i = cacheSet c i := by
  simp [cacheSet, putSet, List.getD_eq_getElem?_getD, List.getElem?_set_ne (Ne.symm h)]

/-- The set replaced, where the array has it. -/
theorem cacheSet_putSet_self (g : Geometry) (c : CacheArray) (paddr : PAddr) (ways : List CacheEntry)
    (h : lineIndex g paddr < c.length) : cacheSet (putSet g c paddr ways) (lineIndex g paddr) = ways := by
  simp [cacheSet, putSet, List.getD_eq_getElem?_getD, h]

/-- The number of sets never changes. -/
@[simp] theorem putSet_length (g : Geometry) (c : CacheArray) (paddr : PAddr) (ways : List CacheEntry) :
    (putSet g c paddr ways).length = c.length := by simp [putSet]

/-- The number of ways never changes: ageing. -/
@[simp] theorem ageOnHit_length (ways : Nat) (set : List CacheEntry) (w : Nat) :
    (ageOnHit ways set w).length = set.length := by simp [ageOnHit]

/-- The number of ways never changes: cold-fill. -/
@[simp] theorem coldFill_length (ways : Nat) (set : List CacheEntry) (w : Nat) (tag : BitVec 32) (line : Line) :
    (coldFill ways set w tag line).length = set.length := by simp [coldFill]

/-- The number of ways never changes: eviction. -/
@[simp] theorem evictFill_length (ways : Nat) (set : List CacheEntry) (w : Nat) (tag : BitVec 32) (line : Line) :
    (evictFill ways set w tag line).length = set.length := by simp [evictFill]

/-- The line index of a geometry is one of its sets. -/
theorem lineIndex_lt (g : Geometry) (paddr : PAddr) : lineIndex g paddr < 2 ^ g.bits :=
  Nat.mod_lt _ (Nat.two_pow_pos _)

/-! ### Lookup and install -/

/-- What a lookup can do: miss and change nothing, or find the first matching way and age its set. -/
theorem cacheLookup_cases (g : Geometry) (c : CacheArray) (paddr : PAddr) :
    (cacheProbe g c paddr = none ∧ cacheLookup g c paddr = none) ∨
      ∃ w, cacheProbe g c paddr = some w ∧
        cacheLookup g c paddr =
          some (w, putSet g c paddr (ageOnHit g.ways (cacheSet c (lineIndex g paddr)) w)) := by
  unfold cacheLookup
  cases cacheProbe g c paddr with
  | none => exact .inl ⟨rfl, rfl⟩
  | some w => exact .inr ⟨w, rfl, rfl⟩

/-- What a probe's answer says: the way is valid, has the tag, and no lower way does. -/
theorem cacheProbe_eq_some (g : Geometry) (c : CacheArray) (paddr : PAddr) (w : Nat) :
    cacheProbe g c paddr = some w ↔
      ∃ h : w < (cacheSet c (lineIndex g paddr)).length,
        CacheEntry.matchesTag (cacheTag g paddr) (cacheSet c (lineIndex g paddr))[w] = true ∧
          ∀ (j : Nat) (hj : j < w), ¬ CacheEntry.matchesTag (cacheTag g paddr)
            (cacheSet c (lineIndex g paddr))[j] = true := by
  unfold cacheProbe
  exact List.findIdx?_eq_some_iff_getElem

/-- The probe of a set with a first matching way. -/
theorem firstMatch.cacheProbe_eq {g : Geometry} {c : CacheArray} {paddr : PAddr} {w : Nat} {e : CacheEntry}
    (h : firstMatch g c paddr w e) :
    cacheProbe g c paddr = some w ∧ wayAt (cacheSet c (lineIndex g paddr)) w = e := by
  obtain ⟨hw, hv, ht, hf⟩ := h
  obtain ⟨hl, he⟩ := List.getElem?_eq_some_iff.1 hw
  refine ⟨(cacheProbe_eq_some _ _ _ _).2 ⟨hl, by simp [he, CacheEntry.matchesTag, hv, ht], fun j hj hm => ?_⟩,
    by simp [wayAt, List.getD_eq_getElem?_getD, hw]⟩
  simp only [CacheEntry.matchesTag, Bool.and_eq_true, beq_iff_eq] at hm
  exact hf j _ hj (List.getElem?_eq_getElem (Nat.lt_trans hj hl)) hm.1 hm.2

/-- The probe of a set misses exactly when no valid way has the tag. -/
theorem cacheProbe_eq_none (g : Geometry) (c : CacheArray) (paddr : PAddr) :
    cacheProbe g c paddr = none ↔ noMatch g c paddr := by
  simp [cacheProbe, List.findIdx?_eq_none_iff, noMatch, CacheEntry.matchesTag]

/-- What an install can do: cold-fill a free way, or overwrite the oldest way and give its line as the victim. -/
theorem cacheInstall_cases (g : Geometry) (c : CacheArray) (paddr : PAddr) (line : Line) :
    (∃ w, freeWay (cacheSet c (lineIndex g paddr)) = some w ∧
      cacheInstall g c paddr line =
        (putSet g c paddr (coldFill g.ways (cacheSet c (lineIndex g paddr)) w (cacheTag g paddr) line), none)) ∨
      (freeWay (cacheSet c (lineIndex g paddr)) = none ∧
        cacheInstall g c paddr line =
          (putSet g c paddr (evictFill g.ways (cacheSet c (lineIndex g paddr))
              (oldestWay (cacheSet c (lineIndex g paddr))) (cacheTag g paddr) line),
            some { addr := lineAddress g (lineIndex g paddr)
                      (wayAt (cacheSet c (lineIndex g paddr)) (oldestWay (cacheSet c (lineIndex g paddr)))).tag
                   line := (wayAt (cacheSet c (lineIndex g paddr))
                      (oldestWay (cacheSet c (lineIndex g paddr)))).words })) := by
  unfold cacheInstall
  cases h : freeWay (cacheSet c (lineIndex g paddr)) with
  | some w => exact .inl ⟨w, rfl, by simp [h]⟩
  | none => exact .inr ⟨rfl, by simp [h]⟩

/-- An install changes the set of its address only. -/
theorem cacheSet_cacheInstall_of_ne (g : Geometry) (c : CacheArray) (paddr : PAddr) (line : Line) (i : Nat)
    (h : i ≠ lineIndex g paddr) : cacheSet (cacheInstall g c paddr line).1 i = cacheSet c i := by
  rcases cacheInstall_cases g c paddr line with ⟨w, -, hc⟩ | ⟨-, hc⟩ <;>
    simp [hc, cacheSet_putSet_of_ne g c paddr _ i h]

/-- An install keeps the number of sets. -/
theorem cacheInstall_length (g : Geometry) (c : CacheArray) (paddr : PAddr) (line : Line) :
    (cacheInstall g c paddr line).1.length = c.length := by
  rcases cacheInstall_cases g c paddr line with ⟨w, -, hc⟩ | ⟨-, hc⟩ <;> simp [hc]

/-! ### Moves between levels -/

/-- What passing a victim on can do. -/
theorem installVictim_cases (s : State) (v : Option Victim) :
    (v = none ∧ installVictim s v = s) ∨
      ∃ u, v = some u ∧
        installVictim s v = { s with l2 := (cacheInstall (l2Geometry s.cfg) s.l2 u.addr u.line).1 } := by
  cases v with
  | none => exact .inl ⟨rfl, rfl⟩
  | some u => exact .inr ⟨u, rfl, rfl⟩

/-- What `fill_l1` leaves: the L1 array of the kind is the install's, `L2` takes the victim if there is one, nothing else
changes. -/
theorem fillL1_frame (s : State) (k : AccessKind) (paddr : PAddr) (line : Line) :
    (fillL1 s k paddr line).l1 k = (cacheInstall (l1Geometry s.cfg) (s.l1 k) paddr line).1 ∧
      (fillL1 s k paddr line).l1 k.other = s.l1 k.other ∧
      (fillL1 s k paddr line).l2 =
        (match (cacheInstall (l1Geometry s.cfg) (s.l1 k) paddr line).2 with
          | none => s.l2
          | some v => (cacheInstall (l2Geometry s.cfg) s.l2 v.addr v.line).1) ∧
      (fillL1 s k paddr line).cfg = s.cfg ∧ (fillL1 s k paddr line).mem = s.mem ∧
      sameTlb s (fillL1 s k paddr line) ∧ (fillL1 s k paddr line).requests = s.requests ∧
      (fillL1 s k paddr line).response = s.response := by
  unfold fillL1
  rcases installVictim_cases (s.setL1 k (cacheInstall (l1Geometry s.cfg) (s.l1 k) paddr line).1)
    (cacheInstall (l1Geometry s.cfg) (s.l1 k) paddr line).2 with ⟨hv, h⟩ | ⟨u, hv, h⟩ <;>
    rw [h, hv] <;> cases k <;> simp [AccessKind.other, sameTlb]

/-- `L2` after a fill takes the line the L1 install displaced. -/
theorem fillL1_l2 (s : State) (k : AccessKind) (paddr : PAddr) (line : Line) :
    (fillL1 s k paddr line).l2 =
      takeVictim (l2Geometry s.cfg) s.l2 (cacheInstall (l1Geometry s.cfg) (s.l1 k) paddr line).2 :=
  (fillL1_frame s k paddr line).2.2.1

/-- `migrate` is a fill of the L1 array after the L2 way is invalidated; what it leaves alone. -/
theorem migrate_frame (s : State) (k : AccessKind) (paddr : PAddr) (w : Nat) :
    (migrate s k paddr w).l1 k = (cacheInstall (l1Geometry s.cfg) (s.l1 k) paddr
        (lineHeld (l2Geometry s.cfg) s.l2 paddr w)).1 ∧
      (migrate s k paddr w).l1 k.other = s.l1 k.other ∧ (migrate s k paddr w).cfg = s.cfg ∧
      (migrate s k paddr w).mem = s.mem ∧ sameTlb s (migrate s k paddr w) ∧
      (migrate s k paddr w).requests = s.requests ∧ (migrate s k paddr w).response = s.response := by
  have h := fillL1_frame { s with l2 := invalidateWay (l2Geometry s.cfg) s.l2 paddr w } k paddr
    (lineHeld (l2Geometry s.cfg) s.l2 paddr w)
  unfold migrate
  cases k <;> simp_all [AccessKind.other, sameTlb]

/-! ### Word and byte operations -/

/-- What a read that missed both levels can do. -/
theorem readMiss_eq_ok (s : State) (paddr : PAddr) (k : AccessKind) (c : Served) :
    readMiss s paddr k = .ok c ↔
      lineBase paddr + 16 ≤ s.cfg.memLen ∧
        c = { data := (memReadLine s.mem (lineBase paddr)).get (wordSelect paddr)
              level := .mem
              state := fillL1 s k paddr (memReadLine s.mem (lineBase paddr)) } := by
  unfold readMiss
  split
  · next h => simp [Nat.not_le.2 h]
  · next h => simp [Nat.not_lt.1 h, eq_comm]

/-- What a word read can do when it answers: hit in the L1 array, hit in L2 and migrate, or fill from memory. -/
theorem cacheReadWord_cases (s : State) (paddr : PAddr) (k : AccessKind) (c : Served)
    (h : cacheReadWord s paddr k = .ok c) :
    paddr.toNat % 4 = 0 ∧
      ((∃ w, cacheProbe (l1Geometry s.cfg) (s.l1 k) paddr = some w ∧
        c = { data := (lineHeld (l1Geometry s.cfg) (s.l1 k) paddr w).get (wordSelect paddr)
              level := .l1
              state := s.setL1 k (putSet (l1Geometry s.cfg) (s.l1 k) paddr (ageOnHit (l1Geometry s.cfg).ways
                (cacheSet (s.l1 k) (lineIndex (l1Geometry s.cfg) paddr)) w)) }) ∨
      (∃ w2, cacheProbe (l1Geometry s.cfg) (s.l1 k) paddr = none ∧
        cacheProbe (l2Geometry s.cfg) s.l2 paddr = some w2 ∧
        c = { data := (lineHeld (l2Geometry s.cfg) s.l2 paddr w2).get (wordSelect paddr)
              level := .l2
              state := migrate { s with l2 := putSet (l2Geometry s.cfg) s.l2 paddr (ageOnHit (l2Geometry s.cfg).ways
                (cacheSet s.l2 (lineIndex (l2Geometry s.cfg) paddr)) w2) } k paddr w2 }) ∨
      (cacheProbe (l1Geometry s.cfg) (s.l1 k) paddr = none ∧ cacheProbe (l2Geometry s.cfg) s.l2 paddr = none ∧
        lineBase paddr + 16 ≤ s.cfg.memLen ∧
        c = { data := (memReadLine s.mem (lineBase paddr)).get (wordSelect paddr)
              level := .mem
              state := fillL1 s k paddr (memReadLine s.mem (lineBase paddr)) })) := by
  unfold cacheReadWord at h
  split at h
  · simp at h
  · next ha =>
    refine ⟨by simpa using ha, ?_⟩
    rcases cacheLookup_cases (l1Geometry s.cfg) (s.l1 k) paddr with ⟨hp, hl⟩ | ⟨w, hp, hl⟩ <;> rw [hl] at h
    · rcases cacheLookup_cases (l2Geometry s.cfg) s.l2 paddr with ⟨hp2, hl2⟩ | ⟨w2, hp2, hl2⟩ <;> rw [hl2] at h
      · exact .inr (.inr ⟨hp, hp2, (readMiss_eq_ok _ _ _ _).1 h⟩)
      · exact .inr (.inl ⟨w2, hp, hp2, by simpa using h.symm⟩)
    · exact .inl ⟨w, hp, by simpa using h.symm⟩

/-- A word read never writes `MEM`, TLB state, the other L1 array, or the ports. -/
theorem cacheReadWord_frame (s : State) (paddr : PAddr) (k : AccessKind) (c : Served)
    (h : cacheReadWord s paddr k = .ok c) :
    c.state.cfg = s.cfg ∧ c.state.mem = s.mem ∧ c.state.l1 k.other = s.l1 k.other ∧ sameTlb s c.state ∧
      c.state.requests = s.requests ∧ c.state.response = s.response := by
  rcases (cacheReadWord_cases s paddr k c h).2 with ⟨w, -, rfl⟩ | ⟨w2, -, -, rfl⟩ | ⟨-, -, -, rfl⟩
  · cases k <;> simp [AccessKind.other, sameTlb]
  · have hm := migrate_frame { s with l2 := putSet (l2Geometry s.cfg) s.l2 paddr (ageOnHit (l2Geometry s.cfg).ways
      (cacheSet s.l2 (lineIndex (l2Geometry s.cfg) paddr)) w2) } k paddr w2
    cases k <;> simp_all [AccessKind.other, sameTlb]
  · have hf := fillL1_frame s k paddr (memReadLine s.mem (lineBase paddr))
    exact ⟨hf.2.2.2.1, hf.2.2.2.2.1, hf.2.1, hf.2.2.2.2.2.1, hf.2.2.2.2.2.2.1, hf.2.2.2.2.2.2.2⟩

/-- What a write that missed both levels can do. -/
theorem writeMiss_eq_ok (s : State) (paddr : PAddr) (v : Word) (c : Served) :
    writeMiss s paddr v = .ok c ↔
      lineBase paddr + 16 ≤ s.cfg.memLen ∧
        ∃ line, line = (memReadLine s.mem (lineBase paddr)).put (wordSelect paddr) v ∧
          c = { data := 0
                level := .mem
                state := fillL1 { s with mem := memWriteLine s.mem (lineBase paddr) line } .data paddr line } := by
  unfold writeMiss
  split
  · next h => simp [Nat.not_le.2 h]
  · next h => simp [Nat.not_lt.1 h, eq_comm]

/-- What a word write can do when it answers: hit in `L1D`, hit in `L2` and migrate, or allocate from memory. -/
theorem cacheWriteWord_cases (s : State) (paddr : PAddr) (v : Word) (c : Served) (h : cacheWriteWord s paddr v = .ok c) :
    paddr.toNat % 4 = 0 ∧ paddr.toNat + 4 ≤ s.cfg.memLen ∧
      ((∃ w, cacheProbe (l1Geometry s.cfg) s.l1d paddr = some w ∧
        c = { data := 0
              level := .l1
              state := { s with
                l1d := storeWord (l1Geometry s.cfg) (putSet (l1Geometry s.cfg) s.l1d paddr
                  (ageOnHit (l1Geometry s.cfg).ways (cacheSet s.l1d (lineIndex (l1Geometry s.cfg) paddr)) w)) paddr w v
                mem := memWrite s.mem paddr.toNat v } }) ∨
      (∃ w2, cacheProbe (l1Geometry s.cfg) s.l1d paddr = none ∧ cacheProbe (l2Geometry s.cfg) s.l2 paddr = some w2 ∧
        c = { data := 0
              level := .l2
              state := migrate { s with
                l2 := storeWord (l2Geometry s.cfg) (putSet (l2Geometry s.cfg) s.l2 paddr
                  (ageOnHit (l2Geometry s.cfg).ways (cacheSet s.l2 (lineIndex (l2Geometry s.cfg) paddr)) w2)) paddr w2 v
                mem := memWrite s.mem paddr.toNat v } .data paddr w2 }) ∨
      (cacheProbe (l1Geometry s.cfg) s.l1d paddr = none ∧ cacheProbe (l2Geometry s.cfg) s.l2 paddr = none ∧
        lineBase paddr + 16 ≤ s.cfg.memLen ∧
        ∃ line, line = (memReadLine s.mem (lineBase paddr)).put (wordSelect paddr) v ∧
          c = { data := 0
                level := .mem
                state := fillL1 { s with mem := memWriteLine s.mem (lineBase paddr) line } .data paddr line })) := by
  unfold cacheWriteWord at h
  split at h
  · simp at h
  · next ha =>
    split at h
    · simp at h
    · next hb =>
      refine ⟨by simpa using ha, Nat.not_lt.1 hb, ?_⟩
      rcases cacheLookup_cases (l1Geometry s.cfg) s.l1d paddr with ⟨hp, hl⟩ | ⟨w, hp, hl⟩ <;> rw [hl] at h
      · rcases cacheLookup_cases (l2Geometry s.cfg) s.l2 paddr with ⟨hp2, hl2⟩ | ⟨w2, hp2, hl2⟩ <;> rw [hl2] at h
        · exact .inr (.inr ⟨hp, hp2, (writeMiss_eq_ok _ _ _ _).1 h⟩)
        · exact .inr (.inl ⟨w2, hp, hp2, by simpa using h.symm⟩)
      · exact .inl ⟨w, hp, by simpa using h.symm⟩

/-- A word write never touches `L1I`, TLB state or the ports. -/
theorem cacheWriteWord_frame (s : State) (paddr : PAddr) (v : Word) (c : Served) (h : cacheWriteWord s paddr v = .ok c) :
    c.state.cfg = s.cfg ∧ c.state.l1i = s.l1i ∧ sameTlb s c.state ∧ c.state.requests = s.requests ∧
      c.state.response = s.response := by
  rcases (cacheWriteWord_cases s paddr v c h).2.2 with ⟨w, -, rfl⟩ | ⟨w2, -, -, rfl⟩ | ⟨-, -, -, line, -, rfl⟩
  · simp [sameTlb]
  · have hm := migrate_frame { s with
      l2 := storeWord (l2Geometry s.cfg) (putSet (l2Geometry s.cfg) s.l2 paddr
        (ageOnHit (l2Geometry s.cfg).ways (cacheSet s.l2 (lineIndex (l2Geometry s.cfg) paddr)) w2)) paddr w2 v
      mem := memWrite s.mem paddr.toNat v } .data paddr w2
    simp_all [AccessKind.other, sameTlb]
  · have hf := fillL1_frame { s with mem := memWriteLine s.mem (lineBase paddr) line } .data paddr line
    simp_all [AccessKind.other, sameTlb]

/-- A byte read is a word read of the containing word. -/
theorem cacheReadByte_eq_ok (s : State) (paddr : PAddr) (k : AccessKind) (c : Served) :
    cacheReadByte s paddr k = .ok c ↔
      ∃ r, cacheReadWord s (wordAligned paddr) k = .ok r ∧
        c = { data := byteOf r.data paddr, level := r.level, state := r.state } := by
  unfold cacheReadByte
  cases cacheReadWord s (wordAligned paddr) k <;> simp [eq_comm]

/-- A byte write is a data word read and then a word write of the merged word. -/
theorem cacheWriteByte_eq_ok (s : State) (paddr : PAddr) (byte : Byte) (c : Served) :
    cacheWriteByte s paddr byte = .ok c ↔
      ∃ r w, cacheReadWord s (wordAligned paddr) .data = .ok r ∧
        cacheWriteWord r.state (wordAligned paddr) (mergeByte r.data byte paddr) = .ok w ∧
        c = { data := 0, level := r.level, state := w.state } := by
  unfold cacheWriteByte
  cases h : cacheReadWord s (wordAligned paddr) .data with
  | error e => simp
  | ok r =>
    cases hw : cacheWriteWord r.state (wordAligned paddr) (mergeByte r.data byte paddr) <;> simp [hw, eq_comm]

end Sys2Proof.Machine
end

