-- ==== Sys2Proof/Laws/Tlb.lean ====
section
/-! SUPPORT. What the TLB operations can do: one inversion lemma per operation, and the frame of `tlb_service`. -/

namespace Sys2Proof.Machine

/-! ### Walker -/

/-- A walk answers from `MEM` and the address alone: its four entry reads, then the frame base with the offset. -/
theorem walk_eq_ok (memLen : Nat) (m : Memory) (a : VirtualAddress) (p : PhysicalAddress) :
    walk memLen m a = .ok p ↔
      ∃ base, walkLevels memLen m (walkIndices a) 0 = .ok base ∧ physicalFromBase base a.offset = .ok p := by
  unfold walk
  cases walkLevels memLen m (walkIndices a) 0 <;> simp

/-- One level of a walk. -/
theorem walkLevels_cons (memLen : Nat) (m : Memory) (index : BitVec 9) (rest : List (BitVec 9)) (base : Word) :
    walkLevels memLen m (index :: rest) base =
      if memLen < entryOffset base index + 4 then .error .outOfBounds
      else walkLevels memLen m rest (memRead m (entryOffset base index)) := rfl

/-- A level raises nothing but `OutOfBounds`. -/
theorem walkLevels_error (memLen : Nat) (m : Memory) (l : List (BitVec 9)) (base : Word) (e : ErrorKind)
    (h : walkLevels memLen m l base = .error e) : e = .outOfBounds := by
  induction l generalizing base with
  | nil => simp [walkLevels] at h
  | cons index rest ih =>
    rw [walkLevels_cons] at h
    split at h
    · simpa using h.symm
    · exact ih _ h

/-- A frame base with an offset: page-aligned, the frame number its upper bits. -/
theorem physicalFromBase_eq_ok (base : Word) (offset : BitVec 12) (p : PhysicalAddress) :
    physicalFromBase base offset = .ok p ↔
      base.toNat % 4096 = 0 ∧ p = { pfn := BitVec.ofNat 20 (base.toNat / 4096), offset := offset } := by
  have hb : base.toNat < 2 ^ 32 := base.isLt
  have ho : offset.toNat < 2 ^ 12 := offset.isLt
  unfold physicalFromBase makePhysical
  by_cases h : base.toNat % 4096 = 0
  · have h1 : ¬ (2 ^ 20 ≤ base.toNat / 4096 ∨ 4096 ≤ offset.toNat) := by omega
    rw [if_neg (by simp [h]), if_neg h1]
    simp [h, eq_comm (a := p)]
  · simp [h]

/-- The offset of a walk's result is the address's (R135). -/
theorem walk_offset (memLen : Nat) (m : Memory) (a : VirtualAddress) (p : PhysicalAddress)
    (h : walk memLen m a = .ok p) : p.offset = a.offset := by
  obtain ⟨base, -, hp⟩ := (walk_eq_ok _ _ _ _).1 h
  rw [((physicalFromBase_eq_ok _ _ _).1 hp).2]

/-! ### Installs -/

/-- What the fully-associative install can do. -/
theorem faInstall_cases (s : State) (vpn : Vpn) (pfn : Pfn) :
    (s.lru = [] ∧ faInstall s vpn pfn = s) ∨
      ∃ t rest, s.lru = t :: rest ∧
        faInstall s vpn pfn = { s with tlb := s.tlb.set t (TlbEntry.installed vpn pfn), lru := rest ++ [t] } := by
  unfold faInstall front
  cases h : s.lru with
  | nil => exact .inl ⟨rfl, by simp⟩
  | cons t rest => exact .inr ⟨t, rest, rfl, by simp [moveToBack]⟩

/-- The install touches `TLB` and `LRU` only. -/
theorem faInstall_sameButTlb (s : State) (vpn : Vpn) (pfn : Pfn) : sameButTlb s (faInstall s vpn pfn) := by
  rcases faInstall_cases s vpn pfn with ⟨-, h⟩ | ⟨t, rest, -, h⟩ <;> simp [h, sameButTlb]

/-- What the supersession can do: nothing, or drop the VPN that `TLB2` held at the index from both L1 arrays. -/
theorem hierSupersede_cases (s : State) (vpn : Vpn) :
    ((tlbEntryAt s.tlb2 (directIndex s.cfg.l2tBits vpn)).valid = false ∧ hierSupersede s vpn = s) ∨
      ((tlbEntryAt s.tlb2 (directIndex s.cfg.l2tBits vpn)).valid = true ∧
        ∃ oldVpn, oldVpn = directVpn s.cfg.l2tBits (tlbEntryAt s.tlb2 (directIndex s.cfg.l2tBits vpn)).tag
            (directIndex s.cfg.l2tBits vpn) ∧
          hierSupersede s vpn =
            { s with itlb := directDrop s.cfg.l1tBits s.itlb oldVpn
                     dtlb := directDrop s.cfg.l1tBits s.dtlb oldVpn }) := by
  unfold hierSupersede
  cases h : (tlbEntryAt s.tlb2 (directIndex s.cfg.l2tBits vpn)).valid
  · exact .inl ⟨rfl, by simp [h]⟩
  · exact .inr ⟨rfl, _, rfl, by simp [h]⟩

/-- The supersession leaves the eviction list and `TLB2` alone, and everything that is no TLB. -/
theorem hierSupersede_frame (s : State) (vpn : Vpn) :
    sameButTlb s (hierSupersede s vpn) ∧ (hierSupersede s vpn).tlb2 = s.tlb2 ∧
      (hierSupersede s vpn).tlb = s.tlb ∧ (hierSupersede s vpn).lru = s.lru := by
  rcases hierSupersede_cases s vpn with ⟨-, h⟩ | ⟨-, o, -, h⟩ <;> simp [h, sameButTlb]

/-- The promotion writes the L1 array of the kind only. -/
theorem hierPromote_sameButTlb (s : State) (k : AccessKind) (vpn : Vpn) (pfn : Pfn) :
    sameButTlb s (hierPromote s k vpn pfn) := by simp [hierPromote, sameButTlb]

/-- The install of a full miss touches the hierarchical arrays only. -/
theorem hierInstall_sameButTlb (s : State) (k : AccessKind) (vpn : Vpn) (pfn : Pfn) :
    sameButTlb s (hierInstall s k vpn pfn) := by
  have h := (hierSupersede_frame s vpn).1
  simp_all [hierInstall, hierPromote, sameButTlb]

/-! ### `tlb_service` -/

/-- What the fully-associative service can do. -/
theorem faService_cases (s : State) (a : VirtualAddress) (r : Translated) (h : faService s a = .ok r) :
    (∃ i, faProbe s.tlb (virtualPageNumber a) = some i ∧
      r = { phys := { pfn := (tlbEntryAt s.tlb i).pfn, offset := a.offset }
            hit := true
            state := { s with lru := moveToBack s.lru i } }) ∨
      (∃ p, faProbe s.tlb (virtualPageNumber a) = none ∧ walk s.cfg.memLen s.mem a = .ok p ∧
        r = { phys := p, hit := false, state := faInstall s (virtualPageNumber a) p.pfn }) := by
  unfold faService at h
  cases hp : faProbe s.tlb (virtualPageNumber a) with
  | some i =>
    rw [hp] at h
    exact .inl ⟨i, rfl, by simpa using h.symm⟩
  | none =>
    rw [hp] at h
    cases hw : walk s.cfg.memLen s.mem a with
    | error e => simp [hw] at h
    | ok p => exact .inr ⟨p, rfl, rfl, by simpa [hw] using h.symm⟩

/-- What the hierarchical service can do. -/
theorem hierService_cases (s : State) (a : VirtualAddress) (k : AccessKind) (r : Translated)
    (h : hierService s a k = .ok r) :
    (directHolds s.cfg.l1tBits (s.l1Tlb k) (virtualPageNumber a) = true ∧
      r = { phys := { pfn := directPfn s.cfg.l1tBits (s.l1Tlb k) (virtualPageNumber a), offset := a.offset }
            hit := true
            state := s }) ∨
      (directHolds s.cfg.l1tBits (s.l1Tlb k) (virtualPageNumber a) = false ∧
        directHolds s.cfg.l2tBits s.tlb2 (virtualPageNumber a) = true ∧
        r = { phys := { pfn := directPfn s.cfg.l2tBits s.tlb2 (virtualPageNumber a), offset := a.offset }
              hit := true
              state := hierPromote s k (virtualPageNumber a)
                (directPfn s.cfg.l2tBits s.tlb2 (virtualPageNumber a)) }) ∨
      (∃ p, directHolds s.cfg.l1tBits (s.l1Tlb k) (virtualPageNumber a) = false ∧
        directHolds s.cfg.l2tBits s.tlb2 (virtualPageNumber a) = false ∧
        walk s.cfg.memLen s.mem a = .ok p ∧
        r = { phys := p, hit := false, state := hierInstall s k (virtualPageNumber a) p.pfn }) := by
  simp only [hierService] at h
  split at h
  · next h1 => exact .inl ⟨h1, by simpa using h.symm⟩
  · next h1 =>
    split at h
    · next h2 => exact .inr (.inl ⟨by simpa using h1, h2, by simpa using h.symm⟩)
    · next h2 =>
      cases hw : walk s.cfg.memLen s.mem a with
      | error e => simp [hw] at h
      | ok p => exact .inr (.inr ⟨p, by simpa using h1, by simpa using h2, rfl, by simpa [hw] using h.symm⟩)

/-- The service of the organisation that is built. -/
theorem tlbService_cases (s : State) (a : VirtualAddress) (k : AccessKind) (r : Translated)
    (h : tlbService s a k = .ok r) :
    (s.cfg.org = .fa ∧ faService s a = .ok r) ∨ (s.cfg.org = .hier ∧ hierService s a k = .ok r) := by
  unfold tlbService at h
  cases ho : s.cfg.org
  · exact .inl ⟨rfl, by simpa [ho] using h⟩
  · exact .inr ⟨rfl, by simpa [ho] using h⟩

/-- The service changes TLB state at most. -/
theorem tlbService_sameButTlb (s : State) (a : VirtualAddress) (k : AccessKind) (r : Translated)
    (h : tlbService s a k = .ok r) : sameButTlb s r.state := by
  rcases tlbService_cases s a k r h with ⟨-, h⟩ | ⟨-, h⟩
  · rcases faService_cases s a r h with ⟨i, -, rfl⟩ | ⟨p, -, -, rfl⟩
    · simp [sameButTlb]
    · exact faInstall_sameButTlb _ _ _
  · rcases hierService_cases s a k r h with ⟨-, rfl⟩ | ⟨-, -, rfl⟩ | ⟨p, -, -, -, rfl⟩
    · simp [sameButTlb]
    · exact hierPromote_sameButTlb _ _ _ _
    · exact hierInstall_sameButTlb _ _ _ _

/-- The service raises exactly what the walk raises (R161). -/
theorem tlbService_error (s : State) (a : VirtualAddress) (k : AccessKind) (e : ErrorKind)
    (h : tlbService s a k = .error e) : walk s.cfg.memLen s.mem a = .error e := by
  unfold tlbService faService hierService at h
  cases hw : walk s.cfg.memLen s.mem a with
  | error e' =>
    simp only [hw] at h
    split at h
    · split at h <;> simp_all
    · split at h
      · simp_all
      · split at h <;> simp_all
  | ok p =>
    simp only [hw] at h
    split at h
    · split at h <;> simp_all
    · split at h
      · simp_all
      · split at h <;> simp_all

end Sys2Proof.Machine
end

