-- ==== Sys2Proof/Laws/Access.lean ====
section
/-! SUPPORT. What the access pipeline and the step can do: each ends in exactly one of the ways listed. -/

namespace Sys2Proof.Machine

/-- How an access ends: an error of the codec, an error of the TLB stage, an error of the cache stage with the TLB stage's
effect kept, or a response (R239, R257). -/
theorem access_cases (s : State) (k : AccessKind) (vaddr : VAddr) (f : State → PAddr → Except ErrorKind Served) :
    (∃ e, decomposeVirtual vaddr = .error e ∧ access s k vaddr f = s.raise e) ∨
      (∃ a e, decomposeVirtual vaddr = .ok a ∧ tlbService s a k = .error e ∧ access s k vaddr f = s.raise e) ∨
      (∃ a r e, decomposeVirtual vaddr = .ok a ∧ tlbService s a k = .ok r ∧
        f r.state (composePhysical r.phys) = .error e ∧ access s k vaddr f = r.state.raise e) ∨
      (∃ a r c, decomposeVirtual vaddr = .ok a ∧ tlbService s a k = .ok r ∧
        f r.state (composePhysical r.phys) = .ok c ∧
        access s k vaddr f = c.state.respond (Response.access r.hit c.level c.data)) := by
  unfold access
  cases hd : decomposeVirtual vaddr with
  | error e => exact .inl ⟨e, rfl, rfl⟩
  | ok a =>
    cases ht : tlbService s a k with
    | error e => exact .inr (.inl ⟨a, e, rfl, ht, by simp [ht]⟩)
    | ok r =>
      cases hc : f r.state (composePhysical r.phys) with
      | error e => exact .inr (.inr (.inl ⟨a, r, e, rfl, ht, hc, by simp [ht, hc]⟩))
      | ok c => exact .inr (.inr (.inr ⟨a, r, c, rfl, ht, hc, by simp [ht, hc]⟩))

/-- The 32-bit field of a token that fits in it (for a wider one it is the free value of log 18). -/
theorem tokenWord_of_lt (t : Nat) (h : t < 2 ^ 32) : tokenWord t = BitVec.ofNat 32 t := if_pos h

/-- Every request answers a next state. -/
theorem exec_eq_next (i : Instr) (s : State) : ∃ t, exec i s = .next t := by
  cases i <;> exact ⟨_, rfl⟩

/-- What a step can do: refuse what is not a CORE, wait, or execute the request it takes. -/
theorem step_cases (s : State) :
    (s.cfg.valid = false ∧ step s = .refused .notACore) ∨
      (s.cfg.valid = true ∧ s.requests = [] ∧ step s = .next s) ∨
      (∃ w rest, s.cfg.valid = true ∧ s.requests = w :: rest ∧
        step s = exec (decode w) { s with requests := rest }) := by
  unfold step takeRequest
  cases hv : s.cfg.valid
  · exact .inl ⟨rfl, by simp⟩
  · cases hr : s.requests with
    | nil => exact .inr (.inl ⟨rfl, rfl, by simp [idle]⟩)
    | cons w rest => exact .inr (.inr ⟨w, rest, rfl, rfl, by simp⟩)

end Sys2Proof.Machine
end

