-- ==== Sys2Proof/Laws/Decode.lean ====
section
/-! SUPPORT. The three fields of a request word built field by field (spec/30_encoding.md R81). -/

namespace Sys2Proof

/-- `cmd` of a word built from its fields. -/
theorem requestCmd_append (c : BitVec 4) (wdata : Word) (vaddr : VAddr) :
    requestCmd (c ++ wdata ++ vaddr : Request) = c := by
  unfold requestCmd
  ext i hi
  simp only [BitVec.getElem_extractLsb', BitVec.getLsbD_append]
  have h1 : ¬ (96 + i < 64) := by omega
  have h2 : ¬ (96 + i - 64 < 32) := by omega
  simp only [h1, h2, if_false]
  rw [show 96 + i - 64 - 32 = i by omega]
  exact BitVec.getLsbD_eq_getElem hi

/-- `wdata` of a word built from its fields. -/
theorem requestWdata_append (c : BitVec 4) (wdata : Word) (vaddr : VAddr) :
    requestWdata (c ++ wdata ++ vaddr : Request) = wdata := by
  unfold requestWdata
  ext i hi
  simp only [BitVec.getElem_extractLsb', BitVec.getLsbD_append]
  have h1 : ¬ (64 + i < 64) := by omega
  have h2 : 64 + i - 64 < 32 := by omega
  simp only [h1, h2, if_false, if_true]
  rw [show 64 + i - 64 = i by omega]
  exact BitVec.getLsbD_eq_getElem hi

/-- `vaddr` of a word built from its fields. -/
theorem requestVaddr_append (c : BitVec 4) (wdata : Word) (vaddr : VAddr) :
    requestVaddr (c ++ wdata ++ vaddr : Request) = vaddr := by
  unfold requestVaddr
  ext i hi
  simp only [BitVec.getElem_extractLsb', BitVec.getLsbD_append, Nat.zero_add]
  simp only [hi, if_true]
  exact BitVec.getLsbD_eq_getElem hi

end Sys2Proof
end

