-- ==== Sys2Proof/Laws/Memory.lean ====
section
/-! SUPPORT. The memory operations: what a byte reads as after a write, what a write leaves alone, and that every write
keeps the canonical form and the bounds. -/

namespace Sys2Proof.Machine

/-! ### One byte -/

/-- A write leaves every other byte alone, in any list. -/
theorem memByte_memSetByte_of_ne (m : Memory) (a b : Nat) (v : Byte) (h : b ≠ a) :
    memByte (memSetByte m a v) b = memByte m b := by
  induction m with
  | nil =>
    simp only [memSetByte]
    split <;> simp [memByte, h]
  | cons c m ih =>
    obtain ⟨x, w⟩ := c
    simp only [memSetByte]
    split
    · split <;> simp [memByte, h]
    · split
      · subst x
        split <;> simp [memByte, h]
      · simp [memByte, ih]

/-- A byte below every listed address is unlisted. -/
theorem memByte_of_forall_lt (m : Memory) (a : Nat) (h : ∀ c ∈ m, a < c.1) : memByte m a = unlistedByte := by
  induction m with
  | nil => rfl
  | cons c m ih =>
    obtain ⟨x, w⟩ := c
    have hx : a < x := h (x, w) (by simp)
    have hrest : ∀ c ∈ m, a < c.1 := fun c hc => h c (by simp [hc])
    simp [memByte, ih hrest, Nat.ne_of_lt hx]

/-- A write in canonical memory reads back. -/
theorem memByte_memSetByte_self (m : Memory) (a : Nat) (v : Byte) (h : Memory.wf m) :
    memByte (memSetByte m a v) a = v := by
  induction m with
  | nil =>
    simp only [memSetByte]
    split
    · next hv => simp [memByte, hv]
    · simp [memByte]
  | cons c m ih =>
    obtain ⟨x, w⟩ := c
    obtain ⟨hp, hn⟩ := h
    rw [List.pairwise_cons] at hp
    have hm : Memory.wf m := ⟨hp.2, fun c hc => hn c (by simp [hc])⟩
    simp only [memSetByte]
    split
    · next hlt =>
      split
      · next hv =>
        rw [memByte_of_forall_lt _ _ (fun c hc => ?_), hv]
        rcases List.mem_cons.1 hc with rfl | hc
        · exact hlt
        · exact lt_trans hlt (hp.1 c hc)
      · simp [memByte]
    · split
      · next _ heq =>
        subst heq
        split
        · next hv => rw [memByte_of_forall_lt _ _ hp.1, hv]
        · simp [memByte]
      · next _ hne => simp [memByte, hne, ih hm]

/-- Every address a write lists was listed or is the one written. -/
theorem mem_memSetByte (m : Memory) (a : Nat) (v : Byte) (c : Host.Cell) (h : c ∈ memSetByte m a v) :
    c ∈ m ∨ (c = (a, v) ∧ v ≠ unlistedByte) := by
  induction m with
  | nil =>
    simp only [memSetByte] at h
    split at h
    · simp at h
    · next hv => exact .inr ⟨by simpa using h, hv⟩
  | cons d m ih =>
    obtain ⟨x, w⟩ := d
    simp only [memSetByte] at h
    split at h
    · split at h
      · exact .inl h
      · next hv =>
        rcases List.mem_cons.1 h with rfl | h
        · exact .inr ⟨rfl, hv⟩
        · exact .inl h
    · split at h
      · next heq =>
        split at h
        · exact .inl (by simp [h])
        · next hv =>
          rcases List.mem_cons.1 h with rfl | h
          · exact .inr ⟨rfl, hv⟩
          · exact .inl (by simp [h])
      · rcases List.mem_cons.1 h with rfl | h
        · exact .inl (by simp)
        · rcases ih h with h | h
          · exact .inl (by simp [h])
          · exact .inr h

/-- A write keeps the canonical form. -/
theorem memSetByte_wf (m : Memory) (a : Nat) (v : Byte) (h : Memory.wf m) : Memory.wf (memSetByte m a v) := by
  refine ⟨?_, fun c hc => ?_⟩
  · induction m with
    | nil =>
      simp only [memSetByte]
      split <;> simp
    | cons d m ih =>
      obtain ⟨x, w⟩ := d
      obtain ⟨hp, hn⟩ := h
      have hp' := hp
      rw [List.pairwise_cons] at hp'
      have hm : Memory.wf m := ⟨hp'.2, fun c hc => hn c (by simp [hc])⟩
      simp only [memSetByte]
      split
      · next hlt =>
        split
        · exact hp
        · refine List.pairwise_cons.2 ⟨fun c hc => ?_, hp⟩
          rcases List.mem_cons.1 hc with rfl | hc
          · exact hlt
          · exact lt_trans hlt (hp'.1 c hc)
      · split
        · next _ heq =>
          subst heq
          split
          · exact hp'.2
          · exact List.pairwise_cons.2 ⟨hp'.1, hp'.2⟩
        · next hlt hne =>
          refine List.pairwise_cons.2 ⟨fun c hc => ?_, ih hm⟩
          rcases mem_memSetByte _ _ _ _ hc with hc | ⟨rfl, -⟩
          · exact hp'.1 c hc
          · exact lt_of_le_of_ne (not_lt.1 hlt) (Ne.symm hne)
  · rcases mem_memSetByte _ _ _ _ hc with hc | ⟨rfl, hv⟩
    · exact h.2 c hc
    · exact hv

/-- A write inside the bounds keeps every listed address inside. -/
theorem memSetByte_inside (m : Memory) (a memLen : Nat) (v : Byte) (h : Memory.inside m memLen) (ha : a < memLen) :
    Memory.inside (memSetByte m a v) memLen := fun c hc => by
  rcases mem_memSetByte _ _ _ _ hc with hc | ⟨rfl, -⟩
  · exact h c hc
  · exact ha

/-! ### One word -/

/-- A word write keeps the canonical form. -/
theorem memWrite_wf (m : Memory) (a : Nat) (v : Word) (h : Memory.wf m) : Memory.wf (memWrite m a v) :=
  memSetByte_wf _ _ _ (memSetByte_wf _ _ _ (memSetByte_wf _ _ _ (memSetByte_wf _ _ _ h)))

/-- A word write inside the bounds keeps every listed address inside. -/
theorem memWrite_inside (m : Memory) (a memLen : Nat) (v : Word) (h : Memory.inside m memLen) (ha : a + 4 ≤ memLen) :
    Memory.inside (memWrite m a v) memLen :=
  memSetByte_inside _ _ _ _ (memSetByte_inside _ _ _ _ (memSetByte_inside _ _ _ _
    (memSetByte_inside _ _ _ _ h (by omega)) (by omega)) (by omega)) (by omega)

/-- What `MemWrite` does to every byte: the four bytes written, and no other. -/
theorem memByte_memWrite (m : Memory) (a b : Nat) (v : Word) (h : Memory.wf m) :
    memByte (memWrite m a v) b =
      if b = a then v.extractLsb' 0 8 else if b = a + 1 then v.extractLsb' 8 8
      else if b = a + 2 then v.extractLsb' 16 8 else if b = a + 3 then v.extractLsb' 24 8 else memByte m b := by
  have h0 := memSetByte_wf m a (v.extractLsb' 0 8) h
  have h1 := memSetByte_wf _ (a + 1) (v.extractLsb' 8 8) h0
  have h2 := memSetByte_wf _ (a + 2) (v.extractLsb' 16 8) h1
  unfold memWrite
  by_cases e3 : b = a + 3
  · subst e3
    rw [memByte_memSetByte_self _ _ _ h2]
    simp
  · rw [memByte_memSetByte_of_ne _ _ _ _ e3]
    by_cases e2 : b = a + 2
    · subst e2
      rw [memByte_memSetByte_self _ _ _ h1]
      simp
    · rw [memByte_memSetByte_of_ne _ _ _ _ e2]
      by_cases e1 : b = a + 1
      · subst e1
        rw [memByte_memSetByte_self _ _ _ h0]
        simp
      · rw [memByte_memSetByte_of_ne _ _ _ _ e1]
        by_cases e0 : b = a
        · subst e0
          rw [memByte_memSetByte_self _ _ _ h]
          simp
        · rw [memByte_memSetByte_of_ne _ _ _ _ e0]
          simp [e0, e1, e2, e3]

/-- A word write leaves every byte outside the word alone, in any list. -/
theorem memByte_memWrite_of_outside (m : Memory) (a b : Nat) (v : Word) (h : b < a ∨ a + 4 ≤ b) :
    memByte (memWrite m a v) b = memByte m b := by
  unfold memWrite
  rw [memByte_memSetByte_of_ne _ _ _ _ (by omega), memByte_memSetByte_of_ne _ _ _ _ (by omega),
    memByte_memSetByte_of_ne _ _ _ _ (by omega), memByte_memSetByte_of_ne _ _ _ _ (by omega)]

/-- The four bytes of a word put together again. -/
theorem bytes_append_eq (v : Word) :
    (v.extractLsb' 24 8 ++ v.extractLsb' 16 8 ++ v.extractLsb' 8 8 ++ v.extractLsb' 0 8 : BitVec 32) = v := by
  ext i hi
  simp only [BitVec.getElem_append, BitVec.getElem_extractLsb']
  split
  · simp [BitVec.getLsbD_eq_getElem hi]
  · split
    · rw [show 8 + (i - 8) = i by omega]; exact BitVec.getLsbD_eq_getElem hi
    · split
      · rw [show 16 + (i - 8 - 8) = i by omega]; exact BitVec.getLsbD_eq_getElem hi
      · rw [show 24 + (i - 8 - 8 - 8) = i by omega]; exact BitVec.getLsbD_eq_getElem hi

/-- `MemRead` after `MemWrite` of the same word. -/
theorem memRead_memWrite_self (m : Memory) (a : Nat) (v : Word) (h : Memory.wf m) :
    memRead (memWrite m a v) a = v := by
  unfold memRead
  simp only [memByte_memWrite m a _ v h]
  simpa using bytes_append_eq v

/-- `MemRead` of a word that a `MemWrite` does not touch. -/
theorem memRead_memWrite_of_disjoint (m : Memory) (a b : Nat) (v : Word) (h : b + 4 ≤ a ∨ a + 4 ≤ b) :
    memRead (memWrite m a v) b = memRead m b := by
  unfold memRead
  rw [memByte_memWrite_of_outside _ _ _ _ (by omega), memByte_memWrite_of_outside _ _ _ _ (by omega),
    memByte_memWrite_of_outside _ _ _ _ (by omega), memByte_memWrite_of_outside _ _ _ _ (by omega)]

/-- Canonical memories that read alike are equal data. -/
theorem Memory.ext_of_wf (m m' : Memory) (h : Memory.wf m) (h' : Memory.wf m')
    (heq : ∀ a, memByte m a = memByte m' a) : m = m' := by
  induction m generalizing m' with
  | nil =>
    cases m' with
    | nil => rfl
    | cons d m' =>
      exact absurd (heq d.1).symm (by simp [memByte, h'.2 d (by simp)])
  | cons c m ih =>
    obtain ⟨x, w⟩ := c
    cases m' with
    | nil => exact absurd (heq x) (by simp [memByte, h.2 (x, w) (by simp)])
    | cons d m' =>
      obtain ⟨y, u⟩ := d
      have hp := List.pairwise_cons.1 h.1
      have hp' := List.pairwise_cons.1 h'.1
      have hw : w ≠ unlistedByte := h.2 (x, w) (by simp)
      have hu : u ≠ unlistedByte := h'.2 (y, u) (by simp)
      have hxy : x = y := by
        rcases lt_trichotomy x y with hlt | rfl | hlt
        · have := heq x
          rw [memByte_of_forall_lt ((y, u) :: m') x (fun c hc => by
            rcases List.mem_cons.1 hc with rfl | hc
            · exact hlt
            · exact lt_trans hlt (hp'.1 c hc))] at this
          exact absurd this (by simp [memByte, hw])
        · rfl
        · have := (heq y).symm
          rw [memByte_of_forall_lt ((x, w) :: m) y (fun c hc => by
            rcases List.mem_cons.1 hc with rfl | hc
            · exact hlt
            · exact lt_trans hlt (hp.1 c hc))] at this
          exact absurd this (by simp [memByte, hu])
      subst hxy
      have hwu : w = u := by simpa [memByte] using heq x
      subst hwu
      rw [ih m' ⟨hp.2, fun c hc => h.2 c (by simp [hc])⟩ ⟨hp'.2, fun c hc => h'.2 c (by simp [hc])⟩ (fun a => ?_)]
      by_cases ha : a = x
      · subst ha
        rw [memByte_of_forall_lt m a hp.1, memByte_of_forall_lt m' a hp'.1]
      · simpa [memByte, ha] using heq a

/-! ### One line -/

/-- A line write keeps the canonical form. -/
theorem memWriteLine_wf (m : Memory) (b : Nat) (line : Line) (h : Memory.wf m) : Memory.wf (memWriteLine m b line) :=
  memWrite_wf _ _ _ (memWrite_wf _ _ _ (memWrite_wf _ _ _ (memWrite_wf _ _ _ h)))

/-- A line write inside the bounds keeps every listed address inside. -/
theorem memWriteLine_inside (m : Memory) (b memLen : Nat) (line : Line) (h : Memory.inside m memLen)
    (hb : b + 16 ≤ memLen) : Memory.inside (memWriteLine m b line) memLen :=
  memWrite_inside _ _ _ _ (memWrite_inside _ _ _ _ (memWrite_inside _ _ _ _ (memWrite_inside _ _ _ _ h (by omega))
    (by omega)) (by omega)) (by omega)

/-- A line write leaves every byte outside the line alone. -/
theorem memByte_memWriteLine_of_outside (m : Memory) (b a : Nat) (line : Line) (h : a < b ∨ b + 16 ≤ a) :
    memByte (memWriteLine m b line) a = memByte m a := by
  unfold memWriteLine
  rw [memByte_memWrite_of_outside _ _ _ _ (by omega), memByte_memWrite_of_outside _ _ _ _ (by omega),
    memByte_memWrite_of_outside _ _ _ _ (by omega), memByte_memWrite_of_outside _ _ _ _ (by omega)]

/-- A line fill after a line write of the same line. -/
theorem memReadLine_memWriteLine (m : Memory) (b : Nat) (line : Line) (h : Memory.wf m) :
    memReadLine (memWriteLine m b line) b = line := by
  have h0 := memWrite_wf m b line.w0 h
  have h1 := memWrite_wf _ (b + 4) line.w1 h0
  have h2 := memWrite_wf _ (b + 8) line.w2 h1
  unfold memReadLine memWriteLine
  dsimp only
  rw [memRead_memWrite_self _ _ _ h2, memRead_memWrite_of_disjoint _ _ _ _ (by omega),
    memRead_memWrite_of_disjoint _ _ _ _ (by omega), memRead_memWrite_of_disjoint _ _ _ _ (by omega),
    memRead_memWrite_self _ _ _ h, memRead_memWrite_of_disjoint _ _ _ _ (by omega),
    memRead_memWrite_of_disjoint _ _ _ _ (by omega), memRead_memWrite_self _ _ _ h0,
    memRead_memWrite_of_disjoint _ _ _ _ (by omega), memRead_memWrite_self _ _ _ h1]

end Sys2Proof.Machine
end

