-- ==== Sys2Proof/Laws/PerInstr.lean ====
section
/-! SUPPORT. Families of statements made per instruction. `TableRow`: the encoder's word carries the `match` of the
instruction's row under the row's `mask`, both read off spec/opcode_table.json (every mask of the table lies in `cmd`). -/

namespace Sys2Proof.Laws.TableRow

/-- `mask` of the row, its bits 99:96. -/
def rowMask : Instr → BitVec 4
  | .rdbI _ _ => 0xF
  | .rdwI _ _ => 0xF
  | .rdbD _ _ => 0xF
  | .rdwD _ _ => 0xF
  | .illegalWrI _ _ _ => 0xE
  | .wrbD _ _ => 0xF
  | .wrwD _ _ => 0xF
  | .xlate _ _ => 0xF
  | .dump _ _ _ _ _ => 0xF
  | .reserved101x _ _ _ => 0xE
  | .reserved11xx _ _ _ => 0xC

/-- `match` of the row, its bits 99:96. -/
def rowMatch : Instr → BitVec 4
  | .rdbI _ _ => 0x0
  | .rdwI _ _ => 0x1
  | .rdbD _ _ => 0x2
  | .rdwD _ _ => 0x3
  | .illegalWrI _ _ _ => 0x4
  | .wrbD _ _ => 0x6
  | .wrwD _ _ => 0x7
  | .xlate _ _ => 0x8
  | .dump _ _ _ _ _ => 0x9
  | .reserved101x _ _ _ => 0xA
  | .reserved11xx _ _ _ => 0xC

/-- The encoded word carries the row's `match` under the row's `mask`. -/
def Statement (i : Instr) : Prop := requestCmd (encode i) &&& rowMask i = rowMatch i

theorem rdbI (wdata : Word) (vaddr : VAddr) : Statement (.rdbI wdata vaddr) := by
  unfold Statement encode
  rw [requestCmd_append]
  simp [rowMask, rowMatch]

theorem rdwI (wdata : Word) (vaddr : VAddr) : Statement (.rdwI wdata vaddr) := by
  unfold Statement encode
  rw [requestCmd_append]
  simp [rowMask, rowMatch]

theorem rdbD (wdata : Word) (vaddr : VAddr) : Statement (.rdbD wdata vaddr) := by
  unfold Statement encode
  rw [requestCmd_append]
  simp [rowMask, rowMatch]

theorem rdwD (wdata : Word) (vaddr : VAddr) : Statement (.rdwD wdata vaddr) := by
  unfold Statement encode
  rw [requestCmd_append]
  simp [rowMask, rowMatch]

theorem illegalWrI (size : BitVec 1) (wdata : Word) (vaddr : VAddr) : Statement (.illegalWrI size wdata vaddr) := by
  unfold Statement encode
  rw [requestCmd_append]
  simp only [rowMask, rowMatch]
  revert size
  decide

theorem wrbD (wdata : Word) (vaddr : VAddr) : Statement (.wrbD wdata vaddr) := by
  unfold Statement encode
  rw [requestCmd_append]
  simp [rowMask, rowMatch]

theorem wrwD (wdata : Word) (vaddr : VAddr) : Statement (.wrwD wdata vaddr) := by
  unfold Statement encode
  rw [requestCmd_append]
  simp [rowMask, rowMatch]

theorem xlate (wdata : Word) (vaddr : VAddr) : Statement (.xlate wdata vaddr) := by
  unfold Statement encode
  rw [requestCmd_append]
  simp [rowMask, rowMatch]

theorem dump (wdata : Word) (mbz : BitVec 20) (way : BitVec 8) (idx : BitVec 32) (arr : BitVec 4) :
    Statement (.dump wdata mbz way idx arr) := by
  unfold Statement encode
  rw [requestCmd_append]
  simp [rowMask, rowMatch]

theorem reserved101x (x : BitVec 1) (wdata : Word) (vaddr : VAddr) : Statement (.reserved101x x wdata vaddr) := by
  unfold Statement encode
  rw [requestCmd_append]
  simp only [rowMask, rowMatch]
  revert x
  decide

theorem reserved11xx (x : BitVec 2) (wdata : Word) (vaddr : VAddr) : Statement (.reserved11xx x wdata vaddr) := by
  unfold Statement encode
  rw [requestCmd_append]
  simp only [rowMask, rowMatch]
  revert x
  decide

end Sys2Proof.Laws.TableRow
end

