-- ==== Sys2Proof/Certificates/Slice0/Obligations.lean ====
section
/-! DEFINITION. The statements for the provers, section by section of spec/. A docstring names the rule a statement formalises;
one that rests on a passage the spec marks as its own decision or derivation, or on a choice of this model, says so and
is no more than that choice's consequence. -/

open Sys2Proof Sys2Proof.Machine

/-! ### Encodings (spec/30_encoding.md) -/

/-- Section 1 (the layout is the spec's decision D22): decoding inverts encoding for every request, so no bit of a field is
dropped or read twice. -/
def Obligations.DecodeOfEncodeIsIdentity : Prop := ∀ i : Instr, decode (encode i) = i

/-- Section 5 (decision D22): every word of 100 bits is the encoding of the request it decodes to, so no two words share a
meaning. -/
def Obligations.EncodeOfDecodeIsIdentity : Prop := ∀ w : Request, encode (decode w) = w

/-- Section 1 (decision D22): request words of the spec's test vectors, read as the requests they stand for. -/
def Obligations.SampleRequestWordsDecode : Prop :=
  decode 0x1000000000000000000000010#100 = .rdwI 0 0x10 ∧
    decode 0x7DEADBEEF0000000000000020#100 = .wrwD 0xDEADBEEF 0x20 ∧
    decode 0x6000000110000000000000022#100 = .wrbD 0x11 0x22 ∧
    decode 0x8000000000000008080604005#100 = .xlate 0 0x8080604005 ∧
    decode 0x9000000000000001000000025#100 = .dump 0 0 1 2 5 ∧
    decode 0x5000000010000000000000000#100 = .illegalWrI 1 1 0 ∧
    decode 0xE000000000000000000000000#100 = .reserved11xx 2 0 0

/-- Section 5 and spec/45_access.md section 1 (decisions D21, D22, D25): a request that breaks a must-be-zero field or is of
an illegal or reserved group is answered with `BadParameter`, and nothing else changes. -/
def Obligations.IllFormedRequestsAreBadParameter : Prop :=
  ∀ (i : Instr) (s : State), i.wellFormed = false → exec i s = .next (s.raise .badParameter)

/-- spec/45_access.md section 2 (decisions D21, D22): the illegal and the reserved requests complete with `BadParameter` for
every operand, and nothing but the response changes. -/
def Obligations.IllegalAndReservedRequestsChangeNothing : Prop :=
  ∀ s : State,
    (∀ size wdata vaddr, exec (.illegalWrI size wdata vaddr) s = .next (s.respond (Response.error .badParameter))) ∧
      (∀ x wdata vaddr, exec (.reserved101x x wdata vaddr) s = .next (s.respond (Response.error .badParameter))) ∧
      (∀ x wdata vaddr, exec (.reserved11xx x wdata vaddr) s = .next (s.respond (Response.error .badParameter)))

/-- Sections 2 and 7 (decisions D23, D28; the bound on ages is log 13): where each field of a response stands in the packed
211-bit record, and the codes of `status` and `level`. -/
def Obligations.ResponsePacksByField : Prop :=
  (Status.code .ok = 0 ∧ Status.code (.error .badParameter) = 1 ∧ Status.code (.error .outOfBounds) = 2 ∧
    Status.code (.error .allocation) = 3 ∧ Status.code (.error .io) = 4) ∧
  (HitLevel.code .none = 0 ∧ HitLevel.code .l1 = 1 ∧ HitLevel.code .l2 = 2 ∧ HitLevel.code .mem = 3) ∧
  ∀ r : Response,
    (256 ≤ r.dump.age → r.pack = none) ∧
      (r.dump.age < 256 → ∃ p, r.pack = some p ∧
        p.extractLsb' 0 3 = r.status.code ∧ p.extractLsb' 3 1 = BitVec.ofBool r.tlbHit ∧
        p.extractLsb' 4 2 = r.level.code ∧ p.extractLsb' 6 32 = r.data ∧
        p.extractLsb' 38 1 = BitVec.ofBool r.dump.valid ∧ (p.extractLsb' 39 8).toNat = r.dump.age ∧
        p.extractLsb' 47 36 = r.dump.tag ∧ p.extractLsb' 83 32 = r.dump.w0 ∧ p.extractLsb' 115 32 = r.dump.w1 ∧
        p.extractLsb' 147 32 = r.dump.w2 ∧ p.extractLsb' 179 32 = r.dump.w3)

/-! ### The step (spec/00_scope.md section 2, spec/70_reset_and_hazards.md sections 1 and 2) -/

/-- A step takes the request at the head of what the host issued, runs it to completion and leaves the later ones as they
are; the word `encode i` placed by `withFetchWord` runs `i` (the request list is the model's: logs 5 and 7). -/
def Obligations.StepRunsTheDecodedRequest : Prop :=
  (∀ (s : State) (w : Request) (rest : List Request) (i : Instr), s.cfg.valid = true → s.requests = w :: rest →
      decode w = i → step s = exec i { s with requests := rest }) ∧
    (∀ (s : State) (i : Instr) (nbits : Nat), s.cfg.valid = true →
      step (s.withFetchWord nbits (encode i).toNat) = exec i s)

/-- With no request issued CORE waits (log 5); parameters outside the constraints of spec/00_scope.md section 4 have no step
(log 8). Both are the model's choices of form. -/
def Obligations.StepWaitsOrRefuses : Prop :=
  ∀ s : State, (s.cfg.valid = true → s.requests = [] → step s = .next s) ∧
    (s.cfg.valid = false → step s = .refused .notACore)

/-- spec/60_exceptions.md section 1: there is no fatal abort path: from every state of a CORE, with every list of requests,
every run of every length answers a next state. -/
def Obligations.EveryRunCompletes : Prop := ∀ s : State, s.cfg.valid = true → runsSafely s

/-- spec/00_scope.md section 4 and spec/10_state.md section 1: nothing configures CORE at run time, and a step takes exactly
one request (the list of requests is log 5). -/
def Obligations.StepKeepsBuildParameters : Prop :=
  ∀ s t : State, step s = .next t → t.cfg = s.cfg ∧ t.requests = s.requests.tail

/-! ### Memory and the Address Codec (spec/20_memory.md, spec/40_address_codec.md) -/

/-- spec/20_memory.md sections 1 and 2 (the byte order of the buffer is decision D8): the value of `MemRead(addr, 4)`. -/
def Obligations.MemReadIsLittleEndian : Prop :=
  ∀ (m : Memory) (addr : Nat),
    memRead m addr =
      (memByte m addr).setWidth 32 ||| (memByte m (addr + 1)).setWidth 32 <<< 8 |||
        (memByte m (addr + 2)).setWidth 32 <<< 16 ||| (memByte m (addr + 3)).setWidth 32 <<< 24

/-- spec/40_address_codec.md sections 2 and 3 (decisions D1, D2; the last two clauses are derived there): which fields a
flat address has, which addresses are refused, and the inverses that section 4 does not quote. -/
def Obligations.DecomposeSlicesTheAddress : Prop :=
  (∀ v : VAddr, 2 ^ 48 ≤ v.toNat → decomposeVirtual v = .error .badParameter) ∧
    (∀ v : VAddr, v.toNat < 2 ^ 48 → ∃ a, decomposeVirtual v = .ok a ∧
      a.top.toNat = v.toNat / 2 ^ 39 ∧ a.upper.toNat = v.toNat / 2 ^ 30 % 512 ∧
      a.middle.toNat = v.toNat / 2 ^ 21 % 512 ∧ a.lower.toNat = v.toNat / 2 ^ 12 % 512 ∧
      a.offset.toNat = v.toNat % 4096) ∧
    (∀ a : VirtualAddress, decomposeVirtual (composeVirtual a) = .ok a) ∧
    (∀ x : PAddr, composePhysical (decomposePhysical x) = x)

/-- R119, the two laws it takes from the source (the third is marked derived and stands in
`DecomposeSlicesTheAddress`). -/
def Obligations.AddressCodecRoundTrips : Prop :=
  (∀ v : VAddr, v.toNat < 2 ^ 48 → ∃ a, decomposeVirtual v = .ok a ∧ composeVirtual a = v) ∧
    (∀ pfn offset : Nat, pfn < 2 ^ 20 → offset < 2 ^ 12 → ∃ p, makePhysical pfn offset = .ok p ∧
      p.pfn.toNat = pfn ∧ p.offset.toNat = offset ∧ decomposePhysical (composePhysical p) = p)

/-- R113 and R116: the page number concatenates the four indices, top most significant; the flat physical address packs
frame and offset. -/
def Obligations.PageNumbersAndPhysicalAddressesPack : Prop :=
  (∀ a : VirtualAddress, (virtualPageNumber a).toNat =
      a.top.toNat * 2 ^ 27 + a.upper.toNat * 2 ^ 18 + a.middle.toNat * 2 ^ 9 + a.lower.toNat) ∧
    (∀ p : PhysicalAddress, (composePhysical p).toNat = p.pfn.toNat * 2 ^ 12 + p.offset.toNat)

/-- R114 and R115: the field constructors accept exactly the in-range fields, keep them as they are, and refuse the rest
with `BadParameter`. -/
def Obligations.FieldConstructorsNeverTruncate : Prop :=
  (∀ top upper middle lower offset : Nat,
      (512 ≤ top ∨ 512 ≤ upper ∨ 512 ≤ middle ∨ 512 ≤ lower ∨ 4096 ≤ offset →
        makeVirtual top upper middle lower offset = .error .badParameter) ∧
      (top < 512 → upper < 512 → middle < 512 → lower < 512 → offset < 4096 →
        ∃ a, makeVirtual top upper middle lower offset = .ok a ∧ a.top.toNat = top ∧ a.upper.toNat = upper ∧
          a.middle.toNat = middle ∧ a.lower.toNat = lower ∧ a.offset.toNat = offset)) ∧
    (∀ pfn offset : Nat,
      (2 ^ 20 ≤ pfn ∨ 4096 ≤ offset → makePhysical pfn offset = .error .badParameter) ∧
      (pfn < 2 ^ 20 → offset < 4096 →
        ∃ p, makePhysical pfn offset = .ok p ∧ p.pfn.toNat = pfn ∧ p.offset.toNat = offset))

/-! ### The Page Table Walker (spec/41_page_walker.md) -/

/-- The algorithm (decisions D3, D4, D5, D6): a walk succeeds exactly when its four entries lie inside memory and the last
is page-aligned, and its result is that frame with the offset preserved. -/
def Obligations.WalkReadsFourEntries : Prop :=
  ∀ (memLen : Nat) (m : Memory) (a : VirtualAddress) (p : PhysicalAddress),
    walk memLen m a = .ok p ↔
      ∃ e1 e2 e3 e4 : Word,
        (4 * a.top.toNat + 4 ≤ memLen ∧ e1 = memRead m (4 * a.top.toNat)) ∧
        (4 * (e1.toNat / 4 + a.upper.toNat) + 4 ≤ memLen ∧ e2 = memRead m (4 * (e1.toNat / 4 + a.upper.toNat))) ∧
        (4 * (e2.toNat / 4 + a.middle.toNat) + 4 ≤ memLen ∧ e3 = memRead m (4 * (e2.toNat / 4 + a.middle.toNat))) ∧
        (4 * (e3.toNat / 4 + a.lower.toNat) + 4 ≤ memLen ∧ e4 = memRead m (4 * (e3.toNat / 4 + a.lower.toNat))) ∧
        e4.toNat % 4096 = 0 ∧ p.pfn.toNat = e4.toNat / 4096 ∧ p.offset = a.offset

/-- The two errors (decisions D4, D6): `BadParameter` exactly when all four entries lie inside memory and the last is not
page-aligned, `OutOfBounds` exactly when one of the four does not; no other error. -/
def Obligations.WalkErrors : Prop :=
  ∀ (memLen : Nat) (m : Memory) (a : VirtualAddress),
    let o1 := 4 * a.top.toNat
    let o2 := 4 * ((memRead m o1).toNat / 4 + a.upper.toNat)
    let o3 := 4 * ((memRead m o2).toNat / 4 + a.middle.toNat)
    let o4 := 4 * ((memRead m o3).toNat / 4 + a.lower.toNat)
    (walk memLen m a = .error .outOfBounds ↔
        memLen < o1 + 4 ∨ memLen < o2 + 4 ∨ memLen < o3 + 4 ∨ memLen < o4 + 4) ∧
      (walk memLen m a = .error .badParameter ↔
        o1 + 4 ≤ memLen ∧ o2 + 4 ≤ memLen ∧ o3 + 4 ≤ memLen ∧ o4 + 4 ≤ memLen ∧ (memRead m o4).toNat % 4096 ≠ 0) ∧
      walk memLen m a ≠ .error .allocation ∧ walk memLen m a ≠ .error .io

/-- The worked example and the source's property S3 (derived from the algorithm; spec/95_test_vectors.md part 1): tables
that send every index of each level to one next table lead every page to the frame, its offset preserved. -/
def Obligations.UniformTablesReachTheFrame : Prop :=
  ∀ (memLen : Nat) (m : Memory) (b1 b2 b3 : Word) (f : Pfn),
    2048 ≤ memLen → b1.toNat + 2048 ≤ memLen → b2.toNat + 2048 ≤ memLen → b3.toNat + 2048 ≤ memLen →
      b1.toNat % 4 = 0 → b2.toNat % 4 = 0 → b3.toNat % 4 = 0 →
      (∀ i < 512, memRead m (4 * i) = b1) → (∀ i < 512, memRead m (b1.toNat + 4 * i) = b2) →
      (∀ i < 512, memRead m (b2.toNat + 4 * i) = b3) → (∀ i < 512, memRead m (b3.toNat + 4 * i) = f ++ 0#12) →
      ∀ v : VAddr, v.toNat < 2 ^ 48 → ∃ a, decomposeVirtual v = .ok a ∧
        walk memLen m a = .ok { pfn := f, offset := v.extractLsb' 0 12 }

/-! ### The Ordered Eviction List (spec/42_eviction_list.md) -/

/-- R152: `move_to_back(t)` removes `t` from where it is and appends it, the order of the others unchanged; at the back
already, nothing changes; with one token, `[0]` stays. -/
def Obligations.MoveToBackKeepsOthersInOrder : Prop :=
  (∀ (lru : List Nat) (t : Nat), lru.Nodup → t ∈ lru →
      moveToBack lru t = lru.filter (fun u => u != t) ++ [t] ∧
        (moveToBack lru t).filter (fun u => u != t) = lru.filter (fun u => u != t) ∧
        (lru.getLast? = some t → moveToBack lru t = lru)) ∧
    moveToBack [0] 0 = [0]

/-- Section 1 (the identity order is decision D13): `list_init(N)` makes `[0, 1, .., N-1]`; a pop gives back what the push at
the same end put there, and the front is what was pushed there. -/
def Obligations.ListOperationsActAtTheEnds : Prop :=
  (∀ n : Nat, listInit n = List.range n) ∧
    (∀ (lru : List Nat) (t : Nat), popBack (pushBack lru t) = some (t, lru) ∧ popFront (pushFront lru t) = some (t, lru) ∧
      front (pushFront lru t) = some t)

/-- The source's property S6 in terms of the list (derived; spec/95_test_vectors.md part 1): after touching any tokens but
the front one, the front one is still the next victim. -/
def Obligations.UntouchedFrontIsTheNextVictim : Prop :=
  ∀ (lru touched : List Nat) (t : Nat), lru.Nodup → front lru = some t → (∀ u ∈ touched, u ∈ lru ∧ u ≠ t) →
    front (touched.foldl moveToBack lru) = some t

/-- The hardware representation (derived there; the linked `move_to_back` is the model's own construction, DESIGN CHOICE, log
17, and no step runs it): on the doubly linked arrays, `move_to_back` by direct addressing of a
token's node does to the sequence read off what the abstract operation does, and `head` is the front. -/
def Obligations.LinkedListRefinesSequence : Prop :=
  ∀ (l : LinkedList) (lru : List Nat) (t : Nat), lru.Nodup → t ∈ lru → l.represents lru →
    (l.moveToBack t).represents (moveToBack lru t) ∧ l.front = front lru ∧
      (l.moveToBack t).front = front (moveToBack lru t)

/-! ### The TLB (spec/43_tlb.md) -/

/-- Section 1 (decision D11): `tlb_service` answers what the pure lookup holds, on a miss what the walk answers, and raises
exactly what the walk raises, on a miss only. -/
def Obligations.TlbServiceFollowsItsContract : Prop :=
  ∀ (s : State) (a : VirtualAddress) (k : AccessKind),
    ((tlbLookup s (virtualPageNumber a) k).1 = true →
        ∃ t, tlbService s a k = .ok
          { phys := { pfn := (tlbLookup s (virtualPageNumber a) k).2, offset := a.offset }, hit := true, state := t }) ∧
      (∀ p, (tlbLookup s (virtualPageNumber a) k).1 = false → walk s.cfg.memLen s.mem a = .ok p →
        ∃ t, tlbService s a k = .ok { phys := p, hit := false, state := t }) ∧
      (∀ e, tlbService s a k = .error e ↔
        (tlbLookup s (virtualPageNumber a) k).1 = false ∧ walk s.cfg.memLen s.mem a = .error e)

/-- The source's property S4 in both organisations (derived in sections 2 and 3): right after a service a lookup of the same
page hits with the same frame. -/
def Obligations.ServiceThenLookupHits : Prop :=
  ∀ (s : State) (a : VirtualAddress) (k : AccessKind) (r : Translated), s.wf → tlbService s a k = .ok r →
    tlbLookup r.state (virtualPageNumber a) k = (true, r.phys.pfn) ∧ r.phys.offset = a.offset

/-- Section 2 (decisions D11, D12): a fully-associative hit returns the frame of the lowest matching valid entry with the
offset, moves that entry's token to the back and writes nothing else; the kind is ignored. -/
def Obligations.FaHitMovesItsToken : Prop :=
  ∀ (s : State) (a : VirtualAddress) (k : AccessKind) (i : Nat) (e : TlbEntry), s.cfg.org = .fa →
    s.tlb[i]? = some e → e.valid = true → e.tag = virtualPageNumber a →
      (∀ (j : Nat) (f : TlbEntry), j < i → s.tlb[j]? = some f → f.valid = true → f.tag ≠ virtualPageNumber a) →
      tlbService s a k = .ok
        { phys := { pfn := e.pfn, offset := a.offset }, hit := true, state := { s with lru := moveToBack s.lru i } }

/-- R163: a fully-associative miss walks first; on success it overwrites the front token's entry whole, whatever it held,
moves the token to the back and writes nothing else; on an error nothing is installed. -/
def Obligations.FaMissEvictsTheFront : Prop :=
  ∀ (s : State) (a : VirtualAddress) (k : AccessKind) (t : Nat) (rest : List Nat), s.cfg.org = .fa →
    (∀ e ∈ s.tlb, e.valid = true → e.tag ≠ virtualPageNumber a) → s.lru = t :: rest →
      (∀ p, walk s.cfg.memLen s.mem a = .ok p → tlbService s a k = .ok
        { phys := p
          hit := false
          state := { s with
            tlb := s.tlb.set t { valid := true, tag := virtualPageNumber a, pfn := p.pfn }
            lru := rest ++ [t] } }) ∧
      (∀ e, walk s.cfg.memLen s.mem a = .error e → tlbService s a k = .error e)

/-- R167: a hit in the L1 array of the request's kind returns that entry's frame with the offset and writes no state. -/
def Obligations.HierL1HitChangesNothing : Prop :=
  ∀ (s : State) (a : VirtualAddress) (k : AccessKind) (e : TlbEntry), s.cfg.org = .hier →
    (s.l1Tlb k)[(virtualPageNumber a).toNat % 2 ^ s.cfg.l1tBits]? = some e → e.valid = true →
      e.tag.toNat = (virtualPageNumber a).toNat / 2 ^ s.cfg.l1tBits →
      tlbService s a k = .ok { phys := { pfn := e.pfn, offset := a.offset }, hit := true, state := s }

/-- Section 3 (decision D14): a hit in `TLB2` alone copies the translation into the kind's L1 array at its index, overwriting
what stood there, and writes nothing else; `TLB2` keeps its entry. -/
def Obligations.HierL2HitPromotesACopy : Prop :=
  ∀ (s : State) (a : VirtualAddress) (k : AccessKind) (e : TlbEntry), s.cfg.org = .hier →
    directHolds s.cfg.l1tBits (s.l1Tlb k) (virtualPageNumber a) = false →
      s.tlb2[(virtualPageNumber a).toNat % 2 ^ s.cfg.l2tBits]? = some e → e.valid = true →
      e.tag.toNat = (virtualPageNumber a).toNat / 2 ^ s.cfg.l2tBits →
      tlbService s a k = .ok
        { phys := { pfn := e.pfn, offset := a.offset }
          hit := true
          state := s.setL1Tlb k ((s.l1Tlb k).set ((virtualPageNumber a).toNat % 2 ^ s.cfg.l1tBits)
            { valid := true, tag := virtualPageNumber a >>> s.cfg.l1tBits, pfn := e.pfn }) }

/-- Section 3 (decision D14): a full miss installs into `TLB2` and into the kind's L1 array, each at its index; in the other
L1 array the page that `TLB2` lost is invalidated where it is held, clearing `valid` only; nothing else is written. -/
def Obligations.HierFullMissInstallsAtBothLevels : Prop :=
  ∀ (s : State) (a : VirtualAddress) (k : AccessKind) (p : PhysicalAddress) (old o : TlbEntry),
    s.cfg.org = .hier → s.cfg.l1tBits ≤ s.cfg.l2tBits →
    let vpn := virtualPageNumber a
    let i1 := vpn.toNat % 2 ^ s.cfg.l1tBits
    let i2 := vpn.toNat % 2 ^ s.cfg.l2tBits
    let oldVpn := directVpn s.cfg.l2tBits old.tag i2
    directHolds s.cfg.l1tBits (s.l1Tlb k) vpn = false → directHolds s.cfg.l2tBits s.tlb2 vpn = false →
      walk s.cfg.memLen s.mem a = .ok p → s.tlb2[i2]? = some old → (s.l1Tlb k.other)[i1]? = some o →
      ∃ t, tlbService s a k = .ok { phys := p, hit := false, state := t } ∧
        t.tlb2 = s.tlb2.set i2 { valid := true, tag := vpn >>> s.cfg.l2tBits, pfn := p.pfn } ∧
        t.l1Tlb k = (s.l1Tlb k).set i1 { valid := true, tag := vpn >>> s.cfg.l1tBits, pfn := p.pfn } ∧
        t.l1Tlb k.other =
          (if old.valid = true ∧ directHolds s.cfg.l1tBits (s.l1Tlb k.other) oldVpn = true then
            (s.l1Tlb k.other).set i1 { o with valid := false } else s.l1Tlb k.other) ∧
        t.tlb = s.tlb ∧ t.lru = s.lru ∧ sameButTlb s t

/-- spec/10_state.md section 7 item 2 (derived there): a step keeps the tags of the valid `TLB` entries distinct. -/
def Obligations.FaTagsStayUnique : Prop := ∀ s t : State, tlbTagsUnique s → step s = .next t → tlbTagsUnique t

/-- spec/10_state.md section 7 item 3 (derived there): a step keeps every L1 translation included in `TLB2` with the same
frame. -/
def Obligations.HierInclusionIsKept : Prop :=
  ∀ s t : State, s.wf → tlbInclusive s → step s = .next t → tlbInclusive t

/-- spec/43_tlb.md section 4 under the duty of spec/70_reset_and_hazards.md section 3 (both derived): while no translation is
stale, a TLB of either organisation is transparent: the service answers and raises what the walk does. -/
def Obligations.FaithfulTlbIsTransparent : Prop :=
  ∀ (s : State) (a : VirtualAddress) (k : AccessKind), tlbFaithful s →
    Except.map Translated.phys (tlbService s a k) = walk s.cfg.memLen s.mem a

/-- spec/70_reset_and_hazards.md section 3 (derived): translations become stale only by a write that changes some walk's
answer. -/
def Obligations.FaithfulnessIsKept : Prop :=
  ∀ s t : State, tlbFaithful s → step s = .next t →
    (∀ a : VirtualAddress, walk t.cfg.memLen t.mem a = walk s.cfg.memLen s.mem a) → tlbFaithful t

/-- spec/43_tlb.md section 4 and spec/70_reset_and_hazards.md section 6 (derived from the rules): two machines that agree
below the TLB, of either organisation and any TLB sizes, neither holding a stale translation, answer every request but
DUMP alike in status, level and data, and agree below the TLB again. -/
def Obligations.OrganisationsAgree : Prop :=
  ∀ (i : Instr) (s t s' : State), sameBelowTlb s t → tlbFaithful s → tlbFaithful t →
    (∀ wdata mbz way idx arr, i ≠ .dump wdata mbz way idx arr) → exec i s = .next s' →
      ∃ t', exec i t = .next t' ∧ sameBelowTlb s' t' ∧ t'.answer = s'.answer

/-! ### The caches (spec/44_cache.md) -/

/-- R192: the ageing rule, way by way, and its two corner cases. -/
def Obligations.AgeingRule : Prop :=
  ∀ (ways : Nat) (set : List CacheEntry) (w : Nat) (m : CacheEntry), set[w]? = some m →
    (ageOnHit ways set w).length = set.length ∧
      (ageOnHit ways set w)[w]? = some { m with age := 0 } ∧
      (∀ (u : Nat) (e : CacheEntry), u ≠ w → set[u]? = some e →
        (ageOnHit ways set w)[u]? =
          some (if e.valid = true ∧ e.age < ways - 1 ∧ e.age < m.age then { e with age := e.age + 1 } else e)) ∧
      (m.age = 0 → ageOnHit ways set w = set) ∧
      (ways = 1 → m.age < ways → ageOnHit ways set w = set)

/-- Section 3, cold-fill (decision D16): the lowest-numbered invalid way takes the whole new entry at age 0, every other way
of the set is bumped, valid or not, up to the cap, other sets are untouched, and there is no victim. -/
def Obligations.ColdFillRule : Prop :=
  ∀ (g : Geometry) (cache : CacheArray) (paddr : PAddr) (line : Line) (set : List CacheEntry) (w : Nat) (e : CacheEntry),
    cache[lineIndex g paddr]? = some set → set[w]? = some e → e.valid = false →
      (∀ (u : Nat) (f : CacheEntry), u < w → set[u]? = some f → f.valid = true) →
      (cacheInstall g cache paddr line).2 = none ∧
        ∃ new, (cacheInstall g cache paddr line).1 = cache.set (lineIndex g paddr) new ∧ new.length = set.length ∧
          new[w]? = some { valid := true, age := 0, tag := cacheTag g paddr, words := line } ∧
          ∀ (u : Nat) (f : CacheEntry), u ≠ w → set[u]? = some f →
            new[u]? = some { f with age := min (f.age + 1) (g.ways - 1) }

/-- R195: with every way valid, the lowest-numbered way of maximum age is overwritten whole, its line is the victim, and
the others age as on a hit whose prior age is the victim's. -/
def Obligations.EvictionRule : Prop :=
  ∀ (g : Geometry) (cache : CacheArray) (paddr : PAddr) (line : Line) (set : List CacheEntry) (w : Nat) (victim : CacheEntry),
    cache[lineIndex g paddr]? = some set → (∀ e ∈ set, e.valid = true) → set[w]? = some victim →
      (∀ e ∈ set, e.age ≤ victim.age) →
      (∀ (u : Nat) (e : CacheEntry), u < w → set[u]? = some e → e.age < victim.age) →
      (cacheInstall g cache paddr line).2 =
          some { addr := lineAddress g (lineIndex g paddr) victim.tag, line := victim.words } ∧
        ∃ new, (cacheInstall g cache paddr line).1 = cache.set (lineIndex g paddr) new ∧ new.length = set.length ∧
          new[w]? = some { valid := true, age := 0, tag := cacheTag g paddr, words := line } ∧
          ∀ (u : Nat) (e : CacheEntry), u ≠ w → set[u]? = some e →
            new[u]? = some (if e.age < g.ways - 1 ∧ e.age < victim.age then { e with age := e.age + 1 } else e)

/-- Sections 1 and 3 (derived there): tag, line index, word select and byte index tile a physical address, and the line
address inverts the decomposition. -/
def Obligations.CacheAddressFieldsTile : Prop :=
  ∀ g : Geometry, g.bits ≤ 28 →
    (∀ paddr : PAddr,
      paddr.toNat = (cacheTag g paddr).toNat * 2 ^ (g.bits + 4) + lineIndex g paddr * 16 +
          (wordSelect paddr).val * 4 + byteIndex paddr ∧
        lineIndex g paddr < 2 ^ g.bits ∧ byteIndex paddr < 4 ∧
        lineBase paddr = (lineAddress g (lineIndex g paddr) (cacheTag g paddr)).toNat) ∧
    (∀ (i : Nat) (tag : BitVec 32), i < 2 ^ g.bits → tag.toNat < 2 ^ (28 - g.bits) →
      lineIndex g (lineAddress g i tag) = i ∧ cacheTag g (lineAddress g i tag) = tag ∧
        (lineAddress g i tag).toNat % 16 = 0)

/-- Section 5 (derived there): after an access that answers `OK`, the line of the physical address reached is valid in the
L1 array of the request's kind. -/
def Obligations.AccessLeavesTheLineInL1 : Prop :=
  ∀ (i : Instr) (k : AccessKind) (vaddr : VAddr) (s t : State), s.wf → accessOf i = some (k, vaddr) →
    exec i s = .next t → t.status = some .ok →
      ∃ a p w line, decomposeVirtual vaddr = .ok a ∧ translation s k a = .ok p ∧
        holdsLine (l1Geometry t.cfg) (t.l1 k) (composePhysical p) w line

/-- spec/10_state.md section 7 items 5, 6 and 7 under the separation duty of spec/70_reset_and_hazards.md section 3 (derived
there): a step keeps held lines equal to memory, the two levels exclusive and the ways of a set distinct. -/
def Obligations.CachesStayCoherent : Prop :=
  ∀ (isCode : LineClass) (s t : State), s.wf → cachesCoherent isCode s →
    (∀ w rest, s.requests = w :: rest → obeysSeparation isCode s (decode w)) → step s = .next t →
      cachesCoherent isCode t

/-- spec/20_memory.md section 8 (b) under the same duties (derived): over coherent caches a read that answers `OK` returns
what memory holds at the physical address reached. -/
def Obligations.CoherentReadsReturnMemory : Prop :=
  ∀ (isCode : LineClass) (s t : State) (k : AccessKind) (vaddr : VAddr) (a : VirtualAddress) (p : PhysicalAddress)
    (r : Response), s.wf → cachesCoherent isCode s → decomposeVirtual vaddr = .ok a → translation s k a = .ok p →
      t.response = some r → r.status = .ok →
      (exec (readWordRequest k vaddr) s = .next t → r.data = memRead s.mem (composePhysical p).toNat) ∧
        (exec (readByteRequest k vaddr) s = .next t →
          r.data = (memByte s.mem (composePhysical p).toNat).setWidth 32)

/-- The source's scenario S8 at the request interface (spec/95_test_vectors.md part 1; derived in spec/44_cache.md section
8): after a word write that answers `OK`, reading it back hits the TLB and L1-D and returns the value, and each of its four
bytes reads in little-endian order. -/
def Obligations.WriteThenReadReturnsTheValue : Prop :=
  ∀ (s t : State) (v : Word) (vaddr : VAddr), s.wf → exec (.wrwD v vaddr) s = .next t → t.status = some .ok →
    (∃ u, exec (.rdwD 0 vaddr) t = .next u ∧ u.response = some (Response.access true .l1 v)) ∧
      ∀ j < 4, ∃ u, exec (.rdbD 0 (vaddr + BitVec.ofNat 64 j)) t = .next u ∧
        u.response = some (Response.access true .l1 ((v.extractLsb' (8 * j) 8).setWidth 32))

/-- spec/20_memory.md section 8; that the merged word of a byte write is the one a cached data read serves is decision D20 of
spec/44_cache.md section 7 (log 14): after a write that answers `OK`, memory holds the written word, or for a byte write the word a data read would
have served with the one byte merged in, whichever level served it; nothing is written back, so no other byte changes. -/
def Obligations.WriteThroughReachesMemory : Prop :=
  ∀ (s t : State) (v : Word) (vaddr : VAddr) (a : VirtualAddress) (p : PhysicalAddress), Memory.wf s.mem →
    decomposeVirtual vaddr = .ok a → translation s .data a = .ok p → t.status = some .ok →
    (exec (.wrwD v vaddr) s = .next t →
      memRead t.mem (composePhysical p).toNat = v ∧
        ∀ b, (b < (composePhysical p).toNat ∨ (composePhysical p).toNat + 4 ≤ b) → memByte t.mem b = memByte s.mem b) ∧
    (exec (.wrbD v vaddr) s = .next t →
      (∃ level line, lineServed s .data (composePhysical p) = .ok (level, line) ∧
        memRead t.mem (wordAligned (composePhysical p)).toNat =
          mergeByte (line.get (wordSelect (composePhysical p))) (v.extractLsb' 0 8) (composePhysical p)) ∧
        ∀ b, (b < (wordAligned (composePhysical p)).toNat ∨ (wordAligned (composePhysical p)).toNat + 4 ≤ b) →
          memByte t.mem b = memByte s.mem b)

/-- Sections 4 to 7 (decisions D18, D20): the frame of an access that reaches a physical address. The other kind's L1 array is
untouched, in its own L1 array only the set of the address can change, and `L2` does not change on an L1 hit and
otherwise only in the set of the address and in the set of the L1 victim. -/
def Obligations.AccessTouchesOneSetPerLevel : Prop :=
  ∀ (i : Instr) (k : AccessKind) (vaddr : VAddr) (a : VirtualAddress) (p : PhysicalAddress) (s t : State), s.wf →
    accessOf i = some (k, vaddr) → decomposeVirtual vaddr = .ok a → translation s k a = .ok p → exec i s = .next t →
      t.l1 k.other = s.l1 k.other ∧
        (∀ j, j ≠ lineIndex (l1Geometry s.cfg) (composePhysical p) → cacheSet (t.l1 k) j = cacheSet (s.l1 k) j) ∧
        (∀ w, cacheProbe (l1Geometry s.cfg) (s.l1 k) (composePhysical p) = some w → t.l2 = s.l2) ∧
        (∀ j, j ≠ lineIndex (l2Geometry s.cfg) (composePhysical p) →
          (∀ v, (cacheInstall (l1Geometry s.cfg) (s.l1 k) (composePhysical p) Line.zero).2 = some v →
            j ≠ lineIndex (l2Geometry s.cfg) v.addr) →
          cacheSet t.l2 j = cacheSet s.l2 j)

/-- Sections 2 and 4 to 7 (decisions D15, D16, D18, D20): what an access that answers `OK` leaves in the L1 array of its kind
and in `L2`, and the level and line that served it. On an L1 hit the set is aged and the line stored, `L2` untouched; on
an L2 hit the `L2` set is aged, its way loses `valid`, the line is installed in L1; on a miss in both the line comes from
memory. The line an L1 install displaces goes into `L2`. -/
def Obligations.AccessMovesTheLine : Prop :=
  ∀ (i : Instr) (k : AccessKind) (vaddr : VAddr) (a : VirtualAddress) (p : PhysicalAddress) (s t : State), s.wf →
    accessOf i = some (k, vaddr) → decomposeVirtual vaddr = .ok a → translation s k a = .ok p → exec i s = .next t →
    t.status = some .ok →
    let paddr := composePhysical p
    let g1 := l1Geometry s.cfg
    let g2 := l2Geometry s.cfg
    let set1 := cacheSet (s.l1 k) (lineIndex g1 paddr)
    let set2 := cacheSet s.l2 (lineIndex g2 paddr)
    (∀ w e, firstMatch g1 (s.l1 k) paddr w e →
        lineServed s k paddr = .ok (.l1, e.words) ∧
          t.l1 k = (s.l1 k).set (lineIndex g1 paddr)
            ((ageOnHit g1.ways set1 w).set w { e with age := 0, words := storedLine i paddr e.words }) ∧
          t.l2 = s.l2) ∧
      (∀ w e, noMatch g1 (s.l1 k) paddr → firstMatch g2 s.l2 paddr w e →
        lineServed s k paddr = .ok (.l2, e.words) ∧
          t.l1 k = (cacheInstall g1 (s.l1 k) paddr (storedLine i paddr e.words)).1 ∧
          t.l2 = takeVictim g2
            (s.l2.set (lineIndex g2 paddr)
              ((ageOnHit g2.ways set2 w).set w
                { e with valid := false, age := 0, words := lineLeftBehind i paddr e.words }))
            (cacheInstall g1 (s.l1 k) paddr (storedLine i paddr e.words)).2) ∧
      (noMatch g1 (s.l1 k) paddr → noMatch g2 s.l2 paddr →
        lineServed s k paddr = .ok (.mem, memReadLine s.mem (lineBase paddr)) ∧
          t.l1 k = (cacheInstall g1 (s.l1 k) paddr
            (storedLine i paddr (memReadLine s.mem (lineBase paddr)))).1 ∧
          t.l2 = takeVictim g2 s.l2
            (cacheInstall g1 (s.l1 k) paddr (storedLine i paddr (memReadLine s.mem (lineBase paddr)))).2)

/-! ### The requests (spec/45_access.md) -/

/-- Section 2, `RDW.I` and `RDW.D`: with an aligned address below 2^48 whose translation and line exist, a word read
completes: the word of the line that serves it, its level and the TLB's hit are answered; no byte of memory changes, and
the TLB state is what `tlb_service` leaves. The caches' frame is `AccessTouchesOneSetPerLevel`. -/
def Obligations.ReadWordCompletes : Prop :=
  ∀ (s : State) (k : AccessKind) (vaddr : VAddr) (a : VirtualAddress) (p : PhysicalAddress) (level : HitLevel)
    (line : Line), decomposeVirtual vaddr = .ok a → translation s k a = .ok p → vaddr.toNat % 4 = 0 →
      lineServed s k (composePhysical p) = .ok (level, line) →
      ∃ t r, exec (readWordRequest k vaddr) s = .next t ∧ tlbService s a k = .ok r ∧
        t.response = some (Response.access (tlbLookup s (virtualPageNumber a) k).1 level
          (line.get (wordSelect (composePhysical p)))) ∧
        t.cfg = s.cfg ∧ t.mem = s.mem ∧ t.requests = s.requests ∧ sameTlb r.state t ∧ t.l1 k.other = s.l1 k.other

/-- Section 2, `RDB.I` and `RDB.D` (`RDB.I` is admitted by decision D21): the same for a byte read at any alignment; the
answer is the byte of the containing word, zero-extended. -/
def Obligations.ReadByteCompletes : Prop :=
  ∀ (s : State) (k : AccessKind) (vaddr : VAddr) (a : VirtualAddress) (p : PhysicalAddress) (level : HitLevel)
    (line : Line), decomposeVirtual vaddr = .ok a → translation s k a = .ok p →
      lineServed s k (composePhysical p) = .ok (level, line) →
      ∃ t r, exec (readByteRequest k vaddr) s = .next t ∧ tlbService s a k = .ok r ∧
        t.response = some (Response.access (tlbLookup s (virtualPageNumber a) k).1 level
          (((line.get (wordSelect (composePhysical p))).extractLsb' (8 * ((composePhysical p).toNat % 4)) 8).setWidth
            32)) ∧
        t.cfg = s.cfg ∧ t.mem = s.mem ∧ t.requests = s.requests ∧ sameTlb r.state t ∧ t.l1 k.other = s.l1 k.other

/-- Section 2, `WRW.D`: with an aligned address below 2^48 whose translation and line exist and whose word lies inside memory,
a word write completes: the answer has data 0, the level where the line was found and the TLB's hit; the word is in
memory, every other byte of memory is unchanged, `L1I` is unchanged. -/
def Obligations.WriteWordCompletes : Prop :=
  ∀ (s : State) (v : Word) (vaddr : VAddr) (a : VirtualAddress) (p : PhysicalAddress) (level : HitLevel) (line : Line),
    Memory.wf s.mem → decomposeVirtual vaddr = .ok a → translation s .data a = .ok p → vaddr.toNat % 4 = 0 →
      (composePhysical p).toNat + 4 ≤ s.cfg.memLen → lineServed s .data (composePhysical p) = .ok (level, line) →
      ∃ t r, exec (.wrwD v vaddr) s = .next t ∧ tlbService s a .data = .ok r ∧
        t.response = some (Response.access (tlbLookup s (virtualPageNumber a) .data).1 level 0) ∧
        memRead t.mem (composePhysical p).toNat = v ∧
        (∀ b, (b < (composePhysical p).toNat ∨ (composePhysical p).toNat + 4 ≤ b) →
          memByte t.mem b = memByte s.mem b) ∧
        t.cfg = s.cfg ∧ t.requests = s.requests ∧ sameTlb r.state t ∧ t.l1i = s.l1i

/-- Section 2, `WRB.D` (decision D20): with an address below 2^48 whose translation and line exist and whose containing word
lies inside memory, a byte write completes: the level is the read half's; of the containing word, the byte addressed is
the byte written and the others are those of the word a data read serves; every other byte of memory is unchanged. -/
def Obligations.WriteByteCompletes : Prop :=
  ∀ (s : State) (v : Word) (vaddr : VAddr) (a : VirtualAddress) (p : PhysicalAddress) (level : HitLevel) (line : Line),
    s.wf → decomposeVirtual vaddr = .ok a → translation s .data a = .ok p → v.toNat < 256 →
      (wordAligned (composePhysical p)).toNat + 4 ≤ s.cfg.memLen →
      lineServed s .data (composePhysical p) = .ok (level, line) →
      ∃ t r, exec (.wrbD v vaddr) s = .next t ∧ tlbService s a .data = .ok r ∧
        t.response = some (Response.access (tlbLookup s (virtualPageNumber a) .data).1 level 0) ∧
        (∀ j < 4, memByte t.mem ((wordAligned (composePhysical p)).toNat + j) =
          if j = (composePhysical p).toNat % 4 then v.extractLsb' 0 8
          else (line.get (wordSelect (composePhysical p))).extractLsb' (8 * j) 8) ∧
        (∀ b, (b < (wordAligned (composePhysical p)).toNat ∨ (wordAligned (composePhysical p)).toNat + 4 ≤ b) →
          memByte t.mem b = memByte s.mem b) ∧
        t.cfg = s.cfg ∧ t.requests = s.requests ∧ sameTlb r.state t ∧ t.l1i = s.l1i

/-- Section 3, `XLATE` (decision D31): with an address below 2^48 whose walk succeeds, it completes with the flat physical
address, and nothing but the response changes. -/
def Obligations.XlateCompletes : Prop :=
  ∀ (s : State) (vaddr : VAddr) (a : VirtualAddress) (p : PhysicalAddress), decomposeVirtual vaddr = .ok a →
    walk s.cfg.memLen s.mem a = .ok p →
      exec (.xlate 0 vaddr) s = .next (s.respond
        { status := .ok, tlbHit := false, level := .none, data := composePhysical p, dump := DumpPayload.zero })

/-- Section 3 (decision D31): `XLATE` answers from memory alone: whatever the TLB, the eviction list and the caches hold, the
response is the same. -/
def Obligations.XlateIgnoresTlbAndCaches : Prop :=
  ∀ (s t s' t' : State) (wdata : Word) (vaddr : VAddr), t.mem = s.mem → t.cfg.memLen = s.cfg.memLen →
    exec (.xlate wdata vaddr) s = .next s' → exec (.xlate wdata vaddr) t = .next t' → t'.response = s'.response

/-- Section 4 and spec/30_encoding.md section 7 (decision D28): `DUMP` of an existing entry of each array completes with that
entry's fields, invalid entries included, `data` equal to `w0`, and nothing but the response changes. Of a token of `2^32` or
more nothing is said but that the request completes with some `w0` (the free value of log 18). -/
def Obligations.DumpReturnsTheSelectedEntry : Prop :=
  ∀ (s : State) (idx : BitVec 32) (way : BitVec 8),
    (∀ (arr : BitVec 4) (cache : CacheArray) (g : Geometry) (set : List CacheEntry) (e : CacheEntry),
      (arr = 4 ∧ cache = s.l1i ∧ g = l1Geometry s.cfg ∨ arr = 5 ∧ cache = s.l1d ∧ g = l1Geometry s.cfg ∨
        arr = 6 ∧ cache = s.l2 ∧ g = l2Geometry s.cfg) →
      idx.toNat < 2 ^ g.bits → way.toNat < g.ways → cache[idx.toNat]? = some set → set[way.toNat]? = some e →
      exec (.dump 0 0 way idx arr) s = .next (s.respond
        { status := .ok, tlbHit := false, level := .none, data := e.words.w0
          dump := { valid := e.valid, age := e.age, tag := e.tag.setWidth 36, w0 := e.words.w0, w1 := e.words.w1
                    w2 := e.words.w2, w3 := e.words.w3 } })) ∧
    (∀ (arr : BitVec 4) (x : List TlbEntry) (org : TlbOrg) (size : Nat) (e : TlbEntry),
      (arr = 0 ∧ x = s.tlb ∧ org = .fa ∧ size = s.cfg.tlbLines ∨
        arr = 1 ∧ x = s.itlb ∧ org = .hier ∧ size = s.cfg.l1TlbLines ∨
        arr = 2 ∧ x = s.dtlb ∧ org = .hier ∧ size = s.cfg.l1TlbLines ∨
        arr = 3 ∧ x = s.tlb2 ∧ org = .hier ∧ size = s.cfg.l2TlbLines) →
      s.cfg.org = org → idx.toNat < size → x[idx.toNat]? = some e →
      exec (.dump 0 0 0 idx arr) s = .next (s.respond
        { status := .ok, tlbHit := false, level := .none, data := e.pfn.setWidth 32
          dump := { valid := e.valid, age := 0, tag := e.tag, w0 := e.pfn.setWidth 32, w1 := 0, w2 := 0, w3 := 0 } })) ∧
    (∀ t : Nat, s.cfg.org = .fa → idx.toNat < s.cfg.tlbLines → s.lru[idx.toNat]? = some t →
      ∃ w0 : Word, (t < 2 ^ 32 → w0.toNat = t) ∧
        exec (.dump 0 0 0 idx 7) s = .next (s.respond
          { status := .ok, tlbHit := false, level := .none, data := w0
            dump := { valid := true, age := 0, tag := 0, w0 := w0, w1 := 0, w2 := 0, w3 := 0 } }))

/-- Section 4 (decision D28): a `DUMP` whose selector names a reserved array, an array of the organisation that is not
built, an index beyond the array or a way it does not have is answered with `BadParameter`, and nothing else changes. -/
def Obligations.DumpRefusesBadSelectors : Prop :=
  ∀ (s : State) (wdata : Word) (mbz : BitVec 20) (way : BitVec 8) (idx : BitVec 32) (arr : BitVec 4),
    (wdata ≠ 0 ∨ mbz ≠ 0 ∨ 8 ≤ arr.toNat ∨
      (s.cfg.org = .hier ∧ (arr = 0 ∨ arr = 7)) ∨ (s.cfg.org = .fa ∧ (arr = 1 ∨ arr = 2 ∨ arr = 3)) ∨
      ((arr = 0 ∨ arr = 7) ∧ s.cfg.tlbLines ≤ idx.toNat) ∨
      ((arr = 1 ∨ arr = 2) ∧ 2 ^ s.cfg.l1tBits ≤ idx.toNat) ∨ (arr = 3 ∧ 2 ^ s.cfg.l2tBits ≤ idx.toNat) ∨
      ((arr = 4 ∨ arr = 5) ∧ (2 ^ s.cfg.l1cBits ≤ idx.toNat ∨ s.cfg.l1Ways ≤ way.toNat)) ∨
      (arr = 6 ∧ (2 ^ s.cfg.l2cBits ≤ idx.toNat ∨ s.cfg.l2Ways ≤ way.toNat)) ∨
      ((arr = 0 ∨ arr = 1 ∨ arr = 2 ∨ arr = 3 ∨ arr = 7) ∧ way ≠ 0)) →
    exec (.dump wdata mbz way idx arr) s = .next (s.raise .badParameter)

/-! ### Errors (spec/60_exceptions.md) -/

/-- Section 2 (decision D25): an access whose page is in no TLB array of its kind, and whose walk fails, answers the walk's
error and leaves the whole state as it was; so does `XLATE` whatever the TLB holds. -/
def Obligations.TranslationErrorsLeaveTheState : Prop :=
  ∀ (s : State) (vaddr : VAddr) (a : VirtualAddress) (e : ErrorKind), decomposeVirtual vaddr = .ok a →
    walk s.cfg.memLen s.mem a = .error e →
      (∀ (i : Instr) (k : AccessKind), i.wellFormed = true → accessOf i = some (k, vaddr) →
        (tlbLookup s (virtualPageNumber a) k).1 = false → exec i s = .next (s.raise e)) ∧
      exec (.xlate 0 vaddr) s = .next (s.raise e)

/-- Section 2 (decision D25): an error of the cache stage leaves what the TLB stage wrote and nothing else: a misaligned word
access is `BadParameter` wherever its line lies, a line outside memory that no level holds is `OutOfBounds`, and so is a
word write whose word is outside memory. -/
def Obligations.CacheStageErrorsKeepTheTlbStage : Prop :=
  ∀ (s : State) (k : AccessKind) (vaddr : VAddr) (a : VirtualAddress) (r : Translated), decomposeVirtual vaddr = .ok a →
    tlbService s a k = .ok r →
      (vaddr.toNat % 4 ≠ 0 → exec (readWordRequest k vaddr) s = .next (r.state.raise .badParameter)) ∧
      (∀ v, k = .data → vaddr.toNat % 4 ≠ 0 → exec (.wrwD v vaddr) s = .next (r.state.raise .badParameter)) ∧
      (∀ v, k = .data → vaddr.toNat % 4 = 0 → s.cfg.memLen < (composePhysical r.phys).toNat + 4 →
        exec (.wrwD v vaddr) s = .next (r.state.raise .outOfBounds)) ∧
      (∀ e, lineServed s k (composePhysical r.phys) = .error e →
        e = .outOfBounds ∧ exec (readByteRequest k vaddr) s = .next (r.state.raise .outOfBounds) ∧
          (vaddr.toNat % 4 = 0 → exec (readWordRequest k vaddr) s = .next (r.state.raise .outOfBounds)) ∧
          (∀ v : Word, k = .data → v.toNat < 256 → exec (.wrbD v vaddr) s = .next (r.state.raise .outOfBounds)) ∧
          (∀ v, k = .data → vaddr.toNat % 4 = 0 → exec (.wrwD v vaddr) s = .next (r.state.raise .outOfBounds)))

/-- spec/10_state.md section 8: memory is written by the two write requests and by nothing else. -/
def Obligations.OnlyWritesChangeMemory : Prop :=
  ∀ s t : State, (∀ w rest, s.requests = w :: rest → isWrite (decode w) = false) → step s = .next t → t.mem = s.mem

/-- Sections 1 and 2 and spec/45_access.md sections 2 to 4: a request that is no access changes nothing but the response. -/
def Obligations.InspectionChangesOnlyTheResponse : Prop :=
  ∀ (i : Instr) (s t : State), accessOf i = none → exec i s = .next t → ∃ r, t = s.respond r

/-- Section 1 and spec/30_encoding.md section 2 (decision D23): every request is answered; an answer with an error status is
`BadParameter` or `OutOfBounds`, never another kind, and all its other fields are 0. -/
def Obligations.ErrorResponsesCarryNothingElse : Prop :=
  ∀ (i : Instr) (s t : State), exec i s = .next t → ∃ r, t.response = some r ∧
    ∀ e, r.status = .error e → (e = .badParameter ∨ e = .outOfBounds) ∧
      r = { status := .error e, tlbHit := false, level := .none, data := 0, dump := DumpPayload.zero }

/-! ### Reset and the invariants (spec/70_reset_and_hazards.md section 1, spec/10_state.md section 7) -/

/-- Section 1 (decision D26): for every admitted choice of build parameters and every loaded memory, the reset state is
well-formed, its eviction list is the identity order, and it satisfies every invariant; `State.reset`, whose parameters and
memory are the model's choice (logs 2 and 3), is one of them; and the reset event leaves memory as it is. -/
def Obligations.ResetStateSatisfiesTheInvariants : Prop :=
  (∀ (c : Config) (m : Memory), c.valid = true → Memory.wf m → Memory.inside m c.memLen →
    (State.resetWith c m).wf ∧ tlbTagsUnique (State.resetWith c m) ∧ tlbInclusive (State.resetWith c m) ∧
      tlbFaithful (State.resetWith c m) ∧ (∀ isCode, cachesCoherent isCode (State.resetWith c m)) ∧
      (State.resetWith c m).mem = m ∧ (c.org = .fa → (State.resetWith c m).lru = List.range c.tlbLines)) ∧
    (Config.suggested.valid = true ∧ State.reset = State.resetWith Config.suggested []) ∧
    (∀ s : State, s.hardReset.mem = s.mem ∧ s.hardReset.cfg = s.cfg)

/-- spec/10_state.md sections 2 to 7: a step keeps the state well-formed: memory canonical and inside its length, the
eviction list a permutation of the tokens, every array at its size, every tag within its width, every age below the number
of ways. -/
def Obligations.StepKeepsWellFormedStates : Prop := ∀ s t : State, s.wf → step s = .next t → t.wf
end

