-- ==== Sys2Proof/Tests/Slice0.lean ====
section
/-! SUPPORT. The model's own tests: decoding and well-formedness, the worked examples of the spec, one step of every request
(expected values from the examples of spec/40_address_codec.md to spec/45_access.md, or computed by hand from the rule
named), and for every statement with hypotheses a state and operands that meet them. -/

namespace Sys2Proof.Tests

open Sys2Proof Sys2Proof.Machine

set_option Elab.async false

/-! ### Well-formedness: each check refuses an ill-formed request -/

theorem test_wf_rdbI_wdata : (Instr.rdbI 1 0).wellFormed = false := by decide
theorem test_wf_rdbI_vaddr : (Instr.rdbI 0 0x1000000000000).wellFormed = false := by decide
theorem test_wf_rdwI_wdata : (Instr.rdwI 0x80000000 0).wellFormed = false := by decide
theorem test_wf_rdwI_vaddr : (Instr.rdwI 0 0x8000000000000000).wellFormed = false := by decide
theorem test_wf_rdbD_wdata : (Instr.rdbD 1 0).wellFormed = false := by decide
theorem test_wf_rdbD_vaddr : (Instr.rdbD 0 0x1000000000000).wellFormed = false := by decide
theorem test_wf_rdwD_wdata : (Instr.rdwD 1 0).wellFormed = false := by decide
theorem test_wf_rdwD_vaddr : (Instr.rdwD 0 0x1000000000000).wellFormed = false := by decide
theorem test_wf_illegal : (Instr.illegalWrI 1 0 0).wellFormed = false := by decide
theorem test_wf_wrbD_wdata : (Instr.wrbD 0x100 0).wellFormed = false := by decide
theorem test_wf_wrbD_vaddr : (Instr.wrbD 0xFF 0x1000000000000).wellFormed = false := by decide
theorem test_wf_wrwD_vaddr : (Instr.wrwD 0xFFFFFFFF 0x1000000000000).wellFormed = false := by decide
theorem test_wf_xlate_wdata : (Instr.xlate 1 0).wellFormed = false := by decide
theorem test_wf_xlate_vaddr : (Instr.xlate 0 0x1000000000000).wellFormed = false := by decide
theorem test_wf_dump_wdata : (Instr.dump 1 0 0 0 0).wellFormed = false := by decide
theorem test_wf_dump_mbz : (Instr.dump 0 1 0 0 0).wellFormed = false := by decide
theorem test_wf_dump_arr : (Instr.dump 0 0 0 0 8).wellFormed = false := by decide
theorem test_wf_reserved101x : (Instr.reserved101x 0 0 0).wellFormed = false := by decide
theorem test_wf_reserved11xx : (Instr.reserved11xx 3 0 0).wellFormed = false := by decide

/-- The largest operands that are well-formed. -/
theorem test_wf_accepts : (Instr.wrbD 0xFF 0xFFFFFFFFFFFF).wellFormed = true ∧
    (Instr.wrwD 0xFFFFFFFF 0xFFFFFFFFFFFF).wellFormed = true ∧ (Instr.rdbI 0 0xFFFFFFFFFFFF).wellFormed = true ∧
    (Instr.dump 0 0 0xFF 0xFFFFFFFF 7).wellFormed = true := by decide

/-! ### Decoding: words laid out as R81, R82 and R97 lay them out: `cmd`, then 8 digits of `wdata`, then 16 of `vaddr` -/

theorem test_decode_rdbI : decode (0b0000#4 ++ 0x00000000#32 ++ 0x0000000000000013#64) = .rdbI 0 0x13 := by decide
theorem test_decode_rdwI : decode 0x1000000000000000000000010#100 = .rdwI 0 0x10 := by decide
theorem test_decode_rdbD : decode 0x2000000000000000000000023#100 = .rdbD 0 0x23 := by decide
theorem test_decode_rdwD : decode 0x3000000000000000000000020#100 = .rdwD 0 0x20 := by decide
theorem test_decode_illegal_byte : decode 0x4000000AB8000000000000001#100 = .illegalWrI 0 0xAB 0x8000000000000001 := by
  decide
theorem test_decode_illegal_word : decode 0x5FFFFFFFF0000000000000000#100 = .illegalWrI 1 0xFFFFFFFF 0 := by decide
theorem test_decode_wrbD : decode 0x6000000110000000000000022#100 = .wrbD 0x11 0x22 := by decide
theorem test_decode_wrwD : decode 0x7DEADBEEF0000000000000020#100 = .wrwD 0xDEADBEEF 0x20 := by decide
theorem test_decode_xlate : decode 0x8000000000000008080604005#100 = .xlate 0 0x8080604005 := by decide
/-- `DUMP L1D, 2, 1`: `arr` 5 in bits 3:0, `idx` 2 in bits 35:4, `way` 1 in bits 43:36. -/
theorem test_decode_dump : decode 0x9000000000000001000000025#100 = .dump 0 0 1 2 5 := by decide
/-- The lowest must-be-zero bit of the selector is bit 44, the highest `way` bit is bit 43. -/
theorem test_decode_dump_fields : decode 0x9000000000000180000000000#100 = .dump 0 1 0x80 0 0 := by decide
theorem test_decode_reserved101x : decode 0xB000000000000000000000007#100 = .reserved101x 1 0 7 := by decide
theorem test_decode_reserved11xx : decode 0xD000000000000000000000007#100 = .reserved11xx 1 0 7 := by decide
theorem test_table_word : decodeTableWord 104 0x3000000000000000000000020 = some (.rdwD 0 0x20) := by decide
theorem test_table_word_wide : decodeTableWord 104 0x10000000000000000000000000 = none := by decide

/-! ### The components on the spec's worked examples -/

/-- R111. -/
theorem test_decompose : decomposeVirtual 0x000080402010_0ABC =
    .ok { top := 0x100, upper := 0x100, middle := 0x100, lower := 0x100, offset := 0xABC } := by decide

/-- R112 and R113. -/
theorem test_compose : composeVirtual { top := 1, upper := 2, middle := 3, lower := 4, offset := 5 } = 0x8080604005 ∧
    virtualPageNumber { top := 1, upper := 2, middle := 3, lower := 4, offset := 5 } = 0x8080604 := by decide

/-- R118. -/
theorem test_physicalFromBase : physicalFromBase 0x3000 0x010 = .ok { pfn := 3, offset := 0x010 } ∧
    physicalFromBase 0x3004 0 = .error .badParameter := by decide

/-- R147 to R153. -/
theorem test_list : listInit 4 = [0, 1, 2, 3] ∧ pushBack [0, 1] 2 = [0, 1, 2] ∧ pushFront [0, 1] 2 = [2, 0, 1] ∧
    popBack [0, 1, 2] = some (2, [0, 1]) ∧ popFront [0, 1, 2] = some (0, [1, 2]) ∧
    moveToBack [0, 1, 2, 3] 1 = [0, 2, 3, 1] ∧ front [2, 0, 1] = some 2 := by decide

/-- R190, `LINES = 64`. -/
theorem test_fields : lineIndex { bits := 6, ways := 4 } 0x1234 = 0x23 ∧ cacheTag { bits := 6, ways := 4 } 0x1234 = 4 ∧
    wordSelect 0x1234 = 1 ∧ byteIndex 0x1234 = 0 ∧ lineBase 0x1234 = 0x1230 := by decide

/-- A set of valid ways with these ages, the tags counting up. -/
def setOfAges (ages : List Nat) : List CacheEntry :=
  ages.zipIdx.map (fun a => { valid := true, age := a.1, tag := BitVec.ofNat 32 a.2, words := Line.zero })

/-- R192. -/
theorem test_ageing : (ageOnHit 4 (setOfAges [2, 0, 3, 1]) 0).map CacheEntry.age = [0, 1, 3, 2] := by decide

/-- R194: the second and the fourth install of the example. -/
theorem test_coldFill : ((coldFill 4 (List.replicate 4 CacheEntry.reset) 0 7 Line.zero).map CacheEntry.age = [0, 1, 1, 1]) ∧
    freeWay (coldFill 4 (List.replicate 4 CacheEntry.reset) 0 7 Line.zero) = some 1 := by decide

/-- R195: way 0 of age 3 is the victim. -/
theorem test_evict : oldestWay (setOfAges [3, 2, 1, 0]) = 0 ∧
    (evictFill 4 (setOfAges [3, 2, 1, 0]) 0 9 Line.zero).map CacheEntry.age = [0, 3, 2, 1] := by decide

/-- R219's example through `mergeByte`, and R214's through `byteOf`. -/
theorem test_bytes : mergeByte 0xDEADBEEF 0x11 0x1002 = 0xDE11BEEF ∧ byteOf 0xDEADBEEF 0x1000 = 0xEF ∧
    byteOf 0xDEADBEEF 0x1003 = 0xDE := by decide

/-! ### States to test on -/

/-- Page tables in the manner of R138: tables at `0x0000`, `0x1000`, `0x2000`, `0x3000`. Pages 0, 4, 9 and `0x8080604` go to frame 4,
page 1 has the misaligned entry `0x0004`, page 2 goes to frame `0x10`, the others to frame 0. The word at `0x4010` is
`0x12345678`. -/
def image : Memory :=
  [(0x0001, 0x10), (0x0005, 0x10), (0x1001, 0x20), (0x1009, 0x20), (0x2001, 0x30), (0x200D, 0x30), (0x3001, 0x40),
    (0x3004, 0x04), (0x300A, 0x01), (0x3011, 0x40), (0x3025, 0x40), (0x4010, 0x78), (0x4011, 0x56), (0x4012, 0x34),
    (0x4013, 0x12)]

/-- The suggested sizes over `image`. -/
def boot : State := State.resetWith { Config.suggested with memLen := 0x5000 } image

/-- A small machine of organisation FA. -/
def smallConfig : Config where
  org := .fa
  tlbLines := 4
  l1tBits := 1
  l2tBits := 2
  l1cBits := 1
  l1Ways := 2
  l2cBits := 1
  l2Ways := 2
  memLen := 0x5000

/-- A small machine of organisation FA over `image`. -/
def smallFa : State := State.resetWith smallConfig image

/-- A small machine of organisation HIER over `image`. -/
def smallHier : State := State.resetWith { smallConfig with org := .hier } image

/-- The state after a request. -/
def after (i : Instr) (s : State) : State :=
  match exec i s with
  | .next t => t
  | .fault _ => s
  | .refused _ => s

/-- The state after a step. -/
def stepped (s : State) : State :=
  match step s with
  | .next t => t
  | .fault _ => s
  | .refused _ => s

theorem exec_after (i : Instr) (s : State) : exec i s = .next (after i s) := by
  obtain ⟨t, h⟩ := exec_eq_next i s
  simp [after, h]

theorem step_stepped (s : State) (h : s.cfg.valid = true) : step s = .next (stepped s) := by
  rcases step_cases s with ⟨hv, -⟩ | ⟨-, -, hs⟩ | ⟨w, rest, -, -, hs⟩
  · simp [h] at hv
  · simp [stepped, hs]
  · obtain ⟨t, ht⟩ := exec_eq_next (decode w) { s with requests := rest }
    simp [stepped, hs, ht]

/-- `WRW.D 0x20, 0xDEADBEEF` has been served. -/
def written : State := after (.wrwD 0xDEADBEEF 0x20) boot

/-- A FA machine holding page `0x8080604` in entry 2, the state of R162's example. -/
def faHolding : State :=
  { smallFa with
    tlb := [TlbEntry.reset, TlbEntry.reset, TlbEntry.installed 0x8080604 4, TlbEntry.reset]
    lru := [3, 0, 2, 1] }

/-- A HIER machine whose `TLB2` and `DTLB` hold page 5, the state of R169's example. -/
def hierHolding : State :=
  { smallHier with
    dtlb := [TlbEntry.reset, TlbEntry.installed 2 4]
    tlb2 := [TlbEntry.reset, TlbEntry.installed 1 4, TlbEntry.reset, TlbEntry.reset] }

/-- The codec's view of an address below 2^48. -/
def va (top upper middle lower : BitVec 9) (offset : BitVec 12) : VirtualAddress where
  top := top
  upper := upper
  middle := middle
  lower := lower
  offset := offset

/-! ### One step of every request -/

theorem test_rdwI : (after (.rdwI 0 0x10) boot).response = some (Response.access false .mem 0x12345678) ∧
    (after (.rdwI 0 0x10) boot).l1d = boot.l1d := by decide +kernel

/-- R257: the misaligned word read keeps the translation it installed. -/
theorem test_rdwI_misaligned : (after (.rdwI 0 0x12) boot).response = some (Response.error .badParameter) ∧
    (after (.rdwI 0 0x12) boot).tlb.head? = some { valid := true, tag := 0, pfn := 4 } := by decide +kernel

/-- R232. -/
theorem test_rdwD : (after (.rdwD 0 0x20) written).response = some (Response.access true .l1 0xDEADBEEF) := by
  decide +kernel

/-- R253 cause 2: page 2 leads outside memory. -/
theorem test_rdwD_outside : (after (.rdwD 0 0x2000) boot).response = some (Response.error .outOfBounds) := by
  decide +kernel

theorem test_rdbI : (after (.rdbI 0 0x11) boot).response = some (Response.access false .mem 0x56) := by decide +kernel

/-- The kind selects the array: an instruction read does not see `L1D`'s line and fills from memory. -/
theorem test_rdbI_kind : (after (.rdbI 0 0x23) written).response = some (Response.access true .mem 0xDE) := by
  decide +kernel

/-- R234. -/
theorem test_rdbD : (after (.rdbD 0 0x20) written).response = some (Response.access true .l1 0xEF) := by decide +kernel

/-- R234. -/
theorem test_rdbD_high : (after (.rdbD 0 0x23) written).response = some (Response.access true .l1 0xDE) := by
  decide +kernel

/-- R235. -/
theorem test_wrwD : written.response = some (Response.access false .mem 0) ∧
    [memByte written.mem 0x4020, memByte written.mem 0x4021, memByte written.mem 0x4022, memByte written.mem 0x4023] =
      [0xEF, 0xBE, 0xAD, 0xDE] := by decide +kernel

/-- R253 cause 3. -/
theorem test_wrwD_outside : (after (.wrwD 1 0x2000) boot).response = some (Response.error .outOfBounds) ∧
    (after (.wrwD 1 0x2000) boot).mem = image := by decide +kernel

/-- R236. -/
theorem test_wrbD : (after (.wrbD 0x11 0x22) written).response = some (Response.access true .l1 0) ∧
    memRead (after (.wrbD 0x11 0x22) written).mem 0x4020 = 0xDE11BEEF := by decide +kernel

/-- R230 check 4. -/
theorem test_wrbD_wide : (after (.wrbD 0x100 0x22) boot).response = some (Response.error .badParameter) := by
  decide +kernel

/-- R238. -/
theorem test_xlate : (after (.xlate 0 0x8080604005) boot).response = some (Response.translation 0x4005) ∧
    (after (.xlate 0 0x8080604005) boot).tlb = boot.tlb := by decide +kernel

/-- R135: a level-4 entry that is not page-aligned. -/
theorem test_xlate_misaligned : (after (.xlate 0 0x1000) boot).response = some (Response.error .badParameter) := by
  decide +kernel

/-- R240. -/
theorem test_dump : (after (.dump 0 0 0 2 5) written).response = some (Response.inspection
      { valid := true, age := 0, tag := 0x10, w0 := 0xDEADBEEF, w1 := 0, w2 := 0, w3 := 0 }) ∧
    (after (.dump 0 0 1 2 5) written).response = some (Response.inspection
      { valid := false, age := 1, tag := 0, w0 := 0, w1 := 0, w2 := 0, w3 := 0 }) := by decide +kernel

/-- R240: an array of the other organisation, and a way beyond the array's. -/
theorem test_dump_refused : (after (.dump 0 0 0 0 1) boot).response = some (Response.error .badParameter) ∧
    (after (.dump 0 0 4 0 5) boot).response = some (Response.error .badParameter) := by decide +kernel

/-- R237. -/
theorem test_illegalWrI : after (.illegalWrI 1 7 0xFFFFFFFFFFFFFFFF) boot = boot.raise .badParameter := by decide +kernel

/-- R241. -/
theorem test_reserved : after (.reserved101x 1 7 9) boot = boot.raise .badParameter ∧
    after (.reserved11xx 2 7 9) boot = boot.raise .badParameter := by decide +kernel

/-- R162: the hit returns frame 4 with offset 5 and moves token 2 to the back. -/
theorem test_faService : tlbService faHolding (va 1 2 3 4 5) .instruction =
    .ok { phys := { pfn := 4, offset := 5 }, hit := true, state := { faHolding with lru := [3, 0, 1, 2] } } := by decide

/-- R169: the instruction access to page 9 takes page 5's place in `TLB2` and drops it from `DTLB`. -/
theorem test_hierService : tlbService hierHolding (va 0 0 0 9 0) .instruction =
    .ok { phys := { pfn := 4, offset := 0 }
          hit := false
          state := { hierHolding with
            itlb := [TlbEntry.reset, TlbEntry.installed 4 4]
            dtlb := [TlbEntry.reset, { valid := false, tag := 2, pfn := 4 }]
            tlb2 := [TlbEntry.reset, TlbEntry.installed 2 4, TlbEntry.reset, TlbEntry.reset] } } := by decide +kernel

/-! ### Witnesses: a state and operands that meet the hypotheses of each statement that has some -/

theorem witness_IllFormedRequestsAreBadParameter : (Instr.dump 0 0 0 0 8).wellFormed = false := by decide

theorem witness_ResponsePacksByField : { DumpPayload.zero with age := 255 }.age < 256 ∧
    256 ≤ { DumpPayload.zero with age := 256 }.age := by decide

/-- A machine with two requests issued: `RDW.I 0x10`, then `WRW.D 0x20, 0xDEADBEEF`. -/
def busyFa : State :=
  { smallFa with requests := [0x1000000000000000000000010#100, 0x7DEADBEEF0000000000000020#100] }

theorem witness_StepRunsTheDecodedRequest : busyFa.cfg.valid = true ∧
    busyFa.requests = 0x1000000000000000000000010#100 :: [0x7DEADBEEF0000000000000020#100] ∧
    decode 0x1000000000000000000000010#100 = .rdwI 0 0x10 := by decide

theorem witness_StepWaitsOrRefuses : (smallFa.cfg.valid = true ∧ smallFa.requests = []) ∧
    { smallFa with cfg := { smallConfig with memLen := 2 } }.cfg.valid = false := by decide

theorem witness_EveryRunCompletes : busyFa.cfg.valid = true ∧ State.reset.cfg.valid = true := by decide

theorem witness_StepKeepsBuildParameters : step busyFa = .next (stepped busyFa) := step_stepped _ (by decide)

theorem witness_DecomposeSlicesTheAddress : 2 ^ 48 ≤ (0x1000000000000#64).toNat ∧
    (0xFFFFFFFFFFFF#64).toNat < 2 ^ 48 := by decide

theorem witness_AddressCodecRoundTrips : (0xFFFFFFFFFFFF#64).toNat < 2 ^ 48 ∧ 0xFFFFF < 2 ^ 20 ∧ 0xFFF < 2 ^ 12 := by
  decide

theorem witness_FieldConstructorsNeverTruncate :
    (512 ≤ 512 ∨ 512 ≤ 0 ∨ 512 ≤ 0 ∨ 512 ≤ 0 ∨ 4096 ≤ 4095) ∧ (511 < 512 ∧ 4095 < 4096) ∧
      (2 ^ 20 ≤ 0x100000 ∨ 4096 ≤ 0) ∧ 0xFFFFF < 2 ^ 20 := by decide

/-- A table of `n` entries at `base` whose words have `v` as their second byte and are zero otherwise. -/
def table : Nat → Nat → Byte → Memory → Memory
  | _, 0, _, rest => rest
  | base, n + 1, v, rest => (base + 1, v) :: table (base + 4) n v rest

theorem memByte_table_self (rest : Memory) (v : Byte) (n base i : Nat) (h : i < n) :
    memByte (table base n v rest) (base + 4 * i + 1) = v := by
  induction n generalizing base i with
  | zero => omega
  | succ n ih =>
    cases i with
    | zero => simp [table, memByte]
    | succ i =>
      have := ih (base + 4) i (by omega)
      rw [show base + 4 + 4 * i + 1 = base + 4 * (i + 1) + 1 by omega] at this
      simp [table, memByte, this]

theorem memByte_table_other (rest : Memory) (v : Byte) (n base a : Nat) (h : ∀ i < n, a ≠ base + 4 * i + 1) :
    memByte (table base n v rest) a = memByte rest a := by
  induction n generalizing base with
  | zero => rfl
  | succ n ih =>
    have h0 := h 0 (by omega)
    have := ih (base + 4) (fun i hi => by have := h (i + 1) (by omega); omega)
    simp [table, memByte, this, show ¬ a = base + 1 by omega]

/-- Tables that send every index to the table at `0x1000`, whose entries all name the frame at `0x1000`. -/
def uniformImage : Memory := table 0 512 0x10 (table 0x1000 512 0x10 [])

theorem memRead_eq (m : Memory) (a : Nat) (h0 : memByte m a = 0) (h1 : memByte m (a + 1) = 0x10)
    (h2 : memByte m (a + 2) = 0) (h3 : memByte m (a + 3) = 0) : memRead m a = 0x1000 := by
  simp [memRead, h0, h1, h2, h3]

theorem uniform_root : ∀ i < 512, memRead uniformImage (4 * i) = 0x1000 := by
  intro i hi
  have h := memByte_table_self (table 0x1000 512 0x10 []) 0x10 512 0 i hi
  have hz : ∀ j, j % 4 ≠ 1 → memByte uniformImage j = 0 := fun j hj => by
    unfold uniformImage
    rw [memByte_table_other _ _ _ _ _ (fun k _ => by omega), memByte_table_other _ _ _ _ _ (fun k _ => by omega)]
    rfl
  exact memRead_eq _ _ (hz _ (by omega)) (by simpa [uniformImage] using h) (hz _ (by omega)) (hz _ (by omega))

theorem uniform_table : ∀ i < 512, memRead uniformImage ((0x1000 : Word).toNat + 4 * i) = 0x1000 := by
  intro i hi
  have h := memByte_table_self [] 0x10 512 0x1000 i hi
  have hz : ∀ j, j % 4 ≠ 1 → memByte uniformImage j = 0 := fun j hj => by
    unfold uniformImage
    rw [memByte_table_other _ _ _ _ _ (fun k _ => by omega), memByte_table_other _ _ _ _ _ (fun k _ => by omega)]
    rfl
  have hb : (0x1000 : Word).toNat = 0x1000 := rfl
  rw [hb]
  refine memRead_eq _ _ (hz _ (by omega)) ?_ (hz _ (by omega)) (hz _ (by omega))
  unfold uniformImage
  rw [memByte_table_other _ _ _ _ _ (fun k _ => by omega)]
  exact h

theorem witness_UniformTablesReachTheFrame :
    (2048 ≤ 0x2000 ∧ (0x1000 : Word).toNat + 2048 ≤ 0x2000 ∧ (0x1000 : Word).toNat % 4 = 0) ∧
      (∀ i < 512, memRead uniformImage (4 * i) = 0x1000) ∧
      (∀ i < 512, memRead uniformImage ((0x1000 : Word).toNat + 4 * i) = 0x1000) ∧
      (0x1000 : Word) = (1 : Pfn) ++ 0#12 ∧ (0xFFFFFFFFFFFF#64).toNat < 2 ^ 48 :=
  ⟨by decide, uniform_root, uniform_table, by decide, by decide⟩

theorem witness_MoveToBackKeepsOthersInOrder : [0, 1, 2, 3].Nodup ∧ 1 ∈ [0, 1, 2, 3] ∧
    [0, 1, 2, 3].getLast? = some 3 := by decide

theorem witness_UntouchedFrontIsTheNextVictim : [2, 0, 1].Nodup ∧ front [2, 0, 1] = some 2 ∧
    ∀ u ∈ [0, 1, 0], u ∈ [2, 0, 1] ∧ u ≠ 2 := by decide

/-- The doubly linked representation of `[2, 0, 1]`. -/
def linked : LinkedList where
  next := [some 1, none, some 0]
  prev := [some 2, some 0, none]
  head := some 2
  tail := some 1

theorem witness_LinkedListRefinesSequence : [2, 0, 1].Nodup ∧ linked.represents [2, 0, 1] ∧
    (0 ∈ [2, 0, 1] ∧ 1 ∈ [2, 0, 1] ∧ 2 ∈ [2, 0, 1]) := by decide

theorem witness_TlbServiceFollowsItsContract :
    (tlbLookup faHolding (virtualPageNumber (va 1 2 3 4 5)) .data).1 = true ∧
      ((tlbLookup faHolding (virtualPageNumber (va 0 0 0 9 5)) .data).1 = false ∧
        walk faHolding.cfg.memLen faHolding.mem (va 0 0 0 9 5) = .ok { pfn := 4, offset := 5 }) ∧
      walk faHolding.cfg.memLen faHolding.mem (va 0 0 0 1 5) = .error .badParameter := by decide +kernel

theorem witness_ServiceThenLookupHits : (faHolding.wf ∧ ∃ r, tlbService faHolding (va 0 0 0 9 5) .data = .ok r) ∧
    (hierHolding.wf ∧ ∃ r, tlbService hierHolding (va 0 0 0 9 5) .data = .ok r) :=
  ⟨⟨by decide +kernel, _, rfl⟩, by decide +kernel, _, rfl⟩

theorem witness_FaHitMovesItsToken : faHolding.cfg.org = .fa ∧
    faHolding.tlb[2]? = some { valid := true, tag := virtualPageNumber (va 1 2 3 4 5), pfn := 4 } ∧
    ∀ (j : Nat) (f : TlbEntry), j < 2 → faHolding.tlb[j]? = some f → f.valid = true →
      f.tag ≠ virtualPageNumber (va 1 2 3 4 5) := by
  refine ⟨rfl, by decide, fun j f hj hf hv => ?_⟩
  have h : ∀ j < 2, faHolding.tlb[j]? = some TlbEntry.reset := by decide
  rw [h j hj, Option.some.injEq] at hf
  subst hf
  exact absurd hv (by decide)

theorem witness_FaMissEvictsTheFront : faHolding.cfg.org = .fa ∧ faHolding.lru = 3 :: [0, 2, 1] ∧
    ((∀ e ∈ faHolding.tlb, e.valid = true → e.tag ≠ virtualPageNumber (va 0 0 0 9 5)) ∧
      walk faHolding.cfg.memLen faHolding.mem (va 0 0 0 9 5) = .ok { pfn := 4, offset := 5 }) ∧
    ((∀ e ∈ faHolding.tlb, e.valid = true → e.tag ≠ virtualPageNumber (va 0 0 0 1 5)) ∧
      walk faHolding.cfg.memLen faHolding.mem (va 0 0 0 1 5) = .error .badParameter) := by decide +kernel

theorem witness_HierL1HitChangesNothing : hierHolding.cfg.org = .hier ∧
    (hierHolding.l1Tlb .data)[(virtualPageNumber (va 0 0 0 5 0)).toNat % 2 ^ hierHolding.cfg.l1tBits]? =
      some { valid := true, tag := 2, pfn := 4 } ∧
    (2 : Vpn).toNat = (virtualPageNumber (va 0 0 0 5 0)).toNat / 2 ^ hierHolding.cfg.l1tBits := by decide

theorem witness_HierL2HitPromotesACopy : hierHolding.cfg.org = .hier ∧
    directHolds hierHolding.cfg.l1tBits (hierHolding.l1Tlb .instruction) (virtualPageNumber (va 0 0 0 5 0)) = false ∧
    hierHolding.tlb2[(virtualPageNumber (va 0 0 0 5 0)).toNat % 2 ^ hierHolding.cfg.l2tBits]? =
      some { valid := true, tag := 1, pfn := 4 } ∧
    (1 : Vpn).toNat = (virtualPageNumber (va 0 0 0 5 0)).toNat / 2 ^ hierHolding.cfg.l2tBits := by decide

theorem witness_HierFullMissInstallsAtBothLevels : hierHolding.cfg.org = .hier ∧
    hierHolding.cfg.l1tBits ≤ hierHolding.cfg.l2tBits ∧
    directHolds hierHolding.cfg.l1tBits (hierHolding.l1Tlb .instruction) (virtualPageNumber (va 0 0 0 9 0)) = false ∧
    directHolds hierHolding.cfg.l2tBits hierHolding.tlb2 (virtualPageNumber (va 0 0 0 9 0)) = false ∧
    walk hierHolding.cfg.memLen hierHolding.mem (va 0 0 0 9 0) = .ok { pfn := 4, offset := 0 } ∧
    hierHolding.tlb2[(virtualPageNumber (va 0 0 0 9 0)).toNat % 2 ^ hierHolding.cfg.l2tBits]? =
      some (TlbEntry.installed 1 4) ∧
    (hierHolding.l1Tlb AccessKind.instruction.other)[
      (virtualPageNumber (va 0 0 0 9 0)).toNat % 2 ^ hierHolding.cfg.l1tBits]? = some (TlbEntry.installed 2 4) := by
  decide +kernel

/-- `faHolding` and `hierHolding` with `RDW.I 0x9000` issued: a miss in either. -/
def faBusy : State := { faHolding with requests := [0x1000000000000000000009000#100] }

/-- See `faBusy`. -/
def hierBusy : State := { hierHolding with requests := [0x1000000000000000000009000#100] }

theorem witness_FaTagsStayUnique : tlbTagsUnique faBusy ∧ step faBusy = .next (stepped faBusy) :=
  ⟨by decide, step_stepped _ (by decide)⟩

/-- What `hierHolding`'s L1 arrays hold: page 5, in `DTLB`. -/
theorem hierHolding_l1 (k : AccessKind) (vpn : Vpn)
    (h : directHolds hierHolding.cfg.l1tBits (hierHolding.l1Tlb k) vpn = true) : k = .data ∧ vpn = 5 := by
  have hb : hierHolding.cfg.l1tBits = 1 := rfl
  rw [hb] at h
  have hi : directIndex 1 vpn = 0 ∨ directIndex 1 vpn = 1 := by unfold directIndex; omega
  cases k with
  | instruction =>
    rcases hi with hi | hi <;> simp [directHolds, hi, TlbEntry.matchesVpn, hierHolding, smallHier, State.resetWith,
      State.l1Tlb, tlbEntryAt, smallConfig, Config.l1TlbLines, TlbEntry.reset, List.replicate] at h
  | data =>
    rcases hi with hi | hi
    · simp [directHolds, hi, TlbEntry.matchesVpn, hierHolding, State.l1Tlb, tlbEntryAt, TlbEntry.reset] at h
    · simp [directHolds, hi, TlbEntry.matchesVpn, hierHolding, State.l1Tlb, tlbEntryAt, TlbEntry.installed,
        directTag] at h
      refine ⟨rfl, ?_⟩
      unfold directIndex at hi
      have h2 := congrArg BitVec.toNat h
      simp at h2
      apply BitVec.eq_of_toNat_eq
      simp
      omega

theorem hierHolding_inclusive : tlbInclusive hierHolding := by
  intro k vpn h
  obtain ⟨rfl, rfl⟩ := hierHolding_l1 k vpn h
  decide

theorem witness_HierInclusionIsKept : hierBusy.wf ∧ tlbInclusive hierBusy ∧ step hierBusy = .next (stepped hierBusy) :=
  ⟨by decide +kernel, hierHolding_inclusive, step_stepped _ (by decide)⟩

/-- Page `0x8080604` of `image` goes to frame 4, whatever the offset. -/
theorem image_page (a : VirtualAddress) (h : virtualPageNumber a = 0x8080604) :
    walk 0x5000 image a = .ok { pfn := 4, offset := a.offset } := by
  obtain ⟨top, upper, middle, lower, offset⟩ := a
  have h0 : top = 1 ∧ upper = 2 ∧ middle = 3 ∧ lower = 4 := by
    have hb : ∀ j, (top ++ upper ++ middle ++ lower : Vpn).getLsbD j = (0x8080604 : Vpn).getLsbD j :=
      fun j => congrArg (fun v => BitVec.getLsbD v j) h
    refine ⟨?_, ?_, ?_, ?_⟩ <;> apply BitVec.eq_of_getLsbD_eq <;> intro i hi
    · have e := hb (27 + i)
      simp only [BitVec.getLsbD_append] at e
      interval_cases i <;> simpa using e
    · have e := hb (18 + i)
      simp only [BitVec.getLsbD_append] at e
      interval_cases i <;> simpa using e
    · have e := hb (9 + i)
      simp only [BitVec.getLsbD_append] at e
      interval_cases i <;> simpa using e
    · have e := hb i
      simp only [BitVec.getLsbD_append] at e
      interval_cases i <;> simpa using e
  obtain ⟨rfl, rfl, rfl, rfl⟩ := h0
  exact (walk_eq_ok _ _ _ _).2 ⟨0x4000, by
    show walkLevels 0x5000 image [1, 2, 3, 4] 0 = .ok 0x4000
    decide +kernel, (physicalFromBase_eq_ok _ _ _).2 ⟨by decide, by simp⟩⟩

theorem faHolding_faithful : tlbFaithful faHolding := by
  intro a pfn h
  have hit : ∀ e ∈ faHolding.tlb, e.valid = true → e.tag = 0x8080604 ∧ e.pfn = 4 := by decide
  rcases h with ⟨e, he, hv, ht, hp⟩ | ⟨k, h, -⟩ | ⟨h, -⟩
  · obtain ⟨h1, h2⟩ := hit e he hv
    rw [← hp, h2]
    exact image_page a (ht ▸ h1)
  · cases k <;> simp [directHolds, TlbEntry.matchesVpn, State.l1Tlb, tlbEntryAt, faHolding, smallFa, State.resetWith,
      smallConfig, TlbEntry.reset] at h
  · simp [directHolds, TlbEntry.matchesVpn, tlbEntryAt, faHolding, smallFa, State.resetWith, smallConfig,
      TlbEntry.reset] at h

/-- A TLB with no valid entry holds no stale translation. -/
theorem faithful_of_invalid (s : State) (h : ∀ e, e ∈ s.tlb ∨ e ∈ s.itlb ∨ e ∈ s.dtlb ∨ e ∈ s.tlb2 → e.valid = false) :
    tlbFaithful s := by
  have hd : ∀ (bits : Nat) (arr : List TlbEntry) (v : Vpn), (∀ e ∈ arr, e.valid = false) →
      directHolds bits arr v = false := by
    intro bits arr v ha
    unfold directHolds TlbEntry.matchesVpn tlbEntryAt
    rw [List.getD_eq_getElem?_getD]
    cases hg : arr[directIndex bits v]? with
    | none => simp [TlbEntry.reset]
    | some e => simp [ha e (List.mem_of_getElem? hg)]
  intro a pfn hh
  rcases hh with ⟨e, he, hv, -⟩ | ⟨k, hk, -⟩ | ⟨hk, -⟩
  · simp [h e (.inl he)] at hv
  · cases k
    · simp [State.l1Tlb, hd _ _ _ (fun e he => h e (.inr (.inl he)))] at hk
    · simp [State.l1Tlb, hd _ _ _ (fun e he => h e (.inr (.inr (.inl he))))] at hk
  · simp [hd _ _ _ (fun e he => h e (.inr (.inr (.inr he))))] at hk

theorem smallHier_faithful : tlbFaithful smallHier := by
  have h : (∀ e ∈ smallHier.tlb, e.valid = false) ∧ (∀ e ∈ smallHier.itlb, e.valid = false) ∧
    (∀ e ∈ smallHier.dtlb, e.valid = false) ∧ (∀ e ∈ smallHier.tlb2, e.valid = false) := by decide
  refine faithful_of_invalid _ fun e he => ?_
  rcases he with he | he | he | he
  · exact h.1 e he
  · exact h.2.1 e he
  · exact h.2.2.1 e he
  · exact h.2.2.2 e he

theorem witness_FaithfulTlbIsTransparent : tlbFaithful faHolding ∧ tlbFaithful smallHier :=
  ⟨faHolding_faithful, smallHier_faithful⟩

theorem witness_FaithfulnessIsKept : tlbFaithful faBusy ∧ step faBusy = .next (stepped faBusy) ∧
    ∀ a : VirtualAddress, walk (stepped faBusy).cfg.memLen (stepped faBusy).mem a =
      walk faBusy.cfg.memLen faBusy.mem a := by
  have h : (stepped faBusy).cfg.memLen = faBusy.cfg.memLen ∧ (stepped faBusy).mem = faBusy.mem := by decide +kernel
  exact ⟨faHolding_faithful, step_stepped _ (by decide), fun a => by rw [h.1, h.2]⟩

theorem witness_OrganisationsAgree : sameBelowTlb faHolding smallHier ∧ tlbFaithful faHolding ∧ tlbFaithful smallHier ∧
    (∀ wdata mbz way idx arr, Instr.rdwI 0 0x8080604010 ≠ .dump wdata mbz way idx arr) ∧
    exec (.rdwI 0 0x8080604010) faHolding = .next (after (.rdwI 0 0x8080604010) faHolding) :=
  ⟨by decide, faHolding_faithful, smallHier_faithful, by intros; simp, exec_after _ _⟩

theorem witness_AgeingRule : (setOfAges [2, 0, 3, 1])[0]?.isSome ∧
    (setOfAges [2, 0, 3, 1])[1]?.map CacheEntry.age = some 0 ∧ (setOfAges [0])[0]?.map CacheEntry.age = some 0 := by
  decide

/-- A one-set cache with a valid and an invalid way, and one with both ways valid. -/
def halfFull : CacheArray := [setOfAges [1] ++ [CacheEntry.reset]]

/-- See `halfFull`. -/
def full : CacheArray := [setOfAges [0, 1]]

theorem witness_ColdFillRule : halfFull[lineIndex { bits := 0, ways := 2 } 0x4010]? =
      some (setOfAges [1] ++ [CacheEntry.reset]) ∧
    (setOfAges [1] ++ [CacheEntry.reset])[1]? = some CacheEntry.reset ∧ CacheEntry.reset.valid = false ∧
    ∀ (u : Nat) (f : CacheEntry), u < 1 → (setOfAges [1] ++ [CacheEntry.reset])[u]? = some f → f.valid = true := by
  refine ⟨by decide, by decide, rfl, fun u f hu hf => ?_⟩
  obtain rfl : u = 0 := by omega
  have h : (setOfAges [1] ++ [CacheEntry.reset])[0]? =
    some { valid := true, age := 1, tag := 0, words := Line.zero } := by decide
  rw [h, Option.some.injEq] at hf
  simp [← hf]

theorem witness_EvictionRule : full[lineIndex { bits := 0, ways := 2 } 0x4010]? = some (setOfAges [0, 1]) ∧
    (∀ e ∈ setOfAges [0, 1], e.valid = true) ∧
    (setOfAges [0, 1])[1]? = some { valid := true, age := 1, tag := 1, words := Line.zero } ∧
    (∀ e ∈ setOfAges [0, 1], e.age ≤ 1) ∧
    ∀ (u : Nat) (e : CacheEntry), u < 1 → (setOfAges [0, 1])[u]? = some e → e.age < 1 := by
  refine ⟨by decide, by decide, by decide, by decide, fun u e hu he => ?_⟩
  obtain rfl : u = 0 := by omega
  have h : (setOfAges [0, 1])[0]? = some { valid := true, age := 0, tag := 0, words := Line.zero } := by decide
  rw [h, Option.some.injEq] at he
  simp [← he]

theorem witness_CacheAddressFieldsTile : 28 ≤ 28 ∧ 2 ^ 28 - 1 < 2 ^ 28 ∧ (0 : BitVec 32).toNat < 2 ^ (28 - 28) ∧
    (0x3FFFFF : BitVec 32).toNat < 2 ^ (28 - 6) := by decide

theorem witness_AccessLeavesTheLineInL1 : smallFa.wf ∧ accessOf (.wrbD 0x11 0x12) = some (.data, 0x12) ∧
    exec (.wrbD 0x11 0x12) smallFa = .next (after (.wrbD 0x11 0x12) smallFa) ∧
    (after (.wrbD 0x11 0x12) smallFa).status = some .ok :=
  ⟨by decide +kernel, rfl, exec_after _ _, by decide +kernel⟩

/-- Caches with no valid entry are coherent. -/
theorem coherent_of_invalid (isCode : LineClass) (s : State)
    (h : ∀ x, x = s.l1i ∨ x = s.l1d ∨ x = s.l2 → ∀ set ∈ x, ∀ e ∈ set, e.valid = false) : cachesCoherent isCode s := by
  have hn : ∀ (g : Geometry) (x : CacheArray) (paddr : PAddr) (w : Nat) (line : Line),
      (∀ set ∈ x, ∀ e ∈ set, e.valid = false) → ¬ holdsLine g x paddr w line := by
    rintro g x paddr w line hc ⟨e, he, hv, -⟩
    unfold cacheSet at he
    rw [List.getD_eq_getElem?_getD] at he
    cases hg : x[lineIndex g paddr]? with
    | none => simp [hg] at he
    | some set =>
      rw [hg] at he
      simp [hc set (List.mem_of_getElem? hg) e (List.mem_of_getElem? he)] at hv
  have hi := fun g paddr w line => hn g s.l1i paddr w line (h _ (.inl rfl))
  have hd := fun g paddr w line => hn g s.l1d paddr w line (h _ (.inr (.inl rfl)))
  have hu := fun g paddr w line => hn g s.l2 paddr w line (h _ (.inr (.inr rfl)))
  exact ⟨fun p w l q => absurd q (hi _ p w l), fun p w l q => absurd q (hd _ p w l),
    fun p w l q => absurd q (hi _ p w l), fun p w l q => absurd q (hd _ p w l), fun p w l q => absurd q (hu _ p w l),
    fun p w _ l _ q => absurd q (hi _ p w l), fun p w _ l _ q => absurd q (hd _ p w l),
    fun p w _ l _ q => absurd q (hi _ p w l), fun p w _ l _ q => absurd q (hd _ p w l),
    fun p w _ l _ q => absurd q (hu _ p w l)⟩

theorem smallFa_coherent (isCode : LineClass) : cachesCoherent isCode smallFa := by
  refine coherent_of_invalid isCode _ fun c hc => ?_
  rcases hc with rfl | rfl | rfl <;> decide

/-- The line of `0x4010`, the one `RDW.I 0x10` reaches, is the one of the instruction class. -/
def codeLine : LineClass := fun n => n == 0x401

theorem busyFa_obeys : obeysSeparation codeLine busyFa (.rdwI 0 0x10) := by
  intro k vaddr a r hk ha hr
  obtain ⟨rfl, rfl⟩ : AccessKind.instruction = k ∧ (0x10 : VAddr) = vaddr := by simpa [accessOf] using hk
  obtain rfl : va 0 0 0 0 0x10 = a := by
    have h : decomposeVirtual 0x10 = .ok (va 0 0 0 0 0x10) := by decide
    rw [h] at ha
    simpa using ha
  have h : Except.map Translated.phys (tlbService busyFa (va 0 0 0 0 0x10) .instruction) =
    .ok { pfn := 4, offset := 0x10 } := by decide +kernel
  rw [hr] at h
  have h2 : r.phys = { pfn := 4, offset := 0x10 } := by simpa [Except.map] using h
  rw [h2]
  decide

theorem witness_CachesStayCoherent : busyFa.wf ∧ cachesCoherent codeLine busyFa ∧
    (∀ w rest, busyFa.requests = w :: rest → obeysSeparation codeLine busyFa (decode w)) ∧
    step busyFa = .next (stepped busyFa) := by
  refine ⟨by decide +kernel, smallFa_coherent codeLine, fun w rest h => ?_, step_stepped _ (by decide)⟩
  obtain ⟨rfl, -⟩ : 0x1000000000000000000000010#100 = w ∧ _ = rest := by simpa [busyFa] using h
  rw [test_decode_rdwI]
  exact busyFa_obeys

theorem witness_CoherentReadsReturnMemory : smallFa.wf ∧ cachesCoherent codeLine smallFa ∧
    decomposeVirtual 0x10 = .ok (va 0 0 0 0 0x10) ∧
    translation smallFa .data (va 0 0 0 0 0x10) = .ok { pfn := 4, offset := 0x10 } ∧
    (exec (readWordRequest .data 0x10) smallFa = .next (after (.rdwD 0 0x10) smallFa) ∧
      (after (.rdwD 0 0x10) smallFa).response = some (Response.access false .mem 0x12345678)) ∧
    exec (readByteRequest .data 0x10) smallFa = .next (after (.rdbD 0 0x10) smallFa) ∧
    (after (.rdbD 0 0x10) smallFa).response = some (Response.access false .mem 0x78) :=
  ⟨by decide +kernel, smallFa_coherent _, by decide, by decide +kernel, ⟨exec_after _ _, by decide +kernel⟩,
    exec_after _ _, by decide +kernel⟩

theorem witness_WriteThenReadReturnsTheValue : smallFa.wf ∧
    exec (.wrwD 0xDEADBEEF 0x20) smallFa = .next (after (.wrwD 0xDEADBEEF 0x20) smallFa) ∧
    (after (.wrwD 0xDEADBEEF 0x20) smallFa).status = some .ok :=
  ⟨by decide +kernel, exec_after _ _, by decide +kernel⟩

theorem witness_WriteThroughReachesMemory : Memory.wf smallFa.mem ∧ decomposeVirtual 0x10 = .ok (va 0 0 0 0 0x10) ∧
    translation smallFa .data (va 0 0 0 0 0x10) = .ok { pfn := 4, offset := 0x10 } ∧
    (exec (.wrwD 7 0x10) smallFa = .next (after (.wrwD 7 0x10) smallFa) ∧
      (after (.wrwD 7 0x10) smallFa).status = some .ok) ∧
    exec (.wrbD 7 0x10) smallFa = .next (after (.wrbD 7 0x10) smallFa) ∧
      (after (.wrbD 7 0x10) smallFa).status = some .ok :=
  ⟨by decide, by decide, by decide +kernel, ⟨exec_after _ _, by decide +kernel⟩, exec_after _ _, by decide +kernel⟩

/-- `smallFa` after `RDW.D 0x10`: `L1D` holds the line of `0x4010`. -/
def readOnce : State := after (.rdwD 0 0x10) smallFa

theorem witness_AccessTouchesOneSetPerLevel : readOnce.wf ∧ accessOf (.wrwD 7 0x10) = some (.data, 0x10) ∧
    decomposeVirtual 0x10 = .ok (va 0 0 0 0 0x10) ∧
    translation readOnce .data (va 0 0 0 0 0x10) = .ok { pfn := 4, offset := 0x10 } ∧
    exec (.wrwD 7 0x10) readOnce = .next (after (.wrwD 7 0x10) readOnce) ∧
    cacheProbe (l1Geometry readOnce.cfg) (readOnce.l1 .data) 0x4010 = some 0 ∧
    0 ≠ lineIndex (l1Geometry readOnce.cfg) 0x4010 :=
  ⟨by decide +kernel, rfl, by decide, by decide +kernel, exec_after _ _, by decide +kernel, by decide +kernel⟩

/-- An L1 hit (the line of `0x4010` in way 0), an L2 hit (the same line moved to `L2`) and a miss in both. -/
def movedToL2 : State := { readOnce with l1d := smallFa.l1d, l2 := readOnce.l1d }

/-- Way 0 of the set of `0x4010` in `readOnce`'s `L1D`. -/
def heldEntry : CacheEntry :=
  CacheEntry.installed (cacheTag (l1Geometry smallConfig) 0x4010) { w0 := 0x12345678, w1 := 0, w2 := 0, w3 := 0 }

theorem firstMatch_zero (g : Geometry) (c : CacheArray) (paddr : PAddr) (e : CacheEntry)
    (h : (cacheSet c (lineIndex g paddr))[0]? = some e ∧ e.valid = true ∧ e.tag = cacheTag g paddr) :
    firstMatch g c paddr 0 e := ⟨h.1, h.2.1, h.2.2, fun u _ hu => absurd hu (Nat.not_lt_zero u)⟩

theorem witness_AccessMovesTheLine :
    (accessOf (.wrwD 7 0x10) = some (.data, 0x10) ∧ decomposeVirtual 0x10 = .ok (va 0 0 0 0 0x10)) ∧
    (readOnce.wf ∧ translation readOnce .data (va 0 0 0 0 0x10) = .ok { pfn := 4, offset := 0x10 } ∧
      exec (.wrwD 7 0x10) readOnce = .next (after (.wrwD 7 0x10) readOnce) ∧
      (after (.wrwD 7 0x10) readOnce).status = some .ok ∧
      firstMatch (l1Geometry readOnce.cfg) (readOnce.l1 .data) 0x4010 0 heldEntry) ∧
    (movedToL2.wf ∧ translation movedToL2 .data (va 0 0 0 0 0x10) = .ok { pfn := 4, offset := 0x10 } ∧
      exec (.wrwD 7 0x10) movedToL2 = .next (after (.wrwD 7 0x10) movedToL2) ∧
      (after (.wrwD 7 0x10) movedToL2).status = some .ok ∧
      noMatch (l1Geometry movedToL2.cfg) (movedToL2.l1 .data) 0x4010 ∧
      firstMatch (l2Geometry movedToL2.cfg) movedToL2.l2 0x4010 0 heldEntry) ∧
    (smallFa.wf ∧ translation smallFa .data (va 0 0 0 0 0x10) = .ok { pfn := 4, offset := 0x10 } ∧
      exec (.wrwD 7 0x10) smallFa = .next (after (.wrwD 7 0x10) smallFa) ∧
      (after (.wrwD 7 0x10) smallFa).status = some .ok ∧
      noMatch (l1Geometry smallFa.cfg) (smallFa.l1 .data) 0x4010 ∧ noMatch (l2Geometry smallFa.cfg) smallFa.l2 0x4010) :=
  ⟨⟨rfl, by decide⟩,
    ⟨by decide +kernel, by decide +kernel, exec_after _ _, by decide +kernel, firstMatch_zero _ _ _ _ (by decide +kernel)⟩,
    ⟨by decide +kernel, by decide +kernel, exec_after _ _, by decide +kernel, by decide +kernel,
      firstMatch_zero _ _ _ _ (by decide +kernel)⟩,
    ⟨by decide +kernel, by decide +kernel, exec_after _ _, by decide +kernel, by decide +kernel, by decide +kernel⟩⟩

theorem witness_ReadWordCompletes : decomposeVirtual 0x10 = .ok (va 0 0 0 0 0x10) ∧
    translation readOnce .data (va 0 0 0 0 0x10) = .ok { pfn := 4, offset := 0x10 } ∧ (0x10 : VAddr).toNat % 4 = 0 ∧
    lineServed readOnce .data 0x4010 = .ok (.l1, { w0 := 0x12345678, w1 := 0, w2 := 0, w3 := 0 }) ∧
    translation readOnce .instruction (va 0 0 0 0 0x10) = .ok { pfn := 4, offset := 0x10 } ∧
    lineServed readOnce .instruction 0x4010 = .ok (.mem, { w0 := 0x12345678, w1 := 0, w2 := 0, w3 := 0 }) := by
  decide +kernel

theorem witness_ReadByteCompletes : decomposeVirtual 0x13 = .ok (va 0 0 0 0 0x13) ∧
    translation readOnce .data (va 0 0 0 0 0x13) = .ok { pfn := 4, offset := 0x13 } ∧
    lineServed readOnce .data 0x4013 = .ok (.l1, { w0 := 0x12345678, w1 := 0, w2 := 0, w3 := 0 }) ∧
    translation readOnce .instruction (va 0 0 0 0 0x13) = .ok { pfn := 4, offset := 0x13 } ∧
    lineServed readOnce .instruction 0x4013 = .ok (.mem, { w0 := 0x12345678, w1 := 0, w2 := 0, w3 := 0 }) := by
  decide +kernel

/-- The last line of memory. -/
theorem witness_WriteWordCompletes : Memory.wf readOnce.mem ∧ decomposeVirtual 0xFFC = .ok (va 0 0 0 0 0xFFC) ∧
    translation readOnce .data (va 0 0 0 0 0xFFC) = .ok { pfn := 4, offset := 0xFFC } ∧ (0xFFC : VAddr).toNat % 4 = 0 ∧
    (0x4FFC : PAddr).toNat + 4 ≤ readOnce.cfg.memLen ∧
    lineServed readOnce .data 0x4FFC = .ok (.mem, Line.zero) := by decide +kernel

theorem witness_WriteByteCompletes : readOnce.wf ∧ decomposeVirtual 0x11 = .ok (va 0 0 0 0 0x11) ∧
    translation readOnce .data (va 0 0 0 0 0x11) = .ok { pfn := 4, offset := 0x11 } ∧ (0xFF : Word).toNat < 256 ∧
    (wordAligned 0x4011).toNat + 4 ≤ readOnce.cfg.memLen ∧
    lineServed readOnce .data 0x4011 = .ok (.l1, { w0 := 0x12345678, w1 := 0, w2 := 0, w3 := 0 }) :=
  ⟨by decide +kernel, by decide +kernel⟩

theorem witness_XlateCompletes : decomposeVirtual 0x8080604005 = .ok (va 1 2 3 4 5) ∧
    walk readOnce.cfg.memLen readOnce.mem (va 1 2 3 4 5) = .ok { pfn := 4, offset := 5 } := by decide +kernel

theorem witness_XlateIgnoresTlbAndCaches : readOnce.mem = hierHolding.mem ∧
    readOnce.cfg.memLen = hierHolding.cfg.memLen ∧
    exec (.xlate 0 0x10) hierHolding = .next (after (.xlate 0 0x10) hierHolding) ∧
    exec (.xlate 0 0x10) readOnce = .next (after (.xlate 0 0x10) readOnce) :=
  ⟨by decide +kernel, by decide +kernel, exec_after _ _, exec_after _ _⟩

theorem witness_DumpReturnsTheSelectedEntry :
    ((1 : BitVec 32).toNat < 2 ^ (l1Geometry readOnce.cfg).bits ∧
      (1 : BitVec 8).toNat < (l1Geometry readOnce.cfg).ways ∧
      readOnce.l1d[(1 : BitVec 32).toNat]?.isSome ∧
      (readOnce.l1d[(1 : BitVec 32).toNat]?.bind (fun set => set[(1 : BitVec 8).toNat]?)).isSome) ∧
    (hierHolding.cfg.org = .hier ∧ (3 : BitVec 32).toNat < hierHolding.cfg.l2TlbLines ∧
      hierHolding.tlb2[(3 : BitVec 32).toNat]? = some TlbEntry.reset) ∧
    (faHolding.cfg.org = .fa ∧ (3 : BitVec 32).toNat < faHolding.cfg.tlbLines ∧
      faHolding.tlb[(3 : BitVec 32).toNat]? = some TlbEntry.reset ∧ faHolding.lru[(3 : BitVec 32).toNat]? = some 1 ∧
      1 < 2 ^ 32) := by
  decide +kernel

/-- The first index beyond each array, and the first way beyond a set. -/
theorem witness_DumpRefusesBadSelectors : 8 ≤ (8 : BitVec 4).toNat ∧ smallHier.cfg.org = .hier ∧ smallFa.cfg.org = .fa ∧
    smallFa.cfg.tlbLines ≤ (4 : BitVec 32).toNat ∧ 2 ^ smallHier.cfg.l1tBits ≤ (2 : BitVec 32).toNat ∧
    2 ^ smallHier.cfg.l2tBits ≤ (4 : BitVec 32).toNat ∧ 2 ^ smallFa.cfg.l1cBits ≤ (2 : BitVec 32).toNat ∧
    smallFa.cfg.l1Ways ≤ (2 : BitVec 8).toNat ∧ 2 ^ smallFa.cfg.l2cBits ≤ (2 : BitVec 32).toNat ∧
    smallFa.cfg.l2Ways ≤ (2 : BitVec 8).toNat := by decide

theorem witness_TranslationErrorsLeaveTheState : decomposeVirtual 0x1000 = .ok (va 0 0 0 1 0) ∧
    walk readOnce.cfg.memLen readOnce.mem (va 0 0 0 1 0) = .error .badParameter ∧
    (Instr.wrbD 0xFF 0x1000).wellFormed = true ∧ accessOf (.wrbD 0xFF 0x1000) = some (.data, 0x1000) ∧
    (tlbLookup readOnce (virtualPageNumber (va 0 0 0 1 0)) .data).1 = false := by decide +kernel

/-- Page 2 leads to frame `0x10`, outside memory: its first word, and a misaligned address in it. -/
theorem witness_CacheStageErrorsKeepTheTlbStage : decomposeVirtual 0x2000 = .ok (va 0 0 0 2 0) ∧
    decomposeVirtual 0x2002 = .ok (va 0 0 0 2 2) ∧
    Except.map Translated.phys (tlbService readOnce (va 0 0 0 2 0) .data) = .ok { pfn := 0x10, offset := 0 } ∧
    Except.map Translated.phys (tlbService readOnce (va 0 0 0 2 2) .data) = .ok { pfn := 0x10, offset := 2 } ∧
    (0x2002 : VAddr).toNat % 4 ≠ 0 ∧ (0x2000 : VAddr).toNat % 4 = 0 ∧
    readOnce.cfg.memLen < (0x10000 : PAddr).toNat + 4 ∧ lineServed readOnce .data 0x10000 = .error .outOfBounds := by
  decide +kernel

theorem witness_OnlyWritesChangeMemory :
    (∀ w rest, busyFa.requests = w :: rest → isWrite (decode w) = false) ∧ step busyFa = .next (stepped busyFa) := by
  refine ⟨fun w rest h => ?_, step_stepped _ (by decide)⟩
  obtain ⟨rfl, -⟩ : 0x1000000000000000000000010#100 = w ∧ _ = rest := by simpa [busyFa] using h
  rw [test_decode_rdwI]
  rfl

theorem witness_InspectionChangesOnlyTheResponse : accessOf (.xlate 0 0x10) = none ∧
    exec (.xlate 0 0x10) readOnce = .next (after (.xlate 0 0x10) readOnce) := ⟨rfl, exec_after _ _⟩

theorem witness_ErrorResponsesCarryNothingElse : exec (.rdwD 0 0x2002) readOnce = .next (after (.rdwD 0 0x2002) readOnce) ∧
    (after (.rdwD 0 0x2002) readOnce).status = some (.error .badParameter) := ⟨exec_after _ _, by decide +kernel⟩

theorem witness_ResetStateSatisfiesTheInvariants : smallConfig.valid = true ∧ Memory.wf image ∧
    Memory.inside image smallConfig.memLen ∧ smallConfig.org = .fa := by decide

theorem witness_StepKeepsWellFormedStates : hierBusy.wf ∧ step hierBusy = .next (stepped hierBusy) ∧ busyFa.wf ∧
    step busyFa = .next (stepped busyFa) :=
  ⟨by decide +kernel, step_stepped _ (by decide), by decide +kernel, step_stepped _ (by decide)⟩

end Sys2Proof.Tests
end

/-! PROOFS. The Address Codec (spec/40_address_codec.md): every packing is a sum of weighted fields, every slice a quotient
and a remainder, and the laws of R113 to R119 are arithmetic on these. -/

namespace Sys2Proof.Machine

/-! ### Packing -/

/-- Concatenation weighs the upper part by the width of the lower one: the fields do not overlap. -/
theorem toNat_append_eq_add {m n : Nat} (x : BitVec m) (y : BitVec n) :
    (x ++ y).toNat = x.toNat * 2 ^ n + y.toNat := by
  rw [BitVec.toNat_append, ← Nat.shiftLeft_add_eq_or_of_lt y.isLt, Nat.shiftLeft_eq]

/-- `virtual_page_number` as a sum (R113). -/
theorem virtualPageNumber_toNat (a : VirtualAddress) :
    (virtualPageNumber a).toNat =
      a.top.toNat * 2 ^ 27 + a.upper.toNat * 2 ^ 18 + a.middle.toNat * 2 ^ 9 + a.lower.toNat := by
  simp only [virtualPageNumber, toNat_append_eq_add]
  omega

/-- `compose_virtual` as a sum (R112). -/
theorem composeVirtual_toNat (a : VirtualAddress) :
    (composeVirtual a).toNat =
      a.top.toNat * 2 ^ 39 + a.upper.toNat * 2 ^ 30 + a.middle.toNat * 2 ^ 21 + a.lower.toNat * 2 ^ 12 +
        a.offset.toNat := by
  simp only [composeVirtual, toNat_append_eq_add, BitVec.toNat_ofNat]
  omega

/-- `compose_physical` as a sum (R116). -/
theorem composePhysical_toNat (p : PhysicalAddress) :
    (composePhysical p).toNat = p.pfn.toNat * 2 ^ 12 + p.offset.toNat :=
  toNat_append_eq_add p.pfn p.offset

/-! ### Slicing -/

/-- A slice is a quotient's remainder. -/
theorem toNat_extractLsb'_eq_mod {w : Nat} (start len : Nat) (x : BitVec w) :
    (x.extractLsb' start len).toNat = x.toNat / 2 ^ start % 2 ^ len := by
  rw [BitVec.extractLsb'_toNat, Nat.shiftRight_eq_div_pow]

/-- The fields of a flat address that fits in 48 bits (R111). -/
theorem decomposeVirtual_of_lt (v : VAddr) (h : v.toNat < 2 ^ 48) :
    ∃ a, decomposeVirtual v = .ok a ∧
      a.top.toNat = v.toNat / 2 ^ 39 % 2 ^ 9 ∧ a.upper.toNat = v.toNat / 2 ^ 30 % 2 ^ 9 ∧
      a.middle.toNat = v.toNat / 2 ^ 21 % 2 ^ 9 ∧ a.lower.toNat = v.toNat / 2 ^ 12 % 2 ^ 9 ∧
      a.offset.toNat = v.toNat % 2 ^ 12 :=
  ⟨_, if_neg (Nat.not_le.2 h), toNat_extractLsb'_eq_mod .., toNat_extractLsb'_eq_mod .., toNat_extractLsb'_eq_mod ..,
    toNat_extractLsb'_eq_mod .., BitVec.extractLsb'_toNat ..⟩

/-- Slicing a packed physical address gives its two fields back, whatever they are (R117). -/
@[simp] theorem decomposePhysical_composePhysical (p : PhysicalAddress) : decomposePhysical (composePhysical p) = p := by
  simp only [decomposePhysical, composePhysical, BitVec.extractLsb'_append_eq_left, BitVec.extractLsb'_append_eq_right]

/-- Composing inverts decomposing below 2^48: the five fields tile bits 47:0 (R112). -/
theorem composeVirtual_decomposeVirtual (v : VAddr) (h : v.toNat < 2 ^ 48) :
    ∃ a, decomposeVirtual v = .ok a ∧ composeVirtual a = v := by
  obtain ⟨a, ha, htop, hupper, hmiddle, hlower, hoffset⟩ := decomposeVirtual_of_lt v h
  refine ⟨a, ha, BitVec.eq_of_toNat_eq ?_⟩
  rw [composeVirtual_toNat, htop, hupper, hmiddle, hlower, hoffset]
  omega

/-! ### Field constructors -/

/-- A number that fits a field is the field's value: nothing is cut off. -/
theorem toNat_ofNat_of_lt {w n : Nat} (h : n < 2 ^ w) : (BitVec.ofNat w n).toNat = n := by
  rw [BitVec.toNat_ofNat, Nat.mod_eq_of_lt h]

/-- `make_virtual` on fields that all fit (R114). -/
theorem makeVirtual_of_lt {top upper middle lower offset : Nat} (htop : top < 512) (hupper : upper < 512)
    (hmiddle : middle < 512) (hlower : lower < 512) (hoffset : offset < 4096) :
    ∃ a, makeVirtual top upper middle lower offset = .ok a ∧ a.top.toNat = top ∧ a.upper.toNat = upper ∧
      a.middle.toNat = middle ∧ a.lower.toNat = lower ∧ a.offset.toNat = offset :=
  ⟨_, if_neg (by omega), toNat_ofNat_of_lt htop, toNat_ofNat_of_lt hupper, toNat_ofNat_of_lt hmiddle,
    toNat_ofNat_of_lt hlower, toNat_ofNat_of_lt hoffset⟩

/-- `make_virtual` on a field that does not fit (R114). -/
theorem makeVirtual_of_le {top upper middle lower offset : Nat}
    (h : 512 ≤ top ∨ 512 ≤ upper ∨ 512 ≤ middle ∨ 512 ≤ lower ∨ 4096 ≤ offset) :
    makeVirtual top upper middle lower offset = .error .badParameter :=
  if_pos h

/-- `make_physical` on fields that both fit (R115). -/
theorem makePhysical_of_lt {pfn offset : Nat} (hpfn : pfn < 2 ^ 20) (hoffset : offset < 4096) :
    ∃ p, makePhysical pfn offset = .ok p ∧ p.pfn.toNat = pfn ∧ p.offset.toNat = offset :=
  ⟨_, if_neg (by omega), toNat_ofNat_of_lt hpfn, toNat_ofNat_of_lt hoffset⟩

/-- `make_physical` on a field that does not fit (R115). -/
theorem makePhysical_of_le {pfn offset : Nat} (h : 2 ^ 20 ≤ pfn ∨ 4096 ≤ offset) :
    makePhysical pfn offset = .error .badParameter :=
  if_pos h

/-! ### The obligations -/

/-- Settles O13: the virtual law from the tiling of bits 47:0, the physical one from slicing a concatenation. -/
theorem addressCodecRoundTrips : Obligations.AddressCodecRoundTrips := by
  refine ⟨composeVirtual_decomposeVirtual, fun pfn offset hpfn hoffset => ?_⟩
  obtain ⟨p, hmake, hp, ho⟩ := makePhysical_of_lt hpfn hoffset
  exact ⟨p, hmake, hp, ho, decomposePhysical_composePhysical p⟩

/-- Settles O14: both packings are sums of weighted fields. -/
theorem pageNumbersAndPhysicalAddressesPack : Obligations.PageNumbersAndPhysicalAddressesPack :=
  ⟨virtualPageNumber_toNat, composePhysical_toNat⟩

/-- Settles O15: for each constructor, one over-wide field is refused, and fields that fit are kept. -/
theorem fieldConstructorsNeverTruncate : Obligations.FieldConstructorsNeverTruncate :=
  ⟨fun _ _ _ _ _ => ⟨makeVirtual_of_le, makeVirtual_of_lt⟩, fun _ _ => ⟨makePhysical_of_le, makePhysical_of_lt⟩⟩

end Sys2Proof.Machine

/-! PROOFS. The Ordered Eviction List (spec/42_eviction_list.md): on distinct tokens, taking out the one occurrence of `t`
keeps exactly the others, in their order. -/

namespace Sys2Proof.Machine

/-! ### move_to_back -/

/-- `move_to_back` puts the token behind all the others (R152). -/
theorem moveToBack_eq_filter_append {lru : List Nat} (hnodup : lru.Nodup) (t : Nat) :
    moveToBack lru t = lru.filter (fun u => u != t) ++ [t] := by
  rw [moveToBack, hnodup.erase_eq_filter]

/-- The others are what they were, in the same order (R152). -/
theorem filter_ne_moveToBack {lru : List Nat} (hnodup : lru.Nodup) (t : Nat) :
    (moveToBack lru t).filter (fun u => u != t) = lru.filter (fun u => u != t) := by
  rw [moveToBack_eq_filter_append hnodup, List.filter_append, List.filter_filter]
  simp

/-- A token that stands at the back, and nowhere else, stays there (R152). -/
theorem moveToBack_append_singleton {others : List Nat} {t : Nat} (h : t ∉ others) :
    moveToBack (others ++ [t]) t = others ++ [t] := by
  rw [moveToBack, List.erase_append_right _ h, List.erase_cons_head, List.append_nil]

/-- The same for a list of distinct tokens whose last one is `t`. -/
theorem moveToBack_of_getLast? {lru : List Nat} {t : Nat} (hnodup : lru.Nodup) (hlast : lru.getLast? = some t) :
    moveToBack lru t = lru := by
  obtain ⟨others, rfl⟩ := List.getLast?_eq_some_iff.1 hlast
  have hnotMem : t ∉ others := fun hmem => List.disjoint_of_nodup_append hnodup hmem (List.mem_singleton_self t)
  exact moveToBack_append_singleton hnotMem

/-! ### The obligations -/

/-- Settles O19: the list without `t` and then `t`; `[0]` is the list whose only token is at the back. -/
theorem moveToBackKeepsOthersInOrder : Obligations.MoveToBackKeepsOthersInOrder :=
  ⟨fun _ t hnodup _ =>
      ⟨moveToBack_eq_filter_append hnodup t, filter_ne_moveToBack hnodup t, moveToBack_of_getLast? hnodup⟩,
    moveToBack_append_singleton List.not_mem_nil⟩

end Sys2Proof.Machine

/-! PROOFS. The TLB (spec/43_tlb.md): when a probe misses or holds in terms of the entries, what the service answers in
each of these cases, and so the fully-associative miss (R163) and the hierarchical L1 hit (R167). -/

namespace Sys2Proof.Machine

/-! ### Fully-associative organisation -/

/-- The test of one entry: valid, and tagged with the page (R162). -/
theorem matchesVpn_iff (vpn : Vpn) (e : TlbEntry) : e.matchesVpn vpn = true ↔ e.valid = true ∧ e.tag = vpn := by
  simp [TlbEntry.matchesVpn]

/-- The probe misses exactly when no valid entry is tagged with the page (R162). -/
theorem faProbe_eq_none_iff (tlb : List TlbEntry) (vpn : Vpn) :
    faProbe tlb vpn = none ↔ ∀ e ∈ tlb, e.valid = true → e.tag ≠ vpn := by
  rw [faProbe, List.findIdx?_eq_none_iff]
  simp only [Bool.eq_false_iff, ne_eq, matchesVpn_iff, not_and]

/-- The install takes the front token, whatever its entry holds (R163). -/
theorem faInstall_of_lru_eq_cons {s : State} {t : Nat} {rest : List Nat} (h : s.lru = t :: rest) (vpn : Vpn) (pfn : Pfn) :
    faInstall s vpn pfn = { s with tlb := s.tlb.set t (TlbEntry.installed vpn pfn), lru := rest ++ [t] } := by
  obtain ⟨hnil, -⟩ | ⟨t', rest', hcons, hinstall⟩ := faInstall_cases s vpn pfn
  · rw [h] at hnil
    cases hnil
  · rw [h] at hcons
    cases hcons
    exact hinstall

section
variable {s : State} {a : VirtualAddress} (hmiss : faProbe s.tlb (virtualPageNumber a) = none)
include hmiss

/-- On a miss whose walk answers, the walk's frame is installed (R163). -/
theorem faService_of_walk_ok {p : PhysicalAddress} (hwalk : walk s.cfg.memLen s.mem a = .ok p) :
    faService s a = .ok { phys := p, hit := false, state := faInstall s (virtualPageNumber a) p.pfn } := by
  simp only [faService, hmiss, hwalk]

/-- On a miss whose walk raises, the walk's error is the answer and nothing is installed (R161). -/
theorem faService_of_walk_error {e : ErrorKind} (hwalk : walk s.cfg.memLen s.mem a = .error e) :
    faService s a = .error e := by
  simp only [faService, hmiss, hwalk]

end

/-- The service of an organisation `FA` build ignores the kind (R162). -/
theorem tlbService_of_fa {s : State} (horg : s.cfg.org = .fa) (a : VirtualAddress) (k : AccessKind) :
    tlbService s a k = faService s a := by
  simp only [tlbService, horg]

/-! ### Hierarchical organisation -/

/-- A tag that is the page's quotient by the number of lines is the direct-mapped tag (R165). -/
theorem eq_directTag_iff (bits : Nat) (vpn tag : Vpn) : tag = directTag bits vpn ↔ tag.toNat = vpn.toNat / 2 ^ bits := by
  rw [directTag, ← BitVec.toNat_inj, BitVec.toNat_ushiftRight, Nat.shiftRight_eq_div_pow]

section
variable {bits : Nat} {arr : List TlbEntry} {vpn : Vpn} {e : TlbEntry} (hentry : arr[vpn.toNat % 2 ^ bits]? = some e)
include hentry

/-- The entry that a probe of a direct-mapped array looks at (R165). -/
theorem tlbEntryAt_directIndex : tlbEntryAt arr (directIndex bits vpn) = e := by
  rw [tlbEntryAt, directIndex, List.getD_eq_getElem?_getD, hentry, Option.getD_some]

/-- The array holds the page exactly when the entry at its index is valid with its tag (R165). -/
theorem directHolds_iff :
    directHolds bits arr vpn = true ↔ e.valid = true ∧ e.tag.toNat = vpn.toNat / 2 ^ bits := by
  rw [directHolds, tlbEntryAt_directIndex hentry, matchesVpn_iff, eq_directTag_iff]

/-- The frame a holding array gives is that entry's. -/
theorem directPfn_eq : directPfn bits arr vpn = e.pfn := by
  rw [directPfn, tlbEntryAt_directIndex hentry]

end

/-- The service of an organisation `HIER` build. -/
theorem tlbService_of_hier {s : State} (horg : s.cfg.org = .hier) (a : VirtualAddress) (k : AccessKind) :
    tlbService s a k = hierService s a k := by
  simp only [tlbService, horg]

/-- The kind's L1 array is probed first, and a hit in it writes nothing (R167). -/
theorem hierService_of_l1_holds {s : State} {a : VirtualAddress} {k : AccessKind}
    (hholds : directHolds s.cfg.l1tBits (s.l1Tlb k) (virtualPageNumber a) = true) :
    hierService s a k = .ok
      { phys := { pfn := directPfn s.cfg.l1tBits (s.l1Tlb k) (virtualPageNumber a), offset := a.offset }
        hit := true
        state := s } :=
  if_pos hholds

/-! ### The obligations -/

/-- Settles O26: the probe misses, so the walk decides; its frame replaces the front token's entry, its error stands. -/
theorem faMissEvictsTheFront : Obligations.FaMissEvictsTheFront := by
  intro s a k t rest horg huntagged hlru
  have hmiss : faProbe s.tlb (virtualPageNumber a) = none := (faProbe_eq_none_iff _ _).2 huntagged
  rw [tlbService_of_fa horg]
  refine ⟨fun p hwalk => ?_, fun e hwalk => faService_of_walk_error hmiss hwalk⟩
  rw [faService_of_walk_ok hmiss hwalk, faInstall_of_lru_eq_cons hlru, TlbEntry.installed]

/-- Settles O27: the kind's L1 array holds the page, and the frame it gives is the entry's. -/
theorem hierL1HitChangesNothing : Obligations.HierL1HitChangesNothing := by
  intro s a k e horg hentry hvalid htag
  have hholds : directHolds s.cfg.l1tBits (s.l1Tlb k) (virtualPageNumber a) = true :=
    (directHolds_iff hentry).2 ⟨hvalid, htag⟩
  rw [tlbService_of_hier horg, hierService_of_l1_holds hholds, directPfn_eq hentry]

end Sys2Proof.Machine

/-! PROOFS. The Cache Hierarchy (spec/44_cache.md): each way after a hit or an eviction, the way an eviction chooses,
and so the ageing rule (R192) and the eviction (R195). -/

namespace Sys2Proof.Machine

/-! ### Sets and ways -/

/-- The set that an array has at an index. -/
theorem cacheSet_of_getElem? {cache : CacheArray} {i : Nat} {set : List CacheEntry} (h : cache[i]? = some set) :
    cacheSet cache i = set := by
  rw [cacheSet, List.getD_eq_getElem?_getD, h, Option.getD_some]

/-- A set has no free way exactly when all its ways are valid (R194, R195). -/
theorem freeWay_eq_none_iff (set : List CacheEntry) : freeWay set = none ↔ ∀ e ∈ set, e.valid = true := by
  simp only [freeWay, List.findIdx?_eq_none_iff, Bool.not_eq_false']

section
variable {set : List CacheEntry} {w : Nat} {m : CacheEntry} (hw : set[w]? = some m)
include hw

/-- The entry that a set has at a way. -/
theorem wayAt_of_getElem? : wayAt set w = m := by
  rw [wayAt, List.getD_eq_getElem?_getD, hw, Option.getD_some]

/-- The way hit ends at age 0, its other fields as they were (R192). -/
theorem ageOnHit_getElem?_self (ways : Nat) : (ageOnHit ways set w)[w]? = some { m with age := 0 } := by
  obtain ⟨hlt, -⟩ := List.getElem?_eq_some_iff.1 hw
  rw [ageOnHit, wayAt_of_getElem? hw, List.getElem?_set_self (by rwa [List.length_map])]

/-- Every other way ages below the prior age of the way hit (R192). -/
theorem ageOnHit_getElem?_of_ne (ways : Nat) {u : Nat} (hne : u ≠ w) :
    (ageOnHit ways set w)[u]? = set[u]?.map (ageBelow ways m.age) := by
  rw [ageOnHit, wayAt_of_getElem? hw, List.getElem?_set_ne hne.symm, List.getElem?_map]

/-- The way evicted holds the whole new entry (R195). -/
theorem evictFill_getElem?_self (ways : Nat) (tag : BitVec 32) (line : Line) :
    (evictFill ways set w tag line)[w]? = some (CacheEntry.installed tag line) := by
  obtain ⟨hlt, -⟩ := List.getElem?_eq_some_iff.1 hw
  rw [evictFill, List.getElem?_set_self (by rwa [List.length_map])]

/-- An eviction ages the other ways exactly as a hit on the way evicted does (R195). -/
theorem evictFill_getElem?_of_ne (ways : Nat) (tag : BitVec 32) (line : Line) {u : Nat} (hne : u ≠ w) :
    (evictFill ways set w tag line)[u]? = set[u]?.map (ageBelow ways m.age) := by
  rw [evictFill, wayAt_of_getElem? hw, List.getElem?_set_ne hne.symm, List.getElem?_map]

end

/-! ### Ageing -/

/-- No age is below 0, so a hit on a way of age 0 ages no other way (R192). -/
@[simp] theorem ageBelow_zero (ways : Nat) (e : CacheEntry) : ageBelow ways 0 e = e :=
  if_neg fun ⟨_, _, hlt⟩ => Nat.not_lt_zero _ hlt

/-- The conditional increment of a valid way (R195). -/
theorem ageBelow_of_valid {e : CacheEntry} (hvalid : e.valid = true) (ways prior : Nat) :
    ageBelow ways prior e = if e.age < ways - 1 ∧ e.age < prior then { e with age := e.age + 1 } else e := by
  simp only [ageBelow, hvalid, true_and]

/-- A hit on a way of age 0 changes nothing (R192). -/
theorem ageOnHit_of_age_eq_zero {set : List CacheEntry} {w : Nat} {m : CacheEntry} (hw : set[w]? = some m)
    (hage : m.age = 0) (ways : Nat) : ageOnHit ways set w = set := by
  refine List.ext_getElem? fun u => ?_
  by_cases hu : u = w
  · subst hu
    rw [ageOnHit_getElem?_self hw, hw, ← hage]
  · rw [ageOnHit_getElem?_of_ne hw ways hu, hage]
    cases set[u]? <;> simp

/-! ### The oldest way -/

/-- The maximum age is the least bound on the ages of the set (R195). -/
theorem maxAge_le_iff (set : List CacheEntry) (n : Nat) : maxAge set ≤ n ↔ ∀ e ∈ set, e.age ≤ n := by
  induction set with
  | nil => simp [maxAge]
  | cons e rest ih => simpa [maxAge] using fun _ => ih

/-- An age of the set that bounds all its ages is the maximum age. -/
theorem maxAge_eq_of_forall_le {set : List CacheEntry} {e : CacheEntry} (hmem : e ∈ set)
    (hmax : ∀ f ∈ set, f.age ≤ e.age) : maxAge set = e.age :=
  Nat.le_antisymm ((maxAge_le_iff set e.age).2 hmax) ((maxAge_le_iff set _).1 (Nat.le_refl _) e hmem)

/-- The way chosen for eviction: of maximum age, and every lower way younger (R195). -/
theorem oldestWay_eq {set : List CacheEntry} {w : Nat} {victim : CacheEntry} (hw : set[w]? = some victim)
    (hmax : ∀ e ∈ set, e.age ≤ victim.age)
    (hfirst : ∀ (u : Nat) (e : CacheEntry), u < w → set[u]? = some e → e.age < victim.age) : oldestWay set = w := by
  obtain ⟨hlt, hget⟩ := List.getElem?_eq_some_iff.1 hw
  rw [oldestWay, maxAge_eq_of_forall_le (List.mem_of_getElem? hw) hmax, List.findIdx_eq hlt, hget]
  refine ⟨beq_self_eq_true _, fun u hu => beq_false_of_ne ?_⟩
  exact Nat.ne_of_lt (hfirst u _ hu (List.getElem?_eq_getElem (Nat.lt_trans hu hlt)))

/-- An install into a set without a free way, whose oldest way is known (R195). -/
theorem cacheInstall_of_full {g : Geometry} {cache : CacheArray} {paddr : PAddr} {set : List CacheEntry} {w : Nat}
    {victim : CacheEntry} (hset : cache[lineIndex g paddr]? = some set) (hfull : freeWay set = none)
    (holdest : oldestWay set = w) (hw : set[w]? = some victim) (line : Line) :
    cacheInstall g cache paddr line =
      (putSet g cache paddr (evictFill g.ways set w (cacheTag g paddr) line),
        some { addr := lineAddress g (lineIndex g paddr) victim.tag, line := victim.words }) := by
  obtain ⟨u, hfree, -⟩ | ⟨-, hinstall⟩ := cacheInstall_cases g cache paddr line
  · rw [cacheSet_of_getElem? hset, hfull] at hfree
    cases hfree
  · rw [hinstall, cacheSet_of_getElem? hset, holdest, wayAt_of_getElem? hw]

/-! ### The obligations -/

/-- Settles O35: the set way by way; with one way an age in its range is 0. -/
theorem ageingRule : Obligations.AgeingRule := by
  intro ways set w m hw
  refine ⟨ageOnHit_length ways set w, ageOnHit_getElem?_self hw ways, fun u e hne hu => ?_,
    fun hage => ageOnHit_of_age_eq_zero hw hage ways,
    fun hways hage => ageOnHit_of_age_eq_zero hw (by omega) ways⟩
  rw [ageOnHit_getElem?_of_ne hw ways hne, hu, Option.map_some, ageBelow]

/-- Settles O37: the oldest way of the full set is `w`, and what its eviction leaves is known way by way. -/
theorem evictionRule : Obligations.EvictionRule := by
  intro g cache paddr line set w victim hset hvalid hw hmax hfirst
  rw [cacheInstall_of_full hset ((freeWay_eq_none_iff set).2 hvalid) (oldestWay_eq hw hmax hfirst) hw line]
  refine ⟨rfl, _, rfl, evictFill_length .., evictFill_getElem?_self hw .., fun u e hne hu => ?_⟩
  have hvalidWay : e.valid = true := hvalid e (List.mem_of_getElem? hu)
  rw [evictFill_getElem?_of_ne hw _ _ _ hne, hu, Option.map_some, ageBelow_of_valid hvalidWay]

end Sys2Proof.Machine

/-! PROOFS. The request word (spec/30_encoding.md sections 1 and 5): a word is its three fields put side by side, so the
decoder and the encoder invert each other row by row of R82. -/

namespace Sys2Proof

open Machine (toNat_append_eq_add toNat_extractLsb'_eq_mod)

/-! ### The fields of a request word -/

/-- A word is its `cmd`, its `wdata` and its `vaddr` (R81). -/
theorem append_request_fields (w : Request) : requestCmd w ++ requestWdata w ++ requestVaddr w = w := by
  have hw : w.toNat < 2 ^ 100 := w.isLt
  refine BitVec.eq_of_toNat_eq ?_
  simp only [requestCmd, requestWdata, requestVaddr, toNat_append_eq_add, toNat_extractLsb'_eq_mod]
  omega

/-- A word whose `cmd` has the value of `c` is `c` with its other two fields. -/
theorem append_of_cmd {w : Request} {c : BitVec 4} (h : (requestCmd w).toNat = c.toNat) :
    c ++ requestWdata w ++ requestVaddr w = w := by
  rw [← BitVec.eq_of_toNat_eq h, append_request_fields]

/-- The fields of the DUMP selector tile `vaddr` (R97). -/
theorem append_selector_fields (w : Request) :
    w.extractLsb' 44 20 ++ w.extractLsb' 36 8 ++ w.extractLsb' 4 32 ++ w.extractLsb' 0 4 = requestVaddr w := by
  refine BitVec.eq_of_toNat_eq ?_
  simp only [requestVaddr, toNat_append_eq_add, toNat_extractLsb'_eq_mod]
  omega

/-- The slices of a DUMP selector built from its fields (R97). -/
theorem slices_of_selector (mbz : BitVec 20) (way : BitVec 8) (idx : BitVec 32) (arr : BitVec 4) :
    (mbz ++ way ++ idx ++ arr : VAddr).extractLsb' 44 20 = mbz ∧ (mbz ++ way ++ idx ++ arr : VAddr).extractLsb' 36 8 = way ∧
      (mbz ++ way ++ idx ++ arr : VAddr).extractLsb' 4 32 = idx ∧
      (mbz ++ way ++ idx ++ arr : VAddr).extractLsb' 0 4 = arr := by
  simp only [← BitVec.toNat_inj, toNat_extractLsb'_eq_mod, toNat_append_eq_add]
  omega

/-- A slice of `vaddr` is the same slice of the word (R81). -/
theorem extractLsb'_vaddr (w : Request) {start len : Nat} (h : start + len ≤ 64) :
    w.extractLsb' start len = (requestVaddr w).extractLsb' start len :=
  (BitVec.extractLsb'_extractLsb'_of_le h).symm

/-- The low bits of `cmd`, read from the word (R82). -/
theorem extractLsb'_cmd (w : Request) : w.extractLsb' 96 2 = (requestCmd w).extractLsb' 0 2 := by
  refine BitVec.eq_of_toNat_eq ?_
  simp only [requestCmd, toNat_extractLsb'_eq_mod]
  omega

/-- The values of `cmd` from 12 up are those that start with two ones (R82). -/
theorem append_low_bits_of_le {c : BitVec 4} (h : 12 ≤ c.toNat) : 0b11#2 ++ c.extractLsb' 0 2 = c := by
  revert c
  decide

/-! ### The rows of the table -/

section
variable (wdata : Word) (vaddr : VAddr)

/-- The rows of one `cmd` value each that take `wdata` and `vaddr` as they are (R82). -/
theorem decode_append_accesses :
    decode (0x0#4 ++ wdata ++ vaddr) = .rdbI wdata vaddr ∧ decode (0x1#4 ++ wdata ++ vaddr) = .rdwI wdata vaddr ∧
      decode (0x2#4 ++ wdata ++ vaddr) = .rdbD wdata vaddr ∧ decode (0x3#4 ++ wdata ++ vaddr) = .rdwD wdata vaddr ∧
      decode (0x6#4 ++ wdata ++ vaddr) = .wrbD wdata vaddr ∧ decode (0x7#4 ++ wdata ++ vaddr) = .wrwD wdata vaddr ∧
      decode (0x8#4 ++ wdata ++ vaddr) = .xlate wdata vaddr := by
  simp [decode, requestCmd_append, requestWdata_append, requestVaddr_append]

/-- `ILLEGAL.WR.I`: `cmd` 4 and 5 (R82). -/
theorem decode_append_illegalWrI (size : BitVec 1) :
    decode ((0b010#3 ++ size) ++ wdata ++ vaddr) = .illegalWrI size wdata vaddr := by
  have hsize : size = 0 ∨ size = 1 := by revert size; decide
  obtain rfl | rfl := hsize <;> simp [decode, requestCmd_append, requestWdata_append, requestVaddr_append]

/-- `RESERVED.101x`: `cmd` 10 and 11 (R82). -/
theorem decode_append_reserved101x (x : BitVec 1) :
    decode ((0b101#3 ++ x) ++ wdata ++ vaddr) = .reserved101x x wdata vaddr := by
  have hx : x = 0 ∨ x = 1 := by revert x; decide
  obtain rfl | rfl := hx <;> simp [decode, requestCmd_append, requestWdata_append, requestVaddr_append]

/-- `RESERVED.11xx`: `cmd` 12 to 15 (R82). -/
theorem decode_append_reserved11xx (x : BitVec 2) :
    decode ((0b11#2 ++ x) ++ wdata ++ vaddr) = .reserved11xx x wdata vaddr := by
  have hx : x = 0 ∨ x = 1 ∨ x = 2 ∨ x = 3 := by revert x; decide
  obtain rfl | rfl | rfl | rfl := hx <;>
    simp [decode, extractLsb'_cmd, requestCmd_append, requestWdata_append, requestVaddr_append]

/-- `DUMP`: `cmd` 9, the selector's fields read off `vaddr` (R82, R97). -/
theorem decode_append_dump (mbz : BitVec 20) (way : BitVec 8) (idx : BitVec 32) (arr : BitVec 4) :
    decode (0x9#4 ++ wdata ++ (mbz ++ way ++ idx ++ arr)) = .dump wdata mbz way idx arr := by
  obtain ⟨hmbz, hway, hidx, harr⟩ := slices_of_selector mbz way idx arr
  simp [decode, extractLsb'_vaddr, requestCmd_append, requestWdata_append, requestVaddr_append, hmbz, hway, hidx, harr]

end

/-! ### The obligations -/

/-- Settles O1: row by row, the decoder reads back the fields that the encoder puts side by side. -/
theorem decodeOfEncodeIsIdentity : Obligations.DecodeOfEncodeIsIdentity := by
  intro i
  cases i with
  | rdbI wdata vaddr => exact (decode_append_accesses wdata vaddr).1
  | rdwI wdata vaddr => exact (decode_append_accesses wdata vaddr).2.1
  | rdbD wdata vaddr => exact (decode_append_accesses wdata vaddr).2.2.1
  | rdwD wdata vaddr => exact (decode_append_accesses wdata vaddr).2.2.2.1
  | wrbD wdata vaddr => exact (decode_append_accesses wdata vaddr).2.2.2.2.1
  | wrwD wdata vaddr => exact (decode_append_accesses wdata vaddr).2.2.2.2.2.1
  | xlate wdata vaddr => exact (decode_append_accesses wdata vaddr).2.2.2.2.2.2
  | illegalWrI size wdata vaddr => exact decode_append_illegalWrI wdata vaddr size
  | dump wdata mbz way idx arr => exact decode_append_dump wdata mbz way idx arr
  | reserved101x x wdata vaddr => exact decode_append_reserved101x wdata vaddr x
  | reserved11xx x wdata vaddr => exact decode_append_reserved11xx wdata vaddr x

/-- Settles O2: each row's encoding is its `cmd` with the fields decoded; the last row takes what the others leave. -/
theorem encodeOfDecodeIsIdentity : Obligations.EncodeOfDecodeIsIdentity := by
  intro w
  unfold decode
  split
  case h_10 h => 
    rw [encode, append_selector_fields]
    exact append_of_cmd h
  case h_13 =>
    have hle : 12 ≤ (requestCmd w).toNat := by simp only [imp_false] at *; omega
    rw [encode, extractLsb'_cmd, append_low_bits_of_le hle, append_request_fields]
  all_goals exact append_of_cmd ‹_›

/-- Settles O3: each word's `cmd` and fields, by evaluation. -/
theorem sampleRequestWordsDecode : Obligations.SampleRequestWordsDecode := by
  unfold Obligations.SampleRequestWordsDecode
  decide

end Sys2Proof

/-! PROOFS. The packed response (spec/30_encoding.md sections 2 and 7): each field is the slice of the record at its place. -/

namespace Sys2Proof.Machine

/-- The payload of a `DUMP` with an age of one byte, packed (R97). -/
theorem DumpPayload.pack_of_lt {d : DumpPayload} (h : d.age < 256) :
    d.pack = some (d.w3 ++ d.w2 ++ d.w1 ++ d.w0 ++ d.tag ++ BitVec.ofNat 8 d.age ++ BitVec.ofBool d.valid) :=
  if_pos h

/-- Where the fields of a packed payload stand (R97). -/
theorem DumpPayload.slices_of_pack {d : DumpPayload} {q : BitVec 173} (hpack : d.pack = some q) (h : d.age < 256) :
    q.extractLsb' 0 1 = BitVec.ofBool d.valid ∧ (q.extractLsb' 1 8).toNat = d.age ∧ q.extractLsb' 9 36 = d.tag ∧
      q.extractLsb' 45 32 = d.w0 ∧ q.extractLsb' 77 32 = d.w1 ∧ q.extractLsb' 109 32 = d.w2 ∧
      q.extractLsb' 141 32 = d.w3 := by
  rw [pack_of_lt h] at hpack
  cases hpack
  have hage : (BitVec.ofNat 8 d.age).toNat = d.age := toNat_ofNat_of_lt h
  simp only [← BitVec.toNat_inj, toNat_extractLsb'_eq_mod, toNat_append_eq_add, hage]
  omega

/-- A packed response is the packed payload above the four fields of every response (R83). -/
theorem Response.pack_of_pack {r : Response} {q : BitVec 173} (h : r.dump.pack = some q) :
    r.pack = some (q ++ r.data ++ r.level.code ++ BitVec.ofBool r.tlbHit ++ r.status.code) := by
  rw [Response.pack, h]

/-- A response whose payload has no packed form has none (U20). -/
theorem Response.pack_of_le {r : Response} (h : 256 ≤ r.dump.age) : r.pack = none := by
  rw [Response.pack, DumpPayload.pack, if_neg (Nat.not_lt.2 h)]

/-- Settles O6: the four fields below bit 38, and the payload's slices 38 places up. -/
theorem responsePacksByField : Obligations.ResponsePacksByField := by
  refine ⟨⟨rfl, rfl, rfl, rfl, rfl⟩, ⟨rfl, rfl, rfl, rfl⟩, fun r => ⟨Response.pack_of_le, fun h => ?_⟩⟩
  obtain ⟨q, hq⟩ : ∃ q, r.dump.pack = some q := ⟨_, DumpPayload.pack_of_lt h⟩
  have hslices := DumpPayload.slices_of_pack hq h
  refine ⟨_, Response.pack_of_pack hq, ?_⟩
  simp only [← BitVec.toNat_inj, toNat_extractLsb'_eq_mod, toNat_append_eq_add] at hslices ⊢
  omega

end Sys2Proof.Machine

/-! PROOFS. The access pipeline and the step (spec/45_access.md sections 1 to 4, spec/60_exceptions.md): every request is
one of three things: refused on its operands, an access through the common pipeline, or an inspection that writes the
response only. What every step keeps follows from what its stages keep. -/

namespace Sys2Proof.Machine

/-! ### Which errors there are -/

/-- The codec refuses exactly the addresses of 2^48 and more (R111). -/
theorem decomposeVirtual_of_le {v : VAddr} (h : 2 ^ 48 ≤ v.toNat) : decomposeVirtual v = .error .badParameter := if_pos h

/-- The only error of the codec (R111). -/
theorem decomposeVirtual_error {v : VAddr} {e : ErrorKind} (h : decomposeVirtual v = .error e) : e = .badParameter := by
  unfold decomposeVirtual at h
  split at h
  · exact (Except.error.inj h).symm
  · cases h

/-- The errors of a walk (R133, R135). -/
theorem walk_error {memLen : Nat} {m : Memory} {a : VirtualAddress} {e : ErrorKind} (h : walk memLen m a = .error e) :
    e = .badParameter ∨ e = .outOfBounds := by
  unfold walk at h
  split at h
  next e' hlevels =>
    cases h
    exact .inr (walkLevels_error _ _ _ _ _ hlevels)
  next base hlevels =>
    by_cases hbase : base.toNat % 4096 = 0
    · rw [(physicalFromBase_eq_ok base a.offset _).2 ⟨hbase, rfl⟩] at h
      cases h
    · rw [physicalFromBase, if_pos hbase] at h
      cases h
      exact .inl rfl

/-- The errors of a word read (R200, R203). -/
theorem cacheReadWord_error {s : State} {paddr : PAddr} {k : AccessKind} {e : ErrorKind}
    (h : cacheReadWord s paddr k = .error e) : e = .badParameter ∨ e = .outOfBounds := by
  unfold cacheReadWord readMiss at h
  split at h
  · exact .inl (Except.error.inj h).symm
  · split at h
    · cases h
    · split at h
      · cases h
      · split at h
        · exact .inr (Except.error.inj h).symm
        · cases h

/-- The errors of a word write (R205, R211). -/
theorem cacheWriteWord_error {s : State} {paddr : PAddr} {v : Word} {e : ErrorKind}
    (h : cacheWriteWord s paddr v = .error e) : e = .badParameter ∨ e = .outOfBounds := by
  unfold cacheWriteWord writeMiss at h
  split at h
  · exact .inl (Except.error.inj h).symm
  · split at h
    · exact .inr (Except.error.inj h).symm
    · split at h
      · cases h
      · split at h
        · cases h
        · split at h
          · exact .inr (Except.error.inj h).symm
          · cases h

/-! ### The requests as accesses -/

/-- The cache stage of an access request (R231 to R236); the other requests have none. -/
def cacheStage (i : Instr) : State → PAddr → Except ErrorKind Served :=
  match i with
  | .rdbI _ _ => fun t p => cacheReadByte t p .instruction
  | .rdwI _ _ => fun t p => cacheReadWord t p .instruction
  | .rdbD _ _ => fun t p => cacheReadByte t p .data
  | .rdwD _ _ => fun t p => cacheReadWord t p .data
  | .wrbD wdata _ => fun t p => cacheWriteByte t p (wdata.extractLsb' 0 8)
  | .wrwD wdata _ => fun t p => cacheWriteWord t p wdata
  | .illegalWrI _ _ _ => fun _ _ => .error .badParameter
  | .xlate _ _ => fun _ _ => .error .badParameter
  | .dump _ _ _ _ _ => fun _ _ => .error .badParameter
  | .reserved101x _ _ _ => fun _ _ => .error .badParameter
  | .reserved11xx _ _ _ => fun _ _ => .error .badParameter

/-- The check of `wdata` that an access request makes before the pipeline (R230 checks 3 and 4). -/
def wdataAdmitted (i : Instr) : Bool :=
  match i with
  | .rdbI wdata _ => zeroOperand wdata
  | .rdwI wdata _ => zeroOperand wdata
  | .rdbD wdata _ => zeroOperand wdata
  | .rdwD wdata _ => zeroOperand wdata
  | .wrbD wdata _ => decide (wdata.toNat < 256)
  | .wrwD _ _ => true
  | .illegalWrI _ _ _ => false
  | .xlate _ _ => false
  | .dump _ _ _ _ _ => false
  | .reserved101x _ _ _ => false
  | .reserved11xx _ _ _ => false

/-- An access request is its pipeline, or `BadParameter` on its `wdata` (R230, R239). -/
theorem exec_of_access {i : Instr} {k : AccessKind} {vaddr : VAddr} (h : accessOf i = some (k, vaddr)) (s : State) :
    exec i s = .next (if wdataAdmitted i then access s k vaddr (cacheStage i) else s.raise .badParameter) := by
  cases i <;> cases h
  case wrbD wdata =>
    by_cases hw : wdata.toNat < 256 <;>
      simp [exec, execWrbD, byteOperand, wdataAdmitted, cacheStage, hw, Nat.not_le.2, Nat.not_lt.1]
  all_goals rfl

/-- How a request ends: a response alone is written, or the access pipeline runs. -/
theorem exec_cases {i : Instr} {s t : State} (h : exec i s = .next t) :
    (∃ r, t = s.respond r) ∨
      ∃ k vaddr, accessOf i = some (k, vaddr) ∧ wdataAdmitted i = true ∧ t = access s k vaddr (cacheStage i) := by
  cases hi : accessOf i with
  | some x =>
    obtain ⟨k, vaddr⟩ := x
    rw [exec_of_access hi] at h
    split at h <;> cases h
    · exact .inr ⟨k, vaddr, rfl, ‹_›, rfl⟩
    · exact .inl ⟨_, rfl⟩
  | none =>
    refine .inl ?_
    cases i with
    | xlate wdata vaddr =>
      cases h
      split
      · split
        · exact ⟨_, rfl⟩
        · split <;> exact ⟨_, rfl⟩
      · exact ⟨_, rfl⟩
    | dump wdata mbz way idx arr =>
      cases h
      split <;> exact ⟨_, rfl⟩
    | illegalWrI size wdata vaddr => cases h; exact ⟨_, rfl⟩
    | reserved101x x wdata vaddr => cases h; exact ⟨_, rfl⟩
    | reserved11xx x wdata vaddr => cases h; exact ⟨_, rfl⟩
    | rdbI | rdwI | rdbD | rdwD | wrbD | wrwD => cases hi

/-- The cache stage raises `BadParameter` or `OutOfBounds`, nothing else. -/
theorem cacheStage_error {i : Instr} {s : State} {paddr : PAddr} {e : ErrorKind} (h : cacheStage i s paddr = .error e) :
    e = .badParameter ∨ e = .outOfBounds := by
  have hbyte : ∀ k, cacheReadByte s paddr k = .error e → e = .badParameter ∨ e = .outOfBounds := by
    intro k hk
    unfold cacheReadByte at hk
    split at hk <;> cases hk
    exact cacheReadWord_error ‹_›
  cases i with
  | rdbI | rdbD => exact hbyte _ h
  | rdwI | rdwD => exact cacheReadWord_error h
  | wrwD => exact cacheWriteWord_error h
  | wrbD =>
    simp only [cacheStage, cacheWriteByte] at h
    split at h
    · cases h
      exact cacheReadWord_error ‹_›
    · split at h <;> cases h
      exact cacheWriteWord_error ‹_›
  | illegalWrI | xlate | dump | reserved101x | reserved11xx => cases h; exact .inl rfl

end Sys2Proof.Machine

/-! PROOFS. What a step keeps (spec/10_state.md section 8, spec/60_exceptions.md sections 1 and 2): an invariant of the
pipeline's stages is one of every request, and one of every request is one of every step. -/

namespace Sys2Proof.Machine

/-! ### Frames of the cache stage -/

/-- The fields that no cache operation writes. -/
abbrev sameButCaches (s t : State) : Prop :=
  t.cfg = s.cfg ∧ sameTlb s t ∧ t.requests = s.requests ∧ t.response = s.response

theorem sameButCaches.trans {s t u : State} (h : sameButCaches s t) (h' : sameButCaches t u) : sameButCaches s u := by
  obtain ⟨hcfg, ⟨h1, h2, h3, h4, h5⟩, hreq, hresp⟩ := h
  obtain ⟨hcfg', ⟨h1', h2', h3', h4', h5'⟩, hreq', hresp'⟩ := h'
  exact ⟨hcfg'.trans hcfg, ⟨h1'.trans h1, h2'.trans h2, h3'.trans h3, h4'.trans h4, h5'.trans h5⟩, hreq'.trans hreq,
    hresp'.trans hresp⟩

section
variable {s : State} {paddr : PAddr} {k : AccessKind} {c : Served}

theorem cacheReadWord_sameButCaches (h : cacheReadWord s paddr k = .ok c) : sameButCaches s c.state := by
  obtain ⟨hcfg, -, -, htlb, hreq, hresp⟩ := cacheReadWord_frame s paddr k c h
  exact ⟨hcfg, htlb, hreq, hresp⟩

theorem cacheWriteWord_sameButCaches {v : Word} (h : cacheWriteWord s paddr v = .ok c) : sameButCaches s c.state := by
  obtain ⟨hcfg, -, htlb, hreq, hresp⟩ := cacheWriteWord_frame s paddr v c h
  exact ⟨hcfg, htlb, hreq, hresp⟩

end

/-- Every cache stage is made of word reads and word writes of the kind of the request (R214, R219): what both keep, the
stage keeps. The address of either is `paddr` or its containing word. -/
theorem cacheStage_preserves {P : State → Prop} {i : Instr} {k : AccessKind} {vaddr : VAddr} {s : State} {paddr : PAddr}
    {c : Served} (hi : accessOf i = some (k, vaddr))
    (hread : ∀ t q d, P t → q = paddr ∨ q = wordAligned paddr → cacheReadWord t q k = .ok d → P d.state)
    (hwrite : ∀ t q v d, P t → k = .data → isWrite i = true → q = paddr ∨ q = wordAligned paddr →
      cacheWriteWord t q v = .ok d → P d.state)
    (hs : P s) (h : cacheStage i s paddr = .ok c) : P c.state := by
  have hbyte : cacheReadByte s paddr k = .ok c → P c.state := by
    intro hb
    obtain ⟨r, hr, rfl⟩ := (cacheReadByte_eq_ok s paddr k c).1 hb
    exact hread s _ r hs (.inr rfl) hr
  cases i <;> cases hi
  case rdbI | rdbD => exact hbyte h
  case rdwI | rdwD => exact hread s _ c hs (.inl rfl) h
  case wrwD => exact hwrite s _ _ c hs rfl rfl (.inl rfl) h
  case wrbD =>
    obtain ⟨r, w, hr, hw, rfl⟩ := (cacheWriteByte_eq_ok s paddr _ c).1 h
    exact hwrite _ _ _ w (hread s _ r hs (.inr rfl) hr) rfl rfl (.inr rfl) hw

/-- The cache stage writes memory and the caches at most. -/
theorem cacheStage_sameButCaches {i : Instr} {k : AccessKind} {vaddr : VAddr} {s : State} {paddr : PAddr} {c : Served}
    (hi : accessOf i = some (k, vaddr)) (h : cacheStage i s paddr = .ok c) : sameButCaches s c.state :=
  cacheStage_preserves (P := sameButCaches s) hi
    (fun _ _ _ ht _ hd => ht.trans (cacheReadWord_sameButCaches hd))
    (fun _ _ _ _ ht _ _ _ hd => ht.trans (cacheWriteWord_sameButCaches hd))
    ⟨rfl, ⟨rfl, rfl, rfl, rfl, rfl⟩, rfl, rfl⟩ h

/-! ### Invariants -/

/-- A property that the TLB stage and then the cache stage keep is kept by every request, if no response matters to it. -/
theorem exec_preserves {P : State → Prop} {i : Instr} {s t : State} (hrespond : ∀ u r, P u → P (u.respond r)) (hs : P s)
    (haccess : ∀ k vaddr a r, accessOf i = some (k, vaddr) → decomposeVirtual vaddr = .ok a → tlbService s a k = .ok r →
      P r.state ∧ ∀ c, cacheStage i r.state (composePhysical r.phys) = .ok c → P c.state)
    (h : exec i s = .next t) : P t := by
  obtain ⟨r, rfl⟩ | ⟨k, vaddr, hi, -, rfl⟩ := exec_cases h
  · exact hrespond s r hs
  · obtain ⟨e, -, ht⟩ | ⟨a, e, -, -, ht⟩ | ⟨a, r, e, hd, hr, -, ht⟩ | ⟨a, r, c, hd, hr, hc, ht⟩ :=
      access_cases s k vaddr (cacheStage i) <;> rw [ht]
    · exact hrespond _ _ hs
    · exact hrespond _ _ hs
    · exact hrespond _ _ (haccess k vaddr a r hi hd hr).1
    · exact hrespond _ _ ((haccess k vaddr a r hi hd hr).2 c hc)

/-- What every request keeps, once the request port has moved on, a step keeps. -/
theorem step_preserves {P : State → Prop} {s t : State} (hs : P s)
    (hexec : ∀ w rest, s.requests = w :: rest → exec (decode w) { s with requests := rest } = .next t → P t)
    (h : step s = .next t) : P t := by
  obtain ⟨-, hstep⟩ | ⟨-, -, hstep⟩ | ⟨w, rest, -, hreq, hstep⟩ := step_cases s <;> rw [hstep] at h
  · cases h
  · cases h
    exact hs
  · exact hexec w rest hreq h

/-- Every request leaves the build parameters and the request port as they are. -/
theorem exec_cfg_requests {i : Instr} {s t : State} (h : exec i s = .next t) : t.cfg = s.cfg ∧ t.requests = s.requests := by
  refine exec_preserves (P := fun u => u.cfg = s.cfg ∧ u.requests = s.requests) (fun _ _ hu => hu) ⟨rfl, rfl⟩ ?_ h
  intro k vaddr a r hi _ hr
  obtain ⟨hcfg, -, -, -, -, hreq, -⟩ := tlbService_sameButTlb s a k r hr
  refine ⟨⟨hcfg, hreq⟩, fun c hc => ?_⟩
  obtain ⟨hcfg', -, hreq', -⟩ := cacheStage_sameButCaches hi hc
  exact ⟨hcfg'.trans hcfg, hreq'.trans hreq⟩

/-! ### The obligations on the step -/

/-- Settles O10: a step waits with an empty list, or runs a request on the rest of the list. -/
theorem stepKeepsBuildParameters : Obligations.StepKeepsBuildParameters := by
  intro s t h
  obtain ⟨-, hstep⟩ | ⟨-, hreq, hstep⟩ | ⟨w, rest, -, hreq, hstep⟩ := step_cases s <;> rw [hstep] at h
  · cases h
  · cases h
    rw [hreq]
    exact ⟨rfl, rfl⟩
  · rw [hreq]
    exact exec_cfg_requests h

/-- A state of a CORE has a next state. -/
theorem step_eq_next {s : State} (hvalid : s.cfg.valid = true) : ∃ t, step s = .next t := by
  obtain ⟨hinvalid, -⟩ | ⟨-, -, hstep⟩ | ⟨w, rest, -, -, hstep⟩ := step_cases s
  · rw [hvalid] at hinvalid
    cases hinvalid
  · exact ⟨s, hstep⟩
  · rw [hstep]
    exact exec_eq_next _ _

/-- A run whose first step answers goes on from there. -/
theorem run_succ_of_step {M : Host.Core} {s t : M.State} (h : M.step s = .next t) (n : Nat) :
    M.run (n + 1) s = M.run n t := by
  rw [Host.Core.run, h]

/-- Settles O9, by induction on the length of the run: every state of it has the build parameters of the first. -/
theorem everyRunCompletes : Obligations.EveryRunCompletes := by
  intro s hvalid n
  induction n generalizing s with
  | zero => exact ⟨s, rfl⟩
  | succ n ih =>
    obtain ⟨t, hstep⟩ := step_eq_next hvalid
    obtain ⟨u, hrun⟩ := ih t ((stepKeepsBuildParameters s t hstep).1 ▸ hvalid)
    exact ⟨u, (run_succ_of_step hstep n).trans hrun⟩

/-- Settles O8: the two cases of a step that runs no request. -/
theorem stepWaitsOrRefuses : Obligations.StepWaitsOrRefuses := by
  refine fun s => ⟨fun hvalid hreq => ?_, fun hinvalid => ?_⟩
  · simp only [step, hvalid, (takeRequest_eq_none s).2 hreq, idle, if_true]
  · simp only [step, hinvalid, Bool.false_eq_true, if_false]

/-- Settles O7: the head of the list is decoded; a word placed as a number of 100 bits is the word (O1). -/
theorem stepRunsTheDecodedRequest : Obligations.StepRunsTheDecodedRequest := by
  have hrun : ∀ (s : State) (w : Request) (rest : List Request), s.cfg.valid = true → s.requests = w :: rest →
      step s = exec (decode w) { s with requests := rest } := by
    intro s w rest hvalid hreq
    simp only [step, hvalid, takeRequest, hreq, if_true]
  refine ⟨fun s w rest i hvalid hreq hdecode => hdecode ▸ hrun s w rest hvalid hreq, fun s i nbits hvalid => ?_⟩
  have hword : BitVec.ofNat 100 (encode i).toNat = encode i := by simp
  rw [hrun (s.withFetchWord nbits (encode i).toNat) (encode i) s.requests hvalid
    (by rw [State.withFetchWord_requests, hword]), decodeOfEncodeIsIdentity]
  rfl

/-- Settles O55: a request that is no write only reads words, and no word read writes memory. -/
theorem onlyWritesChangeMemory : Obligations.OnlyWritesChangeMemory := by
  intro s t hwrite h
  refine step_preserves (P := fun u => u.mem = s.mem) rfl (fun w rest hreq hexec => ?_) h
  refine exec_preserves (s := { s with requests := rest }) (P := fun u => u.mem = s.mem) (fun _ _ hu => hu) rfl
    (fun k vaddr a r hi _ hr => ?_) hexec
  have hmem : r.state.mem = s.mem := (tlbService_sameButTlb _ a k r hr).2.1
  refine ⟨hmem, fun c hc => cacheStage_preserves (P := fun u => u.mem = s.mem) hi ?_ ?_ hmem hc⟩
  · exact fun u q d hu _ hd => (cacheReadWord_frame u q k d hd).2.1.trans hu
  · intro u q v d _ _ hwr
    rw [hwrite w rest hreq] at hwr
    cases hwr

end Sys2Proof.Machine

/-! PROOFS. The requests that are refused and those that only inspect (spec/45_access.md sections 1 to 4): `XLATE` answers from
memory, `DUMP` shows the entry its selector names, and an error response carries its status alone. -/

namespace Sys2Proof.Machine

/-! ### Ill-formed requests -/

/-- A slice is zero exactly when the quotient's remainder is. -/
theorem extractLsb'_beq_zero_iff {w start len : Nat} (x : BitVec w) :
    (x.extractLsb' start len == 0) = true ↔ x.toNat / 2 ^ start % 2 ^ len = 0 := by
  rw [beq_iff_eq, ← BitVec.toNat_inj, toNat_extractLsb'_eq_mod]
  simp

/-- `vaddr[63:48]` is zero exactly below 2^48 (R85). -/
theorem shortVaddr_iff (vaddr : VAddr) : Instr.shortVaddr vaddr = true ↔ vaddr.toNat < 2 ^ 48 := by
  have hlt : vaddr.toNat < 2 ^ 64 := vaddr.isLt
  rw [Instr.shortVaddr, extractLsb'_beq_zero_iff]
  omega

/-- `wdata[31:8]` is zero exactly for a byte (R91). -/
theorem byteWdata_iff (wdata : Word) : Instr.byteWdata wdata = true ↔ wdata.toNat < 256 := by
  have hlt : wdata.toNat < 2 ^ 32 := wdata.isLt
  rw [Instr.byteWdata, extractLsb'_beq_zero_iff]
  omega

/-- The array codes of 8 and more are reserved (R97). -/
theorem dumpArray_eq_none_iff (arr : BitVec 4) : dumpArray arr = none ↔ 8 ≤ arr.toNat := by
  revert arr
  decide

/-- The highest bit of a reserved array code is set (R97). -/
theorem le_of_arr_high_bit {arr : BitVec 4} (h : arr.extractLsb' 3 1 ≠ 0) : 8 ≤ arr.toNat := by
  revert arr
  decide

/-- An access request is well-formed when its `wdata` is admitted and its address short (R93). -/
theorem wellFormed_of_access {i : Instr} {k : AccessKind} {vaddr : VAddr} (h : accessOf i = some (k, vaddr)) :
    i.wellFormed = (wdataAdmitted i && Instr.shortVaddr vaddr) := by
  cases i <;> cases h
  case wrbD wdata => simp [Instr.wellFormed, wdataAdmitted, ← byteWdata_iff]
  all_goals rfl

/-- An access to an address of 2^48 and more answers `BadParameter` (R111). -/
theorem access_of_le {vaddr : VAddr} (h : 2 ^ 48 ≤ vaddr.toNat) (s : State) (k : AccessKind)
    (f : State → PAddr → Except ErrorKind Served) : access s k vaddr f = s.raise .badParameter := by
  rw [access, decomposeVirtual_of_le h]

/-- A selector with a must-be-zero field set, or with a reserved array code, names no entry (R97). -/
theorem dumpSelect_of_illFormed {wdata : Word} {mbz : BitVec 20} {arr : BitVec 4}
    (h : wdata ≠ 0 ∨ mbz ≠ 0 ∨ 8 ≤ arr.toNat) (c : Config) (way : BitVec 8) (idx : BitVec 32) :
    dumpSelect c wdata mbz way idx arr = none := by
  unfold dumpSelect
  split
  · rfl
  · rw [(dumpArray_eq_none_iff arr).2 (by tauto)]

/-- A selector that names an array of the table names no entry when it is not built, or too short, or has too few ways
(R240). -/
theorem dumpSelect_of_missing {x : DumpArray} {arr : BitVec 4} {c : Config} {way : BitVec 8} {idx : BitVec 32}
    (harr : dumpArray arr = some x)
    (h : x.built c = false ∨ x.size c ≤ idx.toNat ∨ x.wayCount c ≤ way.toNat) (wdata : Word) (mbz : BitVec 20) :
    dumpSelect c wdata mbz way idx arr = none := by
  unfold dumpSelect
  split
  · rfl
  · rw [harr]
    refine if_neg fun ⟨hbuilt, hidx, hway⟩ => ?_
    obtain hb | hs | hw := h
    · rw [hb] at hbuilt
      cases hbuilt
    · omega
    · omega

/-- A selector that names an entry (R240). -/
theorem dumpSelect_of_exists {x : DumpArray} {arr : BitVec 4} {c : Config} {way : BitVec 8} {idx : BitVec 32}
    (harr : dumpArray arr = some x) (hbuilt : x.built c = true) (hidx : idx.toNat < x.size c)
    (hway : way.toNat < x.wayCount c) : dumpSelect c 0 0 way idx arr = some x := by
  simp [dumpSelect, harr, hbuilt, hidx, hway]

/-- A `DUMP` whose selector names no entry (R240). -/
theorem exec_dump_of_none {s : State} {wdata : Word} {mbz : BitVec 20} {way : BitVec 8} {idx : BitVec 32} {arr : BitVec 4}
    (h : dumpSelect s.cfg wdata mbz way idx arr = none) :
    exec (.dump wdata mbz way idx arr) s = .next (s.raise .badParameter) := by
  rw [exec, execDump, h]

/-- A `DUMP` whose selector names an entry (R240). -/
theorem exec_dump_of_some {s : State} {wdata : Word} {mbz : BitVec 20} {way : BitVec 8} {idx : BitVec 32} {arr : BitVec 4}
    {x : DumpArray} (h : dumpSelect s.cfg wdata mbz way idx arr = some x) :
    exec (.dump wdata mbz way idx arr) s =
      .next (s.respond (Response.inspection (dumpPayload s x idx.toNat way.toNat))) := by
  rw [exec, execDump, h]

/-- `XLATE` with a `wdata` that is not 0, or an address of 2^48 and more (R238). -/
theorem exec_xlate_of_illFormed {wdata : Word} {vaddr : VAddr} (h : zeroOperand wdata = false ∨ 2 ^ 48 ≤ vaddr.toNat)
    (s : State) : exec (.xlate wdata vaddr) s = .next (s.raise .badParameter) := by
  cases hz : zeroOperand wdata with
  | false => simp [exec, execXlate, hz]
  | true =>
    have hle : 2 ^ 48 ≤ vaddr.toNat := h.resolve_left (by simp [hz])
    simp [exec, execXlate, hz, decomposeVirtual_of_le hle]

/-- `XLATE` of an address that the codec accepts (R238). -/
theorem exec_xlate_of_decompose {vaddr : VAddr} {a : VirtualAddress} (h : decomposeVirtual vaddr = .ok a) (s : State) :
    (∀ p, walk s.cfg.memLen s.mem a = .ok p →
        exec (.xlate 0 vaddr) s = .next (s.respond (Response.translation (composePhysical p)))) ∧
      ∀ e, walk s.cfg.memLen s.mem a = .error e → exec (.xlate 0 vaddr) s = .next (s.raise e) := by
  constructor <;> intro x hx <;> simp [exec, execXlate, zeroOperand, h, hx]

/-- Settles O4: an access fails on its `wdata` or its address; `XLATE` and `DUMP` likewise; the other groups always do. -/
theorem illFormedRequestsAreBadParameter : Obligations.IllFormedRequestsAreBadParameter := by
  intro i s hill
  cases hi : accessOf i with
  | some x =>
    obtain ⟨k, vaddr⟩ := x
    rw [exec_of_access hi]
    rw [wellFormed_of_access hi, Bool.and_eq_false_iff] at hill
    obtain hw | hv := hill
    · rw [if_neg (by simp [hw])]
    · have hle : 2 ^ 48 ≤ vaddr.toNat := by
        rw [← Nat.not_lt, ← shortVaddr_iff, hv]
        exact Bool.false_ne_true
      rw [access_of_le hle, ite_self]
  | none =>
    cases i with
    | illegalWrI | reserved101x | reserved11xx => rfl
    | xlate wdata vaddr =>
      rw [Instr.wellFormed, Bool.and_eq_false_iff, ← Bool.not_eq_true (Instr.shortVaddr vaddr), shortVaddr_iff,
        Nat.not_lt] at hill
      exact exec_xlate_of_illFormed hill s
    | dump wdata mbz way idx arr =>
      refine exec_dump_of_none (dumpSelect_of_illFormed ?_ _ way idx)
      simp only [Instr.wellFormed, Instr.zeroWdata, Instr.dumpSelector, Bool.and_eq_false_iff, beq_eq_false_iff_ne] at hill
      exact hill.imp_right (Or.imp_right le_of_arr_high_bit)
    | rdbI | rdwI | rdbD | rdwD | wrbD | wrwD => cases hi

/-- Settles O5: the three groups have one meaning. -/
theorem illegalAndReservedRequestsChangeNothing : Obligations.IllegalAndReservedRequestsChangeNothing :=
  fun _ => ⟨fun _ _ _ => rfl, fun _ _ _ => rfl, fun _ _ _ => rfl⟩

/-! ### `XLATE` and `DUMP` -/

/-- Settles O49: the codec accepts the address and the walk answers. -/
theorem xlateCompletes : Obligations.XlateCompletes :=
  fun s _ _ _ ha hwalk => (exec_xlate_of_decompose ha s).1 _ hwalk

/-- Settles O50: the codec looks at the address, and the walk at memory. -/
theorem xlateIgnoresTlbAndCaches : Obligations.XlateIgnoresTlbAndCaches := by
  intro s t s' t' wdata vaddr hmem hlen hs ht
  simp only [exec, execXlate, hmem, hlen, Host.Outcome.next.injEq] at hs ht
  rw [← hs, ← ht]
  split
  · split
    · rfl
    · split <;> rfl
  · rfl

/-- Settles O51: the selector names the entry, whose fields are the payload; `LRU` shows its token. -/
theorem dumpReturnsTheSelectedEntry : Obligations.DumpReturnsTheSelectedEntry := by
  intro s idx way
  have hzero : (0 : BitVec 8).toNat < 1 := Nat.zero_lt_one
  refine ⟨fun arr cache g set e harr hidx hway hset he => ?_, fun arr x org size e harr horg hidx he => ?_,
    fun t horg hidx ht => ?_⟩
  · have hentry : wayAt (cacheSet cache idx.toNat) way.toNat = e := by
      rw [cacheSet_of_getElem? hset, wayAt_of_getElem? he]
    obtain ⟨rfl, rfl, rfl⟩ | ⟨rfl, rfl, rfl⟩ | ⟨rfl, rfl, rfl⟩ := harr
    · rw [exec_dump_of_some (dumpSelect_of_exists (x := .l1i) rfl rfl hidx hway), dumpPayload, hentry]
      rfl
    · rw [exec_dump_of_some (dumpSelect_of_exists (x := .l1d) rfl rfl hidx hway), dumpPayload, hentry]
      rfl
    · rw [exec_dump_of_some (dumpSelect_of_exists (x := .l2) rfl rfl hidx hway), dumpPayload, hentry]
      rfl
  · have hentry : tlbEntryAt x idx.toNat = e := by
      rw [tlbEntryAt, List.getD_eq_getElem?_getD, he, Option.getD_some]
    obtain ⟨rfl, rfl, rfl, rfl⟩ | ⟨rfl, rfl, rfl, rfl⟩ | ⟨rfl, rfl, rfl, rfl⟩ | ⟨rfl, rfl, rfl, rfl⟩ := harr
    · rw [exec_dump_of_some (dumpSelect_of_exists (x := .tlb) rfl (beq_iff_eq.2 horg) hidx hzero), dumpPayload, hentry]
      rfl
    · rw [exec_dump_of_some (dumpSelect_of_exists (x := .itlb) rfl (beq_iff_eq.2 horg) hidx hzero), dumpPayload, hentry]
      rfl
    · rw [exec_dump_of_some (dumpSelect_of_exists (x := .dtlb) rfl (beq_iff_eq.2 horg) hidx hzero), dumpPayload, hentry]
      rfl
    · rw [exec_dump_of_some (dumpSelect_of_exists (x := .tlb2) rfl (beq_iff_eq.2 horg) hidx hzero), dumpPayload, hentry]
      rfl
  · refine ⟨tokenWord t, fun hlt => ?_, ?_⟩
    · rw [tokenWord_of_lt t hlt, toNat_ofNat_of_lt hlt]
    · rw [exec_dump_of_some (dumpSelect_of_exists (x := .lru) rfl (beq_iff_eq.2 horg) hidx hzero), dumpPayload,
        List.getD_eq_getElem?_getD, ht, Option.getD_some]
      rfl

/-- Settles O52: a bad must-be-zero field or code, or the first check of R240 that the array named fails. -/
theorem dumpRefusesBadSelectors : Obligations.DumpRefusesBadSelectors := by
  intro s wdata mbz way idx arr h
  refine exec_dump_of_none ?_
  have hmissing : ∀ x, dumpArray arr = some x →
      x.built s.cfg = false ∨ x.size s.cfg ≤ idx.toNat ∨ x.wayCount s.cfg ≤ way.toNat →
        dumpSelect s.cfg wdata mbz way idx arr = none :=
    fun x harr hx => dumpSelect_of_missing harr hx wdata mbz
  have hbuilt : ∀ {o : TlbOrg}, s.cfg.org = o → ∀ o', o ≠ o' → (s.cfg.org == o') = false := by
    rintro o rfl o' hne
    exact beq_false_of_ne hne
  obtain h | h | h | ⟨horg, rfl | rfl⟩ | ⟨horg, rfl | rfl | rfl⟩ | ⟨rfl | rfl, hidx⟩ | ⟨rfl | rfl, hidx⟩ | ⟨rfl, hidx⟩ |
    ⟨rfl | rfl, hbad⟩ | ⟨rfl, hbad⟩ | ⟨harr, hway⟩ := h
  · exact dumpSelect_of_illFormed (.inl h) _ way idx
  · exact dumpSelect_of_illFormed (.inr (.inl h)) _ way idx
  · exact dumpSelect_of_illFormed (.inr (.inr h)) _ way idx
  · exact hmissing .tlb rfl (.inl (hbuilt horg _ (by decide)))
  · exact hmissing .lru rfl (.inl (hbuilt horg _ (by decide)))
  · exact hmissing .itlb rfl (.inl (hbuilt horg _ (by decide)))
  · exact hmissing .dtlb rfl (.inl (hbuilt horg _ (by decide)))
  · exact hmissing .tlb2 rfl (.inl (hbuilt horg _ (by decide)))
  · exact hmissing .tlb rfl (.inr (.inl hidx))
  · exact hmissing .lru rfl (.inr (.inl hidx))
  · exact hmissing .itlb rfl (.inr (.inl hidx))
  · exact hmissing .dtlb rfl (.inr (.inl hidx))
  · exact hmissing .tlb2 rfl (.inr (.inl hidx))
  · exact hmissing .l1i rfl (.inr hbad)
  · exact hmissing .l1d rfl (.inr hbad)
  · exact hmissing .l2 rfl (.inr hbad)
  · have hpos : 1 ≤ way.toNat := by
      rw [ne_eq, ← BitVec.toNat_inj] at hway
      exact Nat.one_le_iff_ne_zero.2 hway
    obtain rfl | rfl | rfl | rfl | rfl := harr
    · exact hmissing .tlb rfl (.inr (.inr hpos))
    · exact hmissing .itlb rfl (.inr (.inr hpos))
    · exact hmissing .dtlb rfl (.inr (.inr hpos))
    · exact hmissing .tlb2 rfl (.inr (.inr hpos))
    · exact hmissing .lru rfl (.inr (.inr hpos))

/-! ### Responses -/

/-- Settles O56: a request that is no access ends in a response alone. -/
theorem inspectionChangesOnlyTheResponse : Obligations.InspectionChangesOnlyTheResponse := by
  intro i s t hi h
  obtain hr | ⟨k, vaddr, hsome, -⟩ := exec_cases h
  · exact hr
  · rw [hi] at hsome
    cases hsome

/-- A response that is not an error, or the bare response of an error that CORE raises (R83, R252). -/
def bareIfError (t : State) : Prop :=
  ∃ r, t.response = some r ∧ ∀ e, r.status = .error e → (e = .badParameter ∨ e = .outOfBounds) ∧ r = Response.error e

theorem bareIfError_raise (s : State) {e : ErrorKind} (h : e = .badParameter ∨ e = .outOfBounds) :
    bareIfError (s.raise e) := by
  refine ⟨_, rfl, fun e' he' => ?_⟩
  cases he'
  exact ⟨h, rfl⟩

theorem bareIfError_respond (s : State) {r : Response} (h : r.status = .ok) : bareIfError (s.respond r) := by
  refine ⟨_, rfl, fun e he => ?_⟩
  rw [h] at he
  cases he

/-- An access ends with an error of one of its stages, or with `OK`. -/
theorem bareIfError_access {i : Instr} (s : State) (k : AccessKind) (vaddr : VAddr) :
    bareIfError (access s k vaddr (cacheStage i)) := by
  obtain ⟨e, hd, ht⟩ | ⟨a, e, -, hr, ht⟩ | ⟨a, r, e, -, -, hc, ht⟩ | ⟨a, r, c, -, -, -, ht⟩ :=
    access_cases s k vaddr (cacheStage i) <;> rw [ht]
  · exact bareIfError_raise s (.inl (decomposeVirtual_error hd))
  · exact bareIfError_raise s (walk_error (tlbService_error s a k e hr))
  · exact bareIfError_raise _ (cacheStage_error hc)
  · exact bareIfError_respond _ rfl

theorem bareIfError_xlate {wdata : Word} {vaddr : VAddr} {s t : State} (h : exec (.xlate wdata vaddr) s = .next t) :
    bareIfError t := by
  cases h
  split
  · split
    next e hd => exact bareIfError_raise s (.inl (decomposeVirtual_error hd))
    next a hd =>
      split
      next e hwalk => exact bareIfError_raise s (walk_error hwalk)
      next p hwalk => exact bareIfError_respond s rfl
  · exact bareIfError_raise s (.inl rfl)

/-- Settles O57: the errors come from the stages of an access or of `XLATE`, or are `BadParameter`. -/
theorem errorResponsesCarryNothingElse : Obligations.ErrorResponsesCarryNothingElse := by
  intro i s t h
  show bareIfError t
  cases hi : accessOf i with
  | some x =>
    obtain ⟨k, vaddr⟩ := x
    rw [exec_of_access hi] at h
    split at h <;> cases h
    · exact bareIfError_access s k vaddr
    · exact bareIfError_raise s (.inl rfl)
  | none =>
    cases i with
    | xlate wdata vaddr => exact bareIfError_xlate h
    | dump wdata mbz way idx arr =>
      cases h
      split
      · exact bareIfError_raise s (.inl rfl)
      · exact bareIfError_respond s rfl
    | illegalWrI | reserved101x | reserved11xx =>
      cases h
      exact bareIfError_raise s (.inl rfl)
    | rdbI | rdwI | rdbD | rdwD | wrbD | wrwD => cases hi

end Sys2Proof.Machine

/-! PROOFS. Memory words, the codec's slices and the walker (spec/20_memory.md, spec/40_address_codec.md,
spec/41_page_walker.md): a walk is four offsets, each computed from the entry before, and one alignment check. -/

namespace Sys2Proof.Machine

/-! ### A word of memory -/

/-- Settles O11, bit by bit: bit `i` is bit `i % 8` of the byte it falls in, and the shifted bytes have no other bit there. -/
theorem memReadIsLittleEndian : Obligations.MemReadIsLittleEndian := by
  intro m addr
  have hpast : ∀ (b : Byte) (j : Nat), 8 ≤ j → b.getLsbD j = false := fun b j => BitVec.getLsbD_of_ge b j
  refine BitVec.eq_of_getLsbD_eq fun i hi => ?_
  simp only [memRead, BitVec.getLsbD_append, BitVec.getLsbD_or, BitVec.getLsbD_shiftLeft, BitVec.getLsbD_setWidth]
  have hplace : i < 8 ∨ (8 ≤ i ∧ i < 16) ∨ (16 ≤ i ∧ i < 24) ∨ 24 ≤ i := by omega
  obtain h | ⟨hlo, hhi⟩ | ⟨hlo, hhi⟩ | hlo := hplace <;> grind

/-! ### The codec -/

/-- Two structured addresses with the same field values are the same. -/
theorem VirtualAddress.ext_toNat {a b : VirtualAddress} (htop : a.top.toNat = b.top.toNat)
    (hupper : a.upper.toNat = b.upper.toNat) (hmiddle : a.middle.toNat = b.middle.toNat)
    (hlower : a.lower.toNat = b.lower.toNat) (hoffset : a.offset.toNat = b.offset.toNat) : a = b := by
  cases a
  cases b
  simp only [BitVec.toNat_inj] at htop hupper hmiddle hlower hoffset
  simp only [htop, hupper, hmiddle, hlower, hoffset]

/-- Decomposing inverts composing (R112): every structured address is one of 48 bits. -/
theorem decomposeVirtual_composeVirtual (a : VirtualAddress) : decomposeVirtual (composeVirtual a) = .ok a := by
  have hsum := composeVirtual_toNat a
  obtain ⟨b, hb, htop, hupper, hmiddle, hlower, hoffset⟩ := decomposeVirtual_of_lt (composeVirtual a) (by omega)
  rw [hb, VirtualAddress.ext_toNat (a := b) (b := a)] <;> omega

/-- Composing inverts slicing a flat physical address (R117). -/
theorem composePhysical_decomposePhysical (x : PAddr) : composePhysical (decomposePhysical x) = x := by
  have hx : x.toNat < 2 ^ 32 := x.isLt
  refine BitVec.eq_of_toNat_eq ?_
  simp only [composePhysical_toNat, decomposePhysical, toNat_extractLsb'_eq_mod]
  omega

/-- Settles O12: quotients and remainders; above bit 38 nothing is left of an address of 48 bits but the top index. -/
theorem decomposeSlicesTheAddress : Obligations.DecomposeSlicesTheAddress := by
  refine ⟨fun v => decomposeVirtual_of_le, fun v hv => ?_, decomposeVirtual_composeVirtual,
    composePhysical_decomposePhysical⟩
  obtain ⟨a, ha, htop, hrest⟩ := decomposeVirtual_of_lt v hv
  exact ⟨a, ha, htop.trans (Nat.mod_eq_of_lt (by omega)), hrest⟩

/-! ### The walker -/

section
variable (m : Memory) (a : VirtualAddress)

/-- The offset of the root entry (R132). -/
def walkOffset1 : Nat := 4 * a.top.toNat

/-- The offset of the second entry, from the root entry (R132). -/
def walkOffset2 : Nat := entryOffset (memRead m (walkOffset1 a)) a.upper

/-- The offset of the third entry (R132). -/
def walkOffset3 : Nat := entryOffset (memRead m (walkOffset2 m a)) a.middle

/-- The offset of the last entry (R132). -/
def walkOffset4 : Nat := entryOffset (memRead m (walkOffset3 m a)) a.lower

/-- One of the four entries does not lie inside memory. -/
def walkLeavesMemory (memLen : Nat) : Prop :=
  memLen < walkOffset1 a + 4 ∨ memLen < walkOffset2 m a + 4 ∨ memLen < walkOffset3 m a + 4 ∨ memLen < walkOffset4 m a + 4

/-- The root table stands at byte 0 (R132). -/
theorem entryOffset_zero (index : BitVec 9) : entryOffset 0 index = 4 * index.toNat := by
  simp [entryOffset]

/-- The four levels of a walk: outside memory at one of them, or the last entry (R132, R133). -/
theorem walkLevels_walkIndices (memLen : Nat) :
    (walkLeavesMemory m a memLen → walkLevels memLen m (walkIndices a) 0 = .error .outOfBounds) ∧
      (¬ walkLeavesMemory m a memLen → walkLevels memLen m (walkIndices a) 0 = .ok (memRead m (walkOffset4 m a))) := by
  have hlevels : walkLevels memLen m (walkIndices a) 0 =
      if memLen < walkOffset1 a + 4 then .error .outOfBounds
      else if memLen < walkOffset2 m a + 4 then .error .outOfBounds
      else if memLen < walkOffset3 m a + 4 then .error .outOfBounds
      else if memLen < walkOffset4 m a + 4 then .error .outOfBounds
      else .ok (memRead m (walkOffset4 m a)) := by
    simp only [walkIndices, walkLevels_cons, entryOffset_zero]
    rfl
  rw [hlevels, walkLeavesMemory]
  split_ifs <;> simp [*]

/-- A walk that leaves memory (R133). -/
theorem walk_of_leavesMemory {memLen : Nat} (h : walkLeavesMemory m a memLen) :
    walk memLen m a = .error .outOfBounds := by
  rw [walk, (walkLevels_walkIndices m a memLen).1 h]

/-- A walk inside memory ends with its last entry (R135). -/
theorem walk_of_not_leavesMemory {memLen : Nat} (h : ¬ walkLeavesMemory m a memLen) :
    walk memLen m a = physicalFromBase (memRead m (walkOffset4 m a)) a.offset := by
  rw [walk, (walkLevels_walkIndices m a memLen).2 h]

end

/-- A frame base that is not page-aligned (R118). -/
theorem physicalFromBase_of_misaligned {base : Word} (h : base.toNat % 4096 ≠ 0) (offset : BitVec 12) :
    physicalFromBase base offset = .error .badParameter := if_pos h

/-- A page-aligned frame base (R118). -/
theorem physicalFromBase_of_aligned {base : Word} (h : base.toNat % 4096 = 0) (offset : BitVec 12) :
    physicalFromBase base offset = .ok { pfn := BitVec.ofNat 20 (base.toNat / 4096), offset := offset } :=
  (physicalFromBase_eq_ok _ _ _).2 ⟨h, rfl⟩

/-- What a walk can do (R132 to R135). -/
theorem walk_cases (memLen : Nat) (m : Memory) (a : VirtualAddress) :
    (walkLeavesMemory m a memLen ∧ walk memLen m a = .error .outOfBounds) ∨
      (¬ walkLeavesMemory m a memLen ∧ (memRead m (walkOffset4 m a)).toNat % 4096 ≠ 0 ∧
        walk memLen m a = .error .badParameter) ∨
      (¬ walkLeavesMemory m a memLen ∧ (memRead m (walkOffset4 m a)).toNat % 4096 = 0 ∧
        walk memLen m a =
          .ok { pfn := BitVec.ofNat 20 ((memRead m (walkOffset4 m a)).toNat / 4096), offset := a.offset }) := by
  by_cases hout : walkLeavesMemory m a memLen
  · exact .inl ⟨hout, walk_of_leavesMemory m a hout⟩
  · rw [walk_of_not_leavesMemory m a hout]
    by_cases halign : (memRead m (walkOffset4 m a)).toNat % 4096 = 0
    · exact .inr (.inr ⟨hout, halign, physicalFromBase_of_aligned halign _⟩)
    · exact .inr (.inl ⟨hout, halign, physicalFromBase_of_misaligned halign _⟩)

/-- The frame number of a page-aligned entry is its quotient. -/
theorem eq_frame_iff (p : PhysicalAddress) (base : Word) (offset : BitVec 12) :
    ({ pfn := BitVec.ofNat 20 (base.toNat / 4096), offset := offset } : PhysicalAddress) = p ↔
      p.pfn.toNat = base.toNat / 4096 ∧ p.offset = offset := by
  have hbase : base.toNat < 2 ^ 32 := base.isLt
  have hframe : (BitVec.ofNat 20 (base.toNat / 4096)).toNat = base.toNat / 4096 := toNat_ofNat_of_lt (by omega)
  obtain ⟨pfn, off⟩ := p
  rw [PhysicalAddress.mk.injEq, ← BitVec.toNat_inj, hframe, eq_comm, eq_comm (a := offset)]

/-- Settles O16: the four entries are those read at the four offsets. -/
theorem walkReadsFourEntries : Obligations.WalkReadsFourEntries := by
  intro memLen m a p
  constructor
  · intro h
    obtain ⟨-, hw⟩ | ⟨-, -, hw⟩ | ⟨hin, halign, hw⟩ := walk_cases memLen m a <;> rw [hw] at h
    · cases h
    · cases h
    · simp only [walkLeavesMemory, not_or, Nat.not_lt] at hin
      obtain ⟨h1, h2, h3, h4⟩ := hin
      exact ⟨_, _, _, _, ⟨h1, rfl⟩, ⟨h2, rfl⟩, ⟨h3, rfl⟩, ⟨h4, rfl⟩, halign, (eq_frame_iff p _ _).1 (Except.ok.inj h)⟩
  · rintro ⟨e1, e2, e3, e4, ⟨h1, rfl⟩, ⟨h2, rfl⟩, ⟨h3, rfl⟩, ⟨h4, rfl⟩, halign, hp⟩
    change (memRead m (walkOffset4 m a)).toNat % 4096 = 0 at halign
    have hin : ¬ walkLeavesMemory m a memLen := by
      simp only [walkLeavesMemory, not_or, Nat.not_lt]
      exact ⟨h1, h2, h3, h4⟩
    rw [walk_of_not_leavesMemory m a hin, physicalFromBase_of_aligned halign]
    exact congrArg _ ((eq_frame_iff p _ _).2 hp)

/-- Settles O17: the three ways a walk ends exclude each other. -/
theorem walkErrors : Obligations.WalkErrors := by
  intro memLen m a
  show (_ ↔ walkLeavesMemory m a memLen) ∧
    (_ ↔ walkOffset1 a + 4 ≤ memLen ∧ walkOffset2 m a + 4 ≤ memLen ∧ walkOffset3 m a + 4 ≤ memLen ∧
      walkOffset4 m a + 4 ≤ memLen ∧ (memRead m (walkOffset4 m a)).toNat % 4096 ≠ 0) ∧ _
  have hin : (walkOffset1 a + 4 ≤ memLen ∧ walkOffset2 m a + 4 ≤ memLen ∧ walkOffset3 m a + 4 ≤ memLen ∧
      walkOffset4 m a + 4 ≤ memLen ∧ (memRead m (walkOffset4 m a)).toNat % 4096 ≠ 0) ↔
        ¬ walkLeavesMemory m a memLen ∧ (memRead m (walkOffset4 m a)).toNat % 4096 ≠ 0 := by
    simp only [walkLeavesMemory, not_or, Nat.not_lt, and_assoc]
  rw [hin]
  obtain ⟨hout, hw⟩ | ⟨hout, halign, hw⟩ | ⟨hout, halign, hw⟩ := walk_cases memLen m a <;> simp [hw, hout]
  all_goals exact halign

/-- An entry of a word-aligned table (R132). -/
theorem entryOffset_of_aligned {base : Word} (h : base.toNat % 4 = 0) (index : BitVec 9) :
    entryOffset base index = base.toNat + 4 * index.toNat := by
  unfold entryOffset
  omega

/-- Settles O18: each of the four entries is the one value its table holds, and lies inside its table. -/
theorem uniformTablesReachTheFrame : Obligations.UniformTablesReachTheFrame := by
  intro memLen m b1 b2 b3 f hlen0 hlen1 hlen2 hlen3 halign1 halign2 halign3 hroot h1 h2 h3 v hv
  obtain ⟨a, ha, hfields⟩ := decomposeVirtual_of_lt v hv
  have htop : a.top.toNat < 512 := a.top.isLt
  have hupper : a.upper.toNat < 512 := a.upper.isLt
  have hmiddle : a.middle.toNat < 512 := a.middle.isLt
  have hlower : a.lower.toNat < 512 := a.lower.isLt
  have hoffset : a.offset = v.extractLsb' 0 12 := by
    rw [← BitVec.toNat_inj, toNat_extractLsb'_eq_mod, hfields.2.2.2.2]
    simp
  have ho1 : walkOffset1 a = 4 * a.top.toNat := rfl
  have ho2 : walkOffset2 m a = b1.toNat + 4 * a.upper.toNat := by
    rw [walkOffset2, walkOffset1, hroot _ htop, entryOffset_of_aligned halign1]
  have ho3 : walkOffset3 m a = b2.toNat + 4 * a.middle.toNat := by
    rw [walkOffset3, ho2, h1 _ hupper, entryOffset_of_aligned halign2]
  have ho4 : walkOffset4 m a = b3.toNat + 4 * a.lower.toNat := by
    rw [walkOffset4, ho3, h2 _ hmiddle, entryOffset_of_aligned halign3]
  have hin : ¬ walkLeavesMemory m a memLen := by
    rw [walkLeavesMemory, ho1, ho2, ho3, ho4]
    omega
  have hbase : (f ++ 0#12 : Word).toNat = f.toNat * 4096 := by
    rw [toNat_append_eq_add]
    simp
  refine ⟨a, ha, ?_⟩
  rw [walk_of_not_leavesMemory m a hin, ho4, h3 _ hlower, physicalFromBase_of_aligned (by omega), ← hoffset]
  exact congrArg _ ((eq_frame_iff _ _ _).2 ⟨by rw [hbase, Nat.mul_div_cancel _ (by decide)], rfl⟩)

end Sys2Proof.Machine

/-! PROOFS. The eviction list at its ends, and its doubly linked form (spec/42_eviction_list.md): around a token the sequence
is `before ++ t :: after`, its neighbours are the last of `before` and the first of `after`, and `prev` is `next` of the
reversed sequence, so each fact about one array serves both. -/

namespace Sys2Proof.Machine

/-! ### The ends -/

/-- Pushing tokens one by one appends them (R147, R148). -/
theorem foldl_pushBack (tokens lru : List Nat) : tokens.foldl pushBack lru = lru ++ tokens := by
  induction tokens generalizing lru with
  | nil => simp
  | cons t rest ih => simp [ih, pushBack]

/-- `list_init(N)` is the identity order (R147). -/
theorem listInit_eq_range (n : Nat) : listInit n = List.range n := foldl_pushBack (List.range n) []

/-- What was pushed at the back is popped there (R148, R150). -/
theorem popBack_pushBack (lru : List Nat) (t : Nat) : popBack (pushBack lru t) = some (t, lru) := by
  simp [popBack, pushBack]

/-- Settles O20: each push puts the token where the pop of that end looks. -/
theorem listOperationsActAtTheEnds : Obligations.ListOperationsActAtTheEnds :=
  ⟨listInit_eq_range, fun lru t => ⟨popBack_pushBack lru t, rfl, rfl⟩⟩

/-- Moving another token to the back leaves the front token at the front (R152, R153). -/
theorem front_moveToBack_of_ne {lru : List Nat} {t u : Nat} (hfront : front lru = some t) (hne : u ≠ t) :
    front (moveToBack lru u) = some t := by
  cases lru with
  | nil => cases hfront
  | cons v rest =>
    obtain rfl : v = t := Option.some.inj hfront
    rw [moveToBack, List.erase_cons_tail (beq_false_of_ne hne.symm ▸ Bool.false_ne_true)]
    rfl

/-- So does moving any number of other tokens. -/
theorem front_foldl_moveToBack {lru touched : List Nat} {t : Nat} (hfront : front lru = some t)
    (htouched : ∀ u ∈ touched, u ≠ t) : front (touched.foldl moveToBack lru) = some t := by
  induction touched generalizing lru with
  | nil => exact hfront
  | cons u rest ih =>
    exact ih (front_moveToBack_of_ne hfront (htouched u (List.mem_cons_self ..)))
      fun v hv => htouched v (List.mem_cons_of_mem u hv)

/-- Settles O21: none of the tokens touched is the front one. -/
theorem untouchedFrontIsTheNextVictim : Obligations.UntouchedFrontIsTheNextVictim :=
  fun _ _ _ _ hfront htouched => front_foldl_moveToBack hfront fun u hu => (htouched u hu).2

/-! ### Neighbours in a sequence -/

/-- What follows a token is the first of the tokens after it. -/
theorem tokenAfter_append_cons {before : List Nat} {t : Nat} (after : List Nat) (h : t ∉ before) :
    tokenAfter (before ++ t :: after) t = after.head? := by
  induction before with
  | nil => simp [tokenAfter]
  | cons u rest ih =>
    obtain ⟨hu, hrest⟩ : t ≠ u ∧ t ∉ rest := by simpa using h
    simp [tokenAfter, Ne.symm hu, ih hrest]

/-- What precedes a token is the last of the tokens before it. -/
theorem tokenBefore_append_cons (before : List Nat) {t : Nat} {after : List Nat} (h : t ∉ after) :
    tokenBefore (before ++ t :: after) t = before.getLast? := by
  have hrev : (before ++ t :: after).reverse = after.reverse ++ t :: before.reverse := by simp
  rw [tokenBefore, hrev, tokenAfter_append_cons _ (by simpa using h), List.head?_reverse]

/-- An array of links agrees with a sequence: it says what follows each of its tokens. -/
def linksFollow (links : List (Option Nat)) (seq : List Nat) : Prop :=
  ∀ u ∈ seq, links[u]? = some (tokenAfter seq u)

/-- The representation as two such arrays, `prev` that of the reversed sequence (R146). -/
theorem represents_iff (l : LinkedList) (seq : List Nat) :
    l.represents seq ↔
      l.head = seq.head? ∧ l.tail = seq.getLast? ∧ linksFollow l.next seq ∧ linksFollow l.prev seq.reverse := by
  simp only [LinkedList.represents, linksFollow, tokenBefore, List.mem_reverse]
  exact ⟨fun ⟨hh, ht, hl⟩ => ⟨hh, ht, fun u hu => (hl u hu).1, fun u hu => (hl u hu).2⟩,
    fun ⟨hh, ht, hn, hp⟩ => ⟨hh, ht, fun u hu => ⟨hn u hu, hp u hu⟩⟩⟩

/-- Write the link of a token, if there is one to write. -/
def relink (links : List (Option Nat)) (token : Option Nat) (link : Option Nat) : List (Option Nat) :=
  match token with
  | some t => links.set t link
  | none => links

@[simp] theorem relink_none (links : List (Option Nat)) (link : Option Nat) : relink links none link = links := rfl

@[simp] theorem relink_some (links : List (Option Nat)) (t : Nat) (link : Option Nat) :
    relink links (some t) link = links.set t link := rfl

@[simp] theorem relink_length (links : List (Option Nat)) (token link : Option Nat) :
    (relink links token link).length = links.length := by
  cases token <;> simp

theorem relink_getElem?_of_ne (links : List (Option Nat)) {token : Option Nat} {u : Nat} (h : token ≠ some u)
    (link : Option Nat) : (relink links token link)[u]? = links[u]? := by
  cases token with
  | none => rfl
  | some t => exact List.getElem?_set_ne (fun htu => h (congrArg some htu))

theorem relink_getElem?_self {links : List (Option Nat)} {u : Nat} {old : Option Nat} (h : links[u]? = some old)
    (link : Option Nat) : (relink links (some u) link)[u]? = some link := by
  obtain ⟨hlt, -⟩ := List.getElem?_eq_some_iff.1 h
  exact List.getElem?_set_self hlt

/-- A token of a list of distinct tokens, with what stands on its two sides. -/
theorem exists_split_of_mem {seq : List Nat} {u : Nat} (hnodup : seq.Nodup) (hu : u ∈ seq) :
    ∃ before after, seq = before ++ u :: after ∧ u ∉ before ∧ u ∉ after := by
  obtain ⟨before, after, rfl⟩ := List.append_of_mem hu
  obtain ⟨-, hcons, hdisjoint⟩ := List.nodup_append.1 hnodup
  exact ⟨before, after, rfl, fun h => hdisjoint u h u (by simp) rfl, (List.nodup_cons.1 hcons).1⟩

/-- A token that is not in a list is not its last one. -/
theorem getLast?_ne_of_notMem {seq : List Nat} {u : Nat} (h : u ∉ seq) : seq.getLast? ≠ some u :=
  fun hlast => h (List.mem_of_getLast? hlast)

/-- Taking a token out: the link of its predecessor becomes its successor, every other link of the rest is right already. -/
theorem linksFollow_unlink {links : List (Option Nat)} {before after : List Nat} {t : Nat}
    (hnodup : (before ++ t :: after).Nodup) (h : linksFollow links (before ++ t :: after)) :
    linksFollow (relink links before.getLast? after.head?) (before ++ after) := by
  obtain ⟨hbefore, hcons, hdisjoint⟩ := List.nodup_append.1 hnodup
  have hafter := (List.nodup_cons.1 hcons).2
  intro u hu
  obtain hu | hu := List.mem_append.1 hu
  · obtain ⟨b1, b2, rfl, h1, h2⟩ := exists_split_of_mem hbefore hu
    have hlink : links[u]? = some (b2 ++ t :: after).head? := by
      rw [h u (by simp), List.append_assoc, List.cons_append, tokenAfter_append_cons _ h1]
    rw [List.append_assoc, List.cons_append, tokenAfter_append_cons _ h1]
    cases b2 with
    | nil => simpa using relink_getElem?_self hlink after.head?
    | cons v b2 =>
      have hne : (b1 ++ u :: v :: b2).getLast? ≠ some u := by simpa using getLast?_ne_of_notMem h2
      rw [relink_getElem?_of_ne _ hne, hlink]
      rfl
  · have hne : u ∉ before := fun hmem => hdisjoint u hmem u (List.mem_cons_of_mem t hu) rfl
    obtain ⟨b1, b2, rfl, h1, h2⟩ := exists_split_of_mem hafter hu
    have ht : u ≠ t := fun hut => (List.nodup_cons.1 hcons).1 (hut ▸ hu)
    have hlink := h u (by simp)
    rw [show before ++ t :: (b1 ++ u :: b2) = (before ++ t :: b1) ++ u :: b2 by simp,
      tokenAfter_append_cons _ (by simp [hne, ht, h1])] at hlink
    rw [relink_getElem?_of_ne _ (getLast?_ne_of_notMem hne), hlink, ← List.append_assoc,
      tokenAfter_append_cons _ (by simp [hne, h1])]

/-- Putting a token at the back: the link of the last token becomes the new one, whose own link is `nil`. -/
theorem linksFollow_append {links : List (Option Nat)} {seq : List Nat} {t : Nat} (hnodup : seq.Nodup) (ht : t ∉ seq)
    (hlen : t < links.length) (h : linksFollow links seq) :
    linksFollow ((relink links seq.getLast? (some t)).set t none) (seq ++ [t]) := by
  intro u hu
  obtain hu | hu := List.mem_append.1 hu
  · have hne : t ≠ u := fun htu => ht (htu ▸ hu)
    obtain ⟨b1, b2, rfl, h1, h2⟩ := exists_split_of_mem hnodup hu
    have hlink := h u hu
    rw [tokenAfter_append_cons _ h1] at hlink
    rw [List.getElem?_set_ne hne, List.append_assoc, List.cons_append, tokenAfter_append_cons _ h1]
    cases b2 with
    | nil => simpa using relink_getElem?_self hlink (some t)
    | cons v b2 =>
      have hne' : (b1 ++ u :: v :: b2).getLast? ≠ some u := by simpa using getLast?_ne_of_notMem h2
      rw [relink_getElem?_of_ne _ hne', hlink]
      rfl
  · obtain rfl := List.mem_singleton.1 hu
    rw [tokenAfter_append_cons _ ht, List.getElem?_set_self (by simpa using hlen)]
    rfl

/-- Putting a token at the front, for the reversed sequence: its own link is the token that was first. -/
theorem linksFollow_cons {links : List (Option Nat)} {seq : List Nat} {t : Nat} (ht : t ∉ seq) (hlen : t < links.length)
    (h : linksFollow links seq) : linksFollow (links.set t seq.head?) (t :: seq) := by
  intro u hu
  obtain rfl | hu := List.mem_cons.1 hu
  · rw [List.getElem?_set_self hlen, tokenAfter, if_pos rfl]
  · have hne : t ≠ u := fun htu => ht (htu ▸ hu)
    rw [List.getElem?_set_ne hne, h u hu, tokenAfter, if_neg hne]

/-! ### The linked operations -/

/-- The neighbours that `unlink` reads are those of the sequence (R146). -/
theorem LinkedList.unlink_eq {l : LinkedList} {t : Nat} {before after : Option Nat} (hprev : l.prev[t]? = some before)
    (hnext : l.next[t]? = some after) :
    l.unlink t =
      { next := relink l.next before after
        prev := relink l.prev after before
        head := if before = none then after else l.head
        tail := if after = none then before else l.tail } := by
  unfold LinkedList.unlink
  rw [hprev, hnext]
  rfl

theorem LinkedList.append_eq (l : LinkedList) (t : Nat) :
    l.append t =
      { next := (relink l.next l.tail (some t)).set t none
        prev := l.prev.set t l.tail
        head := if l.tail = none then some t else l.head
        tail := some t } := by
  unfold LinkedList.append
  cases l.tail <;> rfl

/-- `unlink` takes a token out of the sequence read off. -/
theorem LinkedList.represents_unlink {l : LinkedList} {before after : List Nat} {t : Nat}
    (hnodup : (before ++ t :: after).Nodup) (h : l.represents (before ++ t :: after)) :
    (l.unlink t).represents (before ++ after) := by
  obtain ⟨-, hcons, hdisjoint⟩ := List.nodup_append.1 hnodup
  have hbefore : t ∉ before := fun hmem => hdisjoint t hmem t (List.mem_cons_self ..) rfl
  have hafter : t ∉ after := (List.nodup_cons.1 hcons).1
  obtain ⟨hnext, hprev⟩ := h.2.2 t (by simp)
  rw [tokenAfter_append_cons _ hbefore] at hnext
  rw [tokenBefore_append_cons _ hafter] at hprev
  obtain ⟨hhead, htail, hnexts, hprevs⟩ := (represents_iff _ _).1 h
  have hrev : (before ++ t :: after).reverse = after.reverse ++ t :: before.reverse := by simp
  rw [hrev] at hprevs
  rw [unlink_eq hprev hnext, represents_iff]
  refine ⟨?_, ?_, linksFollow_unlink hnodup hnexts, ?_⟩
  · rw [hhead]
    cases before <;> simp
  · rw [htail]
    cases after <;> simp
  · have hlinks := linksFollow_unlink (by rw [← hrev]; exact List.nodup_reverse.2 hnodup) hprevs
    rwa [List.getLast?_reverse, List.head?_reverse, ← List.reverse_append] at hlinks

/-- `append` puts a token at the back of the sequence read off. -/
theorem LinkedList.represents_append {l : LinkedList} {seq : List Nat} {t : Nat} (hnodup : seq.Nodup) (ht : t ∉ seq)
    (hnext : t < l.next.length) (hprev : t < l.prev.length) (h : l.represents seq) :
    (l.append t).represents (seq ++ [t]) := by
  obtain ⟨hhead, htail, hnexts, hprevs⟩ := (represents_iff _ _).1 h
  rw [append_eq, represents_iff, htail]
  refine ⟨?_, by simp, linksFollow_append hnodup ht hnext hnexts, ?_⟩
  · rw [hhead]
    cases seq <;> simp
  · have hlinks := linksFollow_cons (by simpa using ht) hprev hprevs
    rwa [List.head?_reverse, ← List.reverse_concat] at hlinks

/-- Settles O22: `move_to_back` is `unlink` and `append`, each of which the sequence follows; `head` is the front. -/
theorem linkedListRefinesSequence : Obligations.LinkedListRefinesSequence := by
  intro l lru t hnodup ht h
  have hmove : (l.moveToBack t).represents (moveToBack lru t) := by
    obtain ⟨hnext, hprev⟩ := h.2.2 t ht
    obtain ⟨before, after, rfl, hbefore, hafter⟩ := exists_split_of_mem hnodup ht
    have hrest : moveToBack (before ++ t :: after) t = (before ++ after) ++ [t] := by
      rw [moveToBack, List.erase_append_right _ hbefore, List.erase_cons_head]
    have hnodup' : (before ++ after).Nodup := hnodup.sublist (by simp)
    rw [hrest]
    refine LinkedList.represents_append hnodup' (by simp [hbefore, hafter]) ?_ ?_
      (LinkedList.represents_unlink hnodup h)
    · rw [LinkedList.unlink_eq hprev hnext, relink_length]
      exact (List.getElem?_eq_some_iff.1 hnext).1
    · rw [LinkedList.unlink_eq hprev hnext, relink_length]
      exact (List.getElem?_eq_some_iff.1 hprev).1
  exact ⟨hmove, h.1, hmove.1⟩

end Sys2Proof.Machine

/-! PROOFS. What the TLB arrays hold (spec/43_tlb.md): the service in terms of the lookup, the direct-mapped arrays as maps
from pages to frames, what an install and a supersession do to them, and so the contract and each case of the service. -/

namespace Sys2Proof.Machine

/-! ### The service and the lookup -/

/-- What the service does (R160, R161): on a hit it answers the frame looked up, on a miss what the walk does. -/
theorem tlbService_lookup_cases (s : State) (a : VirtualAddress) (k : AccessKind) :
    (∃ pfn t, tlbLookup s (virtualPageNumber a) k = (true, pfn) ∧
        tlbService s a k = .ok { phys := { pfn := pfn, offset := a.offset }, hit := true, state := t }) ∨
      (tlbLookup s (virtualPageNumber a) k = (false, 0) ∧
        (∀ p, walk s.cfg.memLen s.mem a = .ok p → ∃ t, tlbService s a k = .ok { phys := p, hit := false, state := t }) ∧
        ∀ e, walk s.cfg.memLen s.mem a = .error e → tlbService s a k = .error e) := by
  cases horg : s.cfg.org with
  | fa =>
    cases hprobe : faProbe s.tlb (virtualPageNumber a) with
    | some i => exact .inl ⟨_, _, by simp only [tlbLookup, horg, hprobe]; rfl, by
        simp only [tlbService, faService, horg, hprobe]; rfl⟩
    | none =>
      refine .inr ⟨by simp only [tlbLookup, horg, hprobe], fun p hw => ⟨faInstall s (virtualPageNumber a) p.pfn, ?_⟩, fun e hw => ?_⟩ <;>
        rw [tlbService_of_fa horg]
      · exact faService_of_walk_ok hprobe hw
      · exact faService_of_walk_error hprobe hw
  | hier =>
    rw [tlbService_of_hier horg]
    by_cases h1 : directHolds s.cfg.l1tBits (s.l1Tlb k) (virtualPageNumber a) = true
    · exact .inl ⟨_, _, by simp only [tlbLookup, horg, h1, if_true], hierService_of_l1_holds h1⟩
    · by_cases h2 : directHolds s.cfg.l2tBits s.tlb2 (virtualPageNumber a) = true
      · exact .inl ⟨_, _, by simp only [tlbLookup, horg, h1, h2, if_true]; rfl, by
          simp only [hierService, h1, h2, if_true]; rfl⟩
      · refine .inr ⟨by simp only [tlbLookup, horg, h1, h2]; rfl,
          fun p hw => ⟨hierInstall s k (virtualPageNumber a) p.pfn, ?_⟩, fun e hw => ?_⟩ <;>
          simp only [hierService, h1, h2, hw] <;> rfl

/-- Settles O23: the lookup hits or misses. -/
theorem tlbServiceFollowsItsContract : Obligations.TlbServiceFollowsItsContract := by
  intro s a k
  obtain ⟨pfn, t, hlookup, hr⟩ | ⟨hlookup, hok, herr⟩ := tlbService_lookup_cases s a k <;> rw [hlookup]
  · refine ⟨fun _ => ⟨t, hr⟩, nofun, fun e => ?_⟩
    rw [hr]
    exact ⟨nofun, nofun⟩
  · exact ⟨nofun, fun p _ hw => hok p hw,
      fun e => ⟨fun he => ⟨rfl, tlbService_error s a k e he⟩, fun ⟨_, hw⟩ => herr e hw⟩⟩

/-- The address or error of the service is the translation (R160). -/
theorem tlbService_phys (s : State) (a : VirtualAddress) (k : AccessKind) :
    Except.map Translated.phys (tlbService s a k) = translation s k a := by
  obtain ⟨pfn, t, hlookup, hr⟩ | ⟨hlookup, hok, herr⟩ := tlbService_lookup_cases s a k <;>
    rw [translation, hlookup]
  · rw [hr]
    rfl
  · cases hw : walk s.cfg.memLen s.mem a with
    | ok p =>
      obtain ⟨t, ht⟩ := hok p hw
      rw [ht]
      rfl
    | error e =>
      rw [herr e hw]
      rfl

/-- The address that a service answers is the translation. -/
theorem translation_of_tlbService {s : State} {a : VirtualAddress} {k : AccessKind} {r : Translated}
    (h : tlbService s a k = .ok r) : translation s k a = .ok r.phys := by
  rw [← tlbService_phys, h]
  rfl

/-- Where there is a translation the service answers it, with the hit of the lookup. -/
theorem tlbService_of_translation {s : State} {a : VirtualAddress} {k : AccessKind} {p : PhysicalAddress}
    (h : translation s k a = .ok p) :
    ∃ r, tlbService s a k = .ok r ∧ r.phys = p ∧ r.hit = (tlbLookup s (virtualPageNumber a) k).1 := by
  rw [← tlbService_phys] at h
  obtain ⟨pfn, t, hlookup, hr⟩ | ⟨hlookup, hok, herr⟩ := tlbService_lookup_cases s a k <;> rw [hlookup]
  · rw [hr] at h
    exact ⟨_, hr, Except.ok.inj h, rfl⟩
  · cases hw : walk s.cfg.memLen s.mem a with
    | ok q =>
      obtain ⟨t, ht⟩ := hok q hw
      rw [ht] at h
      exact ⟨_, ht, Except.ok.inj h, rfl⟩
    | error e =>
      rw [herr e hw] at h
      cases h

/-- A service keeps the offset of the address. -/
theorem tlbService_offset {s : State} {a : VirtualAddress} {k : AccessKind} {r : Translated}
    (h : tlbService s a k = .ok r) : r.phys.offset = a.offset := by
  have htrans := translation_of_tlbService h
  unfold translation at htrans
  split at htrans
  · rw [← Except.ok.inj htrans]
  · exact walk_offset _ _ _ _ htrans

/-! ### Fully-associative organisation -/

/-- The lowest matching valid entry is the one the probe finds (R162). -/
theorem faProbe_eq_some_iff (tlb : List TlbEntry) (vpn : Vpn) (i : Nat) :
    faProbe tlb vpn = some i ↔
      ∃ e, tlb[i]? = some e ∧ e.valid = true ∧ e.tag = vpn ∧
        ∀ (j : Nat) (f : TlbEntry), j < i → tlb[j]? = some f → f.valid = true → f.tag ≠ vpn := by
  rw [faProbe, List.findIdx?_eq_some_iff_getElem]
  simp only [matchesVpn_iff, not_and]
  constructor
  · rintro ⟨hlt, ⟨hvalid, htag⟩, hbelow⟩
    refine ⟨tlb[i], List.getElem?_eq_getElem hlt, hvalid, htag, fun j f hj hf => ?_⟩
    obtain ⟨-, rfl⟩ := List.getElem?_eq_some_iff.1 hf
    exact hbelow j hj
  · rintro ⟨e, he, hvalid, htag, hbelow⟩
    obtain ⟨hlt, rfl⟩ := List.getElem?_eq_some_iff.1 he
    exact ⟨hlt, ⟨hvalid, htag⟩, fun j hj => hbelow j _ hj (List.getElem?_eq_getElem (Nat.lt_trans hj hlt))⟩

/-- The entry at an index of an array. -/
theorem tlbEntryAt_of_getElem? {arr : List TlbEntry} {i : Nat} {e : TlbEntry} (h : arr[i]? = some e) :
    tlbEntryAt arr i = e := by
  rw [tlbEntryAt, List.getD_eq_getElem?_getD, h, Option.getD_some]

/-- A hit moves the token of the entry found to the back (R162). -/
theorem faService_of_probe {s : State} {a : VirtualAddress} {i : Nat} {e : TlbEntry}
    (hprobe : faProbe s.tlb (virtualPageNumber a) = some i) (he : s.tlb[i]? = some e) :
    faService s a = .ok
      { phys := { pfn := e.pfn, offset := a.offset }, hit := true, state := { s with lru := moveToBack s.lru i } } := by
  simp only [faService, hprobe, tlbEntryAt_of_getElem? he]

/-- Settles O25: the entry given is the one the probe finds. -/
theorem faHitMovesItsToken : Obligations.FaHitMovesItsToken := by
  intro s a k i e horg he hvalid htag hbelow
  rw [tlbService_of_fa horg]
  exact faService_of_probe ((faProbe_eq_some_iff _ _ _).2 ⟨e, he, hvalid, htag, hbelow⟩) he

/-- After a miss and its install the probe finds the entry installed (R163). -/
theorem faProbe_set_of_miss {tlb : List TlbEntry} {vpn : Vpn} (hmiss : faProbe tlb vpn = none) {t : Nat}
    (ht : t < tlb.length) (pfn : Pfn) : faProbe (tlb.set t (TlbEntry.installed vpn pfn)) vpn = some t := by
  refine (faProbe_eq_some_iff _ _ _).2 ⟨TlbEntry.installed vpn pfn, List.getElem?_set_self ht, rfl, rfl, ?_⟩
  intro j f hj hf
  rw [List.getElem?_set_ne (Nat.ne_of_gt hj)] at hf
  exact (faProbe_eq_none_iff _ _).1 hmiss f (List.mem_of_getElem? hf)

/-! ### Direct-mapped arrays -/

/-- Index and tag determine the page (R165). -/
theorem eq_of_directIndex_of_directTag {bits : Nat} {v w : Vpn} (hindex : directIndex bits v = directIndex bits w)
    (htag : directTag bits v = directTag bits w) : v = w := by
  have hdiv := (eq_directTag_iff bits w (directTag bits v)).1 htag
  rw [(eq_directTag_iff bits v (directTag bits v)).1 rfl] at hdiv
  rw [← BitVec.toNat_inj, ← Nat.div_add_mod v.toNat (2 ^ bits), ← Nat.div_add_mod w.toNat (2 ^ bits), hdiv]
  exact congrArg _ hindex

/-- A direct-mapped array holds page `v` with frame `pfn`. -/
def directHoldsAs (bits : Nat) (arr : List TlbEntry) (v : Vpn) (pfn : Pfn) : Prop :=
  directHolds bits arr v = true ∧ directPfn bits arr v = pfn

/-- In terms of the entry at the page's index (R165). -/
theorem directHoldsAs_iff (bits : Nat) (arr : List TlbEntry) (v : Vpn) (pfn : Pfn) :
    directHoldsAs bits arr v pfn ↔ tlbEntryAt arr (directIndex bits v) = TlbEntry.installed (directTag bits v) pfn := by
  rw [directHoldsAs, directHolds, directPfn, matchesVpn_iff]
  cases tlbEntryAt arr (directIndex bits v)
  simp only [TlbEntry.installed, TlbEntry.mk.injEq, and_assoc]

theorem directHolds_iff_exists (bits : Nat) (arr : List TlbEntry) (v : Vpn) :
    directHolds bits arr v = true ↔ ∃ pfn, directHoldsAs bits arr v pfn :=
  ⟨fun h => ⟨_, h, rfl⟩, fun ⟨_, h, _⟩ => h⟩

/-- An array that does not exist holds nothing. -/
theorem not_directHolds_nil (bits : Nat) (v : Vpn) : directHolds bits [] v = false := rfl

theorem tlbEntryAt_set_of_ne (arr : List TlbEntry) {i j : Nat} (h : i ≠ j) (e : TlbEntry) :
    tlbEntryAt (arr.set i e) j = tlbEntryAt arr j := by
  rw [tlbEntryAt, tlbEntryAt, List.getD_eq_getElem?_getD, List.getElem?_set_ne h, List.getD_eq_getElem?_getD]

theorem tlbEntryAt_set_self {arr : List TlbEntry} {i : Nat} (h : i < arr.length) (e : TlbEntry) :
    tlbEntryAt (arr.set i e) i = e :=
  tlbEntryAt_of_getElem? (List.getElem?_set_self h)

/-- A page that an array holds has its index in the array (log 9). -/
theorem directIndex_lt_of_directHolds {bits : Nat} {arr : List TlbEntry} {v : Vpn} (h : directHolds bits arr v = true) :
    directIndex bits v < arr.length := by
  by_contra hlt
  have hreset : tlbEntryAt arr (directIndex bits v) = TlbEntry.reset := by
    rw [tlbEntryAt, List.getD_eq_getElem?_getD, List.getElem?_eq_none (Nat.not_lt.1 hlt), Option.getD_none]
  rw [directHolds, hreset] at h
  cases h

@[simp] theorem directInstall_length (bits : Nat) (arr : List TlbEntry) (v : Vpn) (pfn : Pfn) :
    (directInstall bits arr v pfn).length = arr.length := List.length_set ..

@[simp] theorem directDrop_length (bits : Nat) (arr : List TlbEntry) (v : Vpn) :
    (directDrop bits arr v).length = arr.length := by
  unfold directDrop
  split <;> simp

/-- An install leaves every page of another index alone (R168, R169). -/
theorem directHoldsAs_directInstall_of_ne {bits : Nat} {v w : Vpn} (h : directIndex bits w ≠ directIndex bits v)
    (arr : List TlbEntry) (pfn q : Pfn) :
    directHoldsAs bits (directInstall bits arr w pfn) v q ↔ directHoldsAs bits arr v q := by
  rw [directHoldsAs_iff, directHoldsAs_iff, directInstall, tlbEntryAt_set_of_ne _ h]

/-- After an install the array holds the page (R168, R169). -/
theorem directHoldsAs_directInstall_self {bits : Nat} {arr : List TlbEntry} {w : Vpn}
    (h : directIndex bits w < arr.length) (pfn : Pfn) : directHoldsAs bits (directInstall bits arr w pfn) w pfn := by
  rw [directHoldsAs_iff, directInstall, tlbEntryAt_set_self h]

/-- What an array holds after an install: the page installed, or what it held before; at the index of the page nothing
else, if the array has it (R168, R169). -/
theorem directHoldsAs_of_directInstall {bits : Nat} {arr : List TlbEntry} {w v : Vpn} {pfn q : Pfn}
    (h : directHoldsAs bits (directInstall bits arr w pfn) v q) :
    (v = w ∧ q = pfn) ∨
      (directHoldsAs bits arr v q ∧ (directIndex bits w < arr.length → directIndex bits w ≠ directIndex bits v)) := by
  by_cases hindex : directIndex bits w = directIndex bits v
  · by_cases hlt : directIndex bits w < arr.length
    · rw [directHoldsAs_iff, directInstall, ← hindex, tlbEntryAt_set_self hlt, TlbEntry.installed, TlbEntry.installed,
        TlbEntry.mk.injEq] at h
      obtain ⟨-, htag, rfl⟩ := h
      exact .inl ⟨(eq_of_directIndex_of_directTag hindex htag).symm, rfl⟩
    · rw [directInstall, List.set_eq_of_length_le (Nat.not_lt.1 hlt)] at h
      exact .inr ⟨h, fun hlt' => absurd hlt' hlt⟩
  · exact .inr ⟨(directHoldsAs_directInstall_of_ne hindex arr pfn q).1 h, fun _ => hindex⟩

/-- What an array holds after a page is dropped: what it held before, but not that page (R169). -/
theorem directHoldsAs_of_directDrop {bits : Nat} {arr : List TlbEntry} {o v : Vpn} {q : Pfn}
    (h : directHoldsAs bits (directDrop bits arr o) v q) : directHoldsAs bits arr v q ∧ v ≠ o := by
  by_cases ho : directHolds bits arr o = true
  · rw [directDrop, if_pos ho] at h
    by_cases hindex : directIndex bits o = directIndex bits v
    · exfalso
      rw [directHoldsAs_iff, ← hindex, tlbEntryAt_set_self (directIndex_lt_of_directHolds ho)] at h
      cases congrArg TlbEntry.valid h
    · rw [directHoldsAs_iff, tlbEntryAt_set_of_ne _ hindex, ← directHoldsAs_iff] at h
      exact ⟨h, fun hvo => hindex (congrArg _ hvo.symm)⟩
  · rw [directDrop, if_neg ho] at h
    exact ⟨h, fun hvo => ho (hvo ▸ h.1)⟩

end Sys2Proof.Machine

/-! PROOFS. The hierarchical TLB and what the services keep (spec/43_tlb.md section 3, spec/10_state.md section 7): the page
that an install takes out of `TLB2` is dropped from both L1 arrays, so inclusion holds again. -/

namespace Sys2Proof.Machine

/-! ### The page of an entry -/

/-- The index of the page that an entry stands for is the index of the entry (R28). -/
theorem directIndex_directVpn (bits : Nat) (tag v : Vpn) :
    directIndex bits (directVpn bits tag (directIndex bits v)) = directIndex bits v := by
  have hv : v.toNat < 2 ^ 36 := v.isLt
  have hi : v.toNat % 2 ^ bits < 2 ^ 36 := Nat.lt_of_le_of_lt (Nat.mod_le ..) hv
  have hshift : tag.toNat <<< bits % 2 ^ 36 % 2 ^ bits = 0 := by
    rw [Nat.shiftLeft_eq]
    obtain hle | hle := Nat.le_total bits 36
    · rw [Nat.mod_mod_of_dvd _ (Nat.pow_dvd_pow 2 hle), Nat.mul_mod_left]
    · rw [Nat.mod_eq_zero_of_dvd (Nat.dvd_mul_left_of_dvd (Nat.pow_dvd_pow 2 hle) _), Nat.zero_mod]
  rw [directIndex, directVpn, BitVec.toNat_or, BitVec.toNat_shiftLeft, directIndex, toNat_ofNat_of_lt hi,
    Nat.or_mod_two_pow, hshift, Nat.zero_or, Nat.mod_mod]

/-- The entry of a page stands for that page (R28). -/
theorem directVpn_directTag (bits : Nat) (v : Vpn) : directVpn bits (directTag bits v) (directIndex bits v) = v := by
  have hv : v.toNat < 2 ^ 36 := v.isLt
  have hi : v.toNat % 2 ^ bits < 2 ^ 36 := Nat.lt_of_le_of_lt (Nat.mod_le ..) hv
  have hlow : v.toNat % 2 ^ bits < 2 ^ bits := Nat.mod_lt _ (Nat.two_pow_pos _)
  have hsum : (v.toNat / 2 ^ bits) <<< bits + v.toNat % 2 ^ bits = v.toNat := by
    rw [Nat.shiftLeft_eq]
    exact Nat.div_add_mod' ..
  rw [← BitVec.toNat_inj, directVpn, BitVec.toNat_or, BitVec.toNat_shiftLeft, directIndex, toNat_ofNat_of_lt hi,
    (eq_directTag_iff bits v _).1 rfl, Nat.mod_eq_of_lt (by omega), ← Nat.shiftLeft_add_eq_or_of_lt hlow, hsum]

/-- Pages that share the index of the larger array share that of the smaller one. -/
theorem directIndex_eq_of_le {b1 b2 : Nat} (hle : b1 ≤ b2) {v w : Vpn} (h : directIndex b2 v = directIndex b2 w) :
    directIndex b1 v = directIndex b1 w := by
  unfold directIndex at *
  rw [← Nat.mod_mod_of_dvd v.toNat (Nat.pow_dvd_pow 2 hle), h, Nat.mod_mod_of_dvd _ (Nat.pow_dvd_pow 2 hle)]

/-! ### The install of a full miss -/

section
variable (s : State) (k : AccessKind) (vpn : Vpn) (pfn : Pfn)

/-- The page that `TLB2` holds where `vpn` is about to be installed, if the entry is valid (R169). -/
def supersededVpn : Vpn :=
  directVpn s.cfg.l2tBits (tlbEntryAt s.tlb2 (directIndex s.cfg.l2tBits vpn)).tag (directIndex s.cfg.l2tBits vpn)

/-- The supersession drops that page from either L1 array (R169). -/
theorem hierSupersede_l1Tlb :
    (hierSupersede s vpn).l1Tlb k =
      if (tlbEntryAt s.tlb2 (directIndex s.cfg.l2tBits vpn)).valid = true then
        directDrop s.cfg.l1tBits (s.l1Tlb k) (supersededVpn s vpn)
      else s.l1Tlb k := by
  obtain ⟨hvalid, hs⟩ | ⟨hvalid, o, rfl, hs⟩ := hierSupersede_cases s vpn <;> rw [hs, hvalid] <;> cases k <;> rfl

@[simp] theorem hierSupersede_l1Tlb_length : ((hierSupersede s vpn).l1Tlb k).length = (s.l1Tlb k).length := by
  rw [hierSupersede_l1Tlb]
  split <;> simp

theorem hierInstall_tlb2 : (hierInstall s k vpn pfn).tlb2 = directInstall s.cfg.l2tBits s.tlb2 vpn pfn := by
  obtain ⟨-, htlb2, -⟩ := hierSupersede_frame s vpn
  simp only [hierInstall, hierPromote, State.setL1Tlb_tlb2, htlb2]

theorem hierInstall_l1Tlb_self :
    (hierInstall s k vpn pfn).l1Tlb k = directInstall s.cfg.l1tBits ((hierSupersede s vpn).l1Tlb k) vpn pfn := by
  obtain ⟨⟨hcfg, -⟩, -⟩ := hierSupersede_frame s vpn
  simp only [hierInstall, hierPromote, State.setL1Tlb_l1Tlb, hcfg]
  cases k <;> rfl

theorem hierInstall_l1Tlb_of_ne {j : AccessKind} (h : j ≠ k) :
    (hierInstall s k vpn pfn).l1Tlb j = (hierSupersede s vpn).l1Tlb j := by
  simp only [hierInstall, hierPromote]
  rw [State.setL1Tlb_l1Tlb_of_ne _ _ _ _ h]
  cases j <;> rfl

theorem hierInstall_tlb_lru : (hierInstall s k vpn pfn).tlb = s.tlb ∧ (hierInstall s k vpn pfn).lru = s.lru := by
  obtain ⟨-, -, htlb, hlru⟩ := hierSupersede_frame s vpn
  simp only [hierInstall, hierPromote, State.setL1Tlb_tlb, State.setL1Tlb_lru, htlb, hlru, and_self]

end

theorem AccessKind.other_ne (k : AccessKind) : k.other ≠ k := by
  cases k <;> exact nofun

/-- An install at the index of a page just dropped overwrites what the drop wrote. -/
theorem directInstall_directDrop {bits : Nat} {o v : Vpn} (h : directIndex bits o = directIndex bits v)
    (arr : List TlbEntry) (pfn : Pfn) :
    directInstall bits (directDrop bits arr o) v pfn = directInstall bits arr v pfn := by
  unfold directDrop
  split
  · rw [directInstall, h, List.set_set, directInstall]
  · rfl

/-- A hit in `TLB2` alone (R168). -/
theorem hierService_of_l2_holds {s : State} {a : VirtualAddress} {k : AccessKind}
    (h1 : directHolds s.cfg.l1tBits (s.l1Tlb k) (virtualPageNumber a) = false)
    (h2 : directHolds s.cfg.l2tBits s.tlb2 (virtualPageNumber a) = true) :
    hierService s a k = .ok
      { phys := { pfn := directPfn s.cfg.l2tBits s.tlb2 (virtualPageNumber a), offset := a.offset }
        hit := true
        state := hierPromote s k (virtualPageNumber a) (directPfn s.cfg.l2tBits s.tlb2 (virtualPageNumber a)) } := by
  simp only [hierService, h1, h2, if_true, Bool.false_eq_true, if_false]

/-- A miss at both levels whose walk answers (R169). -/
theorem hierService_of_walk_ok {s : State} {a : VirtualAddress} {k : AccessKind} {p : PhysicalAddress}
    (h1 : directHolds s.cfg.l1tBits (s.l1Tlb k) (virtualPageNumber a) = false)
    (h2 : directHolds s.cfg.l2tBits s.tlb2 (virtualPageNumber a) = false) (hwalk : walk s.cfg.memLen s.mem a = .ok p) :
    hierService s a k = .ok { phys := p, hit := false, state := hierInstall s k (virtualPageNumber a) p.pfn } := by
  simp only [hierService, h1, h2, hwalk, Bool.false_eq_true, if_false]

/-- Settles O28: `TLB2` holds the page with the entry's frame, which is installed in the L1 array. -/
theorem hierL2HitPromotesACopy : Obligations.HierL2HitPromotesACopy := by
  intro s a k e horg h1 hentry hvalid htag
  rw [tlbService_of_hier horg, hierService_of_l2_holds h1 ((directHolds_iff hentry).2 ⟨hvalid, htag⟩), directPfn_eq hentry]
  rfl

/-- Settles O29: the page superseded has the L1 index of the new one, so its drop in the kind's own array is overwritten. -/
theorem hierFullMissInstallsAtBothLevels : Obligations.HierFullMissInstallsAtBothLevels := by
  intro s a k p old o horg hle vpn i1 i2 oldVpn h1 h2 hwalk hold ho
  have hold' : tlbEntryAt s.tlb2 (directIndex s.cfg.l2tBits vpn) = old := tlbEntryAt_of_getElem? hold
  have hvpn : supersededVpn s vpn = oldVpn := by rw [supersededVpn, hold']; rfl
  have hindex : directIndex s.cfg.l1tBits oldVpn = directIndex s.cfg.l1tBits vpn :=
    directIndex_eq_of_le hle (directIndex_directVpn ..)
  refine ⟨hierInstall s k vpn p.pfn, ?_, hierInstall_tlb2 .., ?_, ?_, (hierInstall_tlb_lru ..).1, (hierInstall_tlb_lru ..).2,
    hierInstall_sameButTlb ..⟩
  · rw [tlbService_of_hier horg, hierService_of_walk_ok h1 h2 hwalk]
  · rw [hierInstall_l1Tlb_self, hierSupersede_l1Tlb, hvpn]
    split
    · rw [directInstall_directDrop hindex]
      rfl
    · rfl
  · have ho' : tlbEntryAt (s.l1Tlb k.other) (directIndex s.cfg.l1tBits vpn) = o := tlbEntryAt_of_getElem? ho
    rw [hierInstall_l1Tlb_of_ne _ _ _ _ k.other_ne, hierSupersede_l1Tlb, hvpn, hold', directDrop, hindex, ho']
    by_cases hvalid : old.valid = true
    · simp only [hvalid, true_and, if_true]
      rfl
    · rw [if_neg hvalid, if_neg fun h => hvalid h.1]

/-! ### Right after a service -/

/-- The constraints of R8 as facts. -/
theorem Config.valid_iff (c : Config) :
    c.valid = true ↔ 1 ≤ c.tlbLines ∧ c.l1tBits ≤ c.l2tBits ∧ c.l1cBits + 4 ≤ 32 ∧ c.l2cBits + 4 ≤ 32 ∧ 1 ≤ c.l1Ways ∧
      1 ≤ c.l2Ways ∧ c.memLen % 4 = 0 ∧ c.memLen ≤ 2 ^ 32 := by
  simp only [Config.valid, Bool.and_eq_true, decide_eq_true_eq, and_assoc]

/-- A well-formed machine of organisation `FA` has a front token, and it names an entry (R31 item 1). -/
theorem exists_front_of_wf {s : State} (hwf : s.wf) (horg : s.cfg.org = .fa) :
    ∃ t rest, s.lru = t :: rest ∧ t < s.tlb.length := by
  obtain ⟨hvalid, -, -, hfa, -⟩ := hwf
  obtain ⟨⟨hlen, -⟩, hperm, -⟩ := hfa horg
  obtain ⟨hlines, -⟩ := (Config.valid_iff _).1 hvalid
  have hmem : 0 ∈ s.lru := hperm.mem_iff.2 (List.mem_range.2 hlines)
  cases hlru : s.lru with
  | nil =>
    rw [hlru] at hmem
    cases hmem
  | cons t rest =>
    refine ⟨t, rest, rfl, ?_⟩
    rw [hlen, ← List.mem_range, ← hperm.mem_iff, hlru]
    exact List.mem_cons_self ..

/-- In a well-formed machine of organisation `HIER` every page has its indices in the arrays (R28). -/
theorem directIndex_lt_of_wf {s : State} (hwf : s.wf) (horg : s.cfg.org = .hier) (k : AccessKind) (v : Vpn) :
    directIndex s.cfg.l1tBits v < (s.l1Tlb k).length ∧ directIndex s.cfg.l2tBits v < s.tlb2.length := by
  obtain ⟨-, -, -, -, hhier, -⟩ := hwf
  obtain ⟨-, -, ⟨hi, -⟩, ⟨hd, -⟩, ⟨h2, -⟩⟩ := hhier horg
  have hmod : ∀ bits, directIndex bits v < 2 ^ bits := fun bits => Nat.mod_lt _ (Nat.two_pow_pos _)
  refine ⟨?_, h2 ▸ hmod _⟩
  cases k
  · exact hi ▸ hmod _
  · exact hd ▸ hmod _

/-- The lookup of a page that the probe finds. -/
theorem tlbLookup_of_probe {s : State} (horg : s.cfg.org = .fa) {v : Vpn} {i : Nat} (h : faProbe s.tlb v = some i)
    (k : AccessKind) : tlbLookup s v k = (true, (tlbEntryAt s.tlb i).pfn) := by
  simp only [tlbLookup, horg, h]

/-- The lookup of a page that the kind's L1 array holds. -/
theorem tlbLookup_of_l1_holds {s : State} (horg : s.cfg.org = .hier) {k : AccessKind} {v : Vpn} {pfn : Pfn}
    (h : directHoldsAs s.cfg.l1tBits (s.l1Tlb k) v pfn) : tlbLookup s v k = (true, pfn) := by
  obtain ⟨hholds, hpfn⟩ := h
  simp only [tlbLookup, horg, hholds, hpfn, if_true]

theorem tlbLookup_faInstall {s : State} (hwf : s.wf) (horg : s.cfg.org = .fa) {v : Vpn} (hmiss : faProbe s.tlb v = none)
    (pfn : Pfn) (k : AccessKind) : tlbLookup (faInstall s v pfn) v k = (true, pfn) := by
  obtain ⟨t, rest, hlru, ht⟩ := exists_front_of_wf hwf horg
  have hprobe : faProbe (faInstall s v pfn).tlb v = some t := by
    rw [faInstall_of_lru_eq_cons hlru]
    exact faProbe_set_of_miss hmiss ht pfn
  rw [tlbLookup_of_probe (((faInstall_sameButTlb s v pfn).1 ▸ horg : (faInstall s v pfn).cfg.org = .fa)) hprobe,
    faInstall_of_lru_eq_cons hlru, tlbEntryAt_set_self ht]
  rfl

theorem tlbLookup_hierPromote {s : State} (hwf : s.wf) (horg : s.cfg.org = .hier) (k : AccessKind) (v : Vpn) (pfn : Pfn) :
    tlbLookup (hierPromote s k v pfn) v k = (true, pfn) := by
  refine tlbLookup_of_l1_holds (by simpa [hierPromote] using horg) ?_
  simpa [hierPromote] using directHoldsAs_directInstall_self (directIndex_lt_of_wf hwf horg k v).1 pfn

theorem tlbLookup_hierInstall {s : State} (hwf : s.wf) (horg : s.cfg.org = .hier) (k : AccessKind) (v : Vpn) (pfn : Pfn) :
    tlbLookup (hierInstall s k v pfn) v k = (true, pfn) := by
  have hcfg : (hierInstall s k v pfn).cfg = s.cfg := (hierInstall_sameButTlb s k v pfn).1
  refine tlbLookup_of_l1_holds (hcfg ▸ horg) ?_
  rw [hcfg, hierInstall_l1Tlb_self]
  refine directHoldsAs_directInstall_self ?_ pfn
  rw [hierSupersede_l1Tlb_length]
  exact (directIndex_lt_of_wf hwf horg k v).1

/-- Settles O24: in each case of the service the lookup finds the page where it was found or has been put. -/
theorem serviceThenLookupHits : Obligations.ServiceThenLookupHits := by
  intro s a k r hwf h
  refine ⟨?_, tlbService_offset h⟩
  obtain ⟨horg, h⟩ | ⟨horg, h⟩ := tlbService_cases s a k r h
  · obtain ⟨i, hprobe, rfl⟩ | ⟨p, hmiss, -, rfl⟩ := faService_cases s a r h
    · exact tlbLookup_of_probe (s := { s with lru := moveToBack s.lru i }) horg hprobe k
    · exact tlbLookup_faInstall hwf horg hmiss p.pfn k
  · obtain ⟨h1, rfl⟩ | ⟨-, -, rfl⟩ | ⟨p, -, -, -, rfl⟩ := hierService_cases s a k r h
    · exact tlbLookup_of_l1_holds horg ⟨h1, rfl⟩
    · exact tlbLookup_hierPromote hwf horg k _ _
    · exact tlbLookup_hierInstall hwf horg k _ _

/-! ### Inclusion -/

/-- Inclusion, translation by translation (R31 item 3). -/
theorem tlbInclusive_iff (s : State) :
    tlbInclusive s ↔ ∀ k v pfn, directHoldsAs s.cfg.l1tBits (s.l1Tlb k) v pfn → directHoldsAs s.cfg.l2tBits s.tlb2 v pfn := by
  constructor
  · rintro h k v pfn ⟨hholds, rfl⟩
    exact h k v hholds
  · exact fun h k v hholds => h k v _ ⟨hholds, rfl⟩

/-- An L1 array after the supersession holds nothing at the `TLB2` index of the new page: what it held there was the page
`TLB2` lost (R169). -/
theorem directIndex_ne_of_superseded {s : State} (hincl : tlbInclusive s) {k : AccessKind} {vpn v : Vpn} {pfn : Pfn}
    (h : directHoldsAs s.cfg.l1tBits ((hierSupersede s vpn).l1Tlb k) v pfn) :
    directHoldsAs s.cfg.l2tBits s.tlb2 v pfn ∧ directIndex s.cfg.l2tBits vpn ≠ directIndex s.cfg.l2tBits v := by
  rw [hierSupersede_l1Tlb] at h
  split at h
  next hvalid =>
    obtain ⟨hbefore, hne⟩ := directHoldsAs_of_directDrop h
    have h2 := (tlbInclusive_iff s).1 hincl k v pfn hbefore
    refine ⟨h2, fun hindex => hne ?_⟩
    rw [supersededVpn, hindex, (directHoldsAs_iff ..).1 h2]
    exact (directVpn_directTag ..).symm
  next hinvalid =>
    have h2 := (tlbInclusive_iff s).1 hincl k v pfn h
    refine ⟨h2, fun hindex => hinvalid ?_⟩
    rw [hindex, (directHoldsAs_iff ..).1 h2]
    rfl

/-- A promotion of what `TLB2` holds keeps inclusion (R168). -/
theorem tlbInclusive_hierPromote {s : State} (hincl : tlbInclusive s) {v : Vpn} {pfn : Pfn}
    (h2 : directHoldsAs s.cfg.l2tBits s.tlb2 v pfn) (k : AccessKind) : tlbInclusive (hierPromote s k v pfn) := by
  refine (tlbInclusive_iff _).2 fun j w q h => ?_
  simp only [hierPromote, State.setL1Tlb_cfg, State.setL1Tlb_tlb2] at h ⊢
  by_cases hj : j = k
  · subst hj
    rw [State.setL1Tlb_l1Tlb] at h
    obtain ⟨rfl, rfl⟩ | ⟨hbefore, -⟩ := directHoldsAs_of_directInstall h
    · exact h2
    · exact (tlbInclusive_iff s).1 hincl j w q hbefore
  · rw [State.setL1Tlb_l1Tlb_of_ne _ _ _ _ hj] at h
    exact (tlbInclusive_iff s).1 hincl j w q h

/-- The install of a full miss keeps inclusion (R169). -/
theorem tlbInclusive_hierInstall {s : State} (hincl : tlbInclusive s) {v : Vpn}
    (hlt : directIndex s.cfg.l2tBits v < s.tlb2.length) (k : AccessKind) (pfn : Pfn) :
    tlbInclusive (hierInstall s k v pfn) := by
  have hsuperseded : ∀ j w q, directHoldsAs s.cfg.l1tBits ((hierSupersede s v).l1Tlb j) w q →
      directHoldsAs s.cfg.l2tBits (directInstall s.cfg.l2tBits s.tlb2 v pfn) w q := by
    intro j w q h
    obtain ⟨h2, hne⟩ := directIndex_ne_of_superseded hincl h
    exact (directHoldsAs_directInstall_of_ne hne ..).2 h2
  refine (tlbInclusive_iff _).2 fun j w q h => ?_
  rw [hierInstall_tlb2, (hierInstall_sameButTlb s k v pfn).1]
  rw [(hierInstall_sameButTlb s k v pfn).1] at h
  by_cases hj : j = k
  · subst hj
    rw [hierInstall_l1Tlb_self] at h
    obtain ⟨rfl, rfl⟩ | ⟨hbefore, -⟩ := directHoldsAs_of_directInstall h
    · exact directHoldsAs_directInstall_self hlt q
    · exact hsuperseded j w q hbefore
  · rw [hierInstall_l1Tlb_of_ne _ _ _ _ hj] at h
    exact hsuperseded j w q h

/-- The fully-associative install does not touch the hierarchical arrays. -/
theorem tlbInclusive_faInstall {s : State} (hincl : tlbInclusive s) (v : Vpn) (pfn : Pfn) :
    tlbInclusive (faInstall s v pfn) := by
  obtain ⟨-, hs⟩ | ⟨t, rest, -, hs⟩ := faInstall_cases s v pfn <;> rw [hs] <;> exact hincl

/-- The service keeps inclusion. -/
theorem tlbInclusive_tlbService {s : State} (hwf : s.wf) (hincl : tlbInclusive s) {a : VirtualAddress} {k : AccessKind}
    {r : Translated} (h : tlbService s a k = .ok r) : tlbInclusive r.state := by
  obtain ⟨horg, h⟩ | ⟨horg, h⟩ := tlbService_cases s a k r h
  · obtain ⟨i, -, rfl⟩ | ⟨p, -, -, rfl⟩ := faService_cases s a r h
    · exact hincl
    · exact tlbInclusive_faInstall hincl _ _
  · obtain ⟨-, rfl⟩ | ⟨-, h2, rfl⟩ | ⟨p, -, -, -, rfl⟩ := hierService_cases s a k r h
    · exact hincl
    · exact tlbInclusive_hierPromote hincl ⟨h2, rfl⟩ k
    · exact tlbInclusive_hierInstall hincl (directIndex_lt_of_wf hwf horg k _).2 k p.pfn

/-- The L1 arrays of two states with one TLB state. -/
theorem sameTlb.l1Tlb_eq {s t : State} (h : sameTlb s t) (k : AccessKind) : t.l1Tlb k = s.l1Tlb k := by
  obtain ⟨-, -, hi, hd, -⟩ := h
  cases k
  · exact hi
  · exact hd

/-- Inclusion speaks of the TLB state only. -/
theorem tlbInclusive_of_sameTlb {s t : State} (hcfg : t.cfg = s.cfg) (htlb : sameTlb s t) (h : tlbInclusive s) :
    tlbInclusive t := by
  obtain ⟨-, -, -, -, h2⟩ := id htlb
  intro k
  rw [hcfg, htlb.l1Tlb_eq k, h2]
  exact h k

/-- Settles O31: the service keeps inclusion, and no other stage touches the TLB. -/
theorem hierInclusionIsKept : Obligations.HierInclusionIsKept := by
  intro s t hwf hincl h
  refine step_preserves (P := tlbInclusive) hincl (fun w rest _ hexec => ?_) h
  refine exec_preserves (s := { s with requests := rest }) (P := tlbInclusive) (fun _ _ hu => hu) hincl
    (fun k vaddr a r hi _ hr => ?_) hexec
  have hserved : tlbInclusive r.state := tlbInclusive_tlbService (s := { s with requests := rest }) hwf hincl hr
  refine ⟨hserved, fun c hc => ?_⟩
  obtain ⟨hcfg, htlb, -⟩ := cacheStage_sameButCaches hi hc
  exact tlbInclusive_of_sameTlb hcfg htlb hserved

end Sys2Proof.Machine

/-! PROOFS. Where the translations of a TLB come from (spec/43_tlb.md section 4, spec/70_reset_and_hazards.md section 3): a
service adds a page of the walk at most, so while no translation is stale the TLB answers as the walk does, and stays so
for as long as the walks answer alike. Then the tags of organisation `FA` and the sizes of both. -/

namespace Sys2Proof.Machine

/-! ### Walks of one page -/

/-- The page number determines the four indices (R113). -/
theorem walkIndices_eq_of_vpn {a b : VirtualAddress} (h : virtualPageNumber a = virtualPageNumber b) :
    walkIndices a = walkIndices b := by
  have hsum := congrArg BitVec.toNat h
  rw [virtualPageNumber_toNat, virtualPageNumber_toNat] at hsum
  obtain ⟨htop, hupper, hmiddle, hlower⟩ : a.top.toNat = b.top.toNat ∧ a.upper.toNat = b.upper.toNat ∧
      a.middle.toNat = b.middle.toNat ∧ a.lower.toNat = b.lower.toNat := by omega
  simp only [walkIndices, BitVec.eq_of_toNat_eq htop, BitVec.eq_of_toNat_eq hupper, BitVec.eq_of_toNat_eq hmiddle,
    BitVec.eq_of_toNat_eq hlower]

/-- Addresses of one page walk to one frame, each with its own offset (R135). -/
theorem walk_of_same_page {memLen : Nat} {m : Memory} {a b : VirtualAddress} {p : PhysicalAddress}
    (hpage : virtualPageNumber a = virtualPageNumber b) (h : walk memLen m a = .ok p) :
    walk memLen m b = .ok { pfn := p.pfn, offset := b.offset } := by
  obtain ⟨base, hlevels, hbase⟩ := (walk_eq_ok ..).1 h
  obtain ⟨halign, rfl⟩ := (physicalFromBase_eq_ok ..).1 hbase
  rw [walkIndices_eq_of_vpn hpage] at hlevels
  exact (walk_eq_ok ..).2 ⟨base, hlevels, (physicalFromBase_eq_ok ..).2 ⟨halign, rfl⟩⟩

/-! ### Transparency -/

/-- What the lookup answers is held (R160). -/
theorem holdsTranslation_of_lookup {s : State} {v : Vpn} {k : AccessKind} {pfn : Pfn}
    (h : tlbLookup s v k = (true, pfn)) : holdsTranslation s v pfn := by
  cases horg : s.cfg.org with
  | fa =>
    cases hprobe : faProbe s.tlb v with
    | none =>
      simp only [tlbLookup, horg, hprobe] at h
      cases h
    | some i =>
      obtain ⟨e, he, hvalid, htag, -⟩ := (faProbe_eq_some_iff ..).1 hprobe
      rw [tlbLookup_of_probe horg hprobe, tlbEntryAt_of_getElem? he] at h
      exact .inl ⟨e, List.mem_of_getElem? he, hvalid, htag, (Prod.mk.inj h).2⟩
  | hier =>
    simp only [tlbLookup, horg] at h
    split at h
    next h1 => exact .inr (.inl ⟨k, h1, (Prod.mk.inj h).2⟩)
    next h1 =>
      split at h
      next h2 => exact .inr (.inr ⟨h2, (Prod.mk.inj h).2⟩)
      next h2 => cases h

/-- Settles O32: what the lookup finds is not stale, and what it misses is walked. -/
theorem faithfulTlbIsTransparent : Obligations.FaithfulTlbIsTransparent := by
  intro s a k hfaithful
  rw [tlbService_phys, translation]
  split
  next hhit => exact (hfaithful a _ (holdsTranslation_of_lookup (Prod.ext hhit rfl))).symm
  next hmiss => rfl

/-! ### Where translations come from -/

/-- Every translation that `t` holds is one that `s` holds, or what a walk in `s` answers. -/
def translationsFrom (s t : State) : Prop :=
  ∀ v pfn, holdsTranslation t v pfn →
    holdsTranslation s v pfn ∨ ∃ a p, virtualPageNumber a = v ∧ walk s.cfg.memLen s.mem a = .ok p ∧ p.pfn = pfn

theorem translationsFrom_refl (s : State) : translationsFrom s s := fun _ _ h => .inl h

/-- Translations are TLB state. -/
theorem holdsTranslation_of_sameTlb {s t : State} (hcfg : t.cfg = s.cfg) (htlb : sameTlb s t) {v : Vpn} {pfn : Pfn}
    (h : holdsTranslation t v pfn) : holdsTranslation s v pfn := by
  obtain ⟨h1, -, -, -, h2⟩ := id htlb
  simpa only [holdsTranslation, hcfg, htlb.l1Tlb_eq, h1, h2] using h

theorem translationsFrom_faInstall {s : State} {a : VirtualAddress} {p : PhysicalAddress}
    (hwalk : walk s.cfg.memLen s.mem a = .ok p) : translationsFrom s (faInstall s (virtualPageNumber a) p.pfn) := by
  obtain ⟨-, hs⟩ | ⟨t, rest, -, hs⟩ := faInstall_cases s (virtualPageNumber a) p.pfn <;> rw [hs]
  · exact translationsFrom_refl s
  · intro v pfn h
    obtain ⟨e, he, hvalid, htag, hpfn⟩ | hdirect := h
    · obtain he | rfl := List.mem_or_eq_of_mem_set he
      · exact .inl (.inl ⟨e, he, hvalid, htag, hpfn⟩)
      · exact .inr ⟨a, p, htag, hwalk, hpfn⟩
    · exact .inl (.inr hdirect)

theorem translationsFrom_hierPromote {s : State} {k : AccessKind} {w : Vpn} {q : Pfn}
    (h2 : directHoldsAs s.cfg.l2tBits s.tlb2 w q) : translationsFrom s (hierPromote s k w q) := by
  intro v pfn h
  simp only [holdsTranslation, hierPromote, State.setL1Tlb_tlb, State.setL1Tlb_cfg, State.setL1Tlb_tlb2] at h
  obtain hfa | ⟨j, h1⟩ | htlb2 := h
  · exact .inl (.inl hfa)
  · by_cases hj : j = k
    · subst hj
      rw [State.setL1Tlb_l1Tlb] at h1
      obtain ⟨rfl, rfl⟩ | ⟨hbefore, -⟩ := directHoldsAs_of_directInstall h1
      · exact .inl (.inr (.inr h2))
      · exact .inl (.inr (.inl ⟨j, hbefore⟩))
    · rw [State.setL1Tlb_l1Tlb_of_ne _ _ _ _ hj] at h1
      exact .inl (.inr (.inl ⟨j, h1⟩))
  · exact .inl (.inr (.inr htlb2))

/-- The supersession adds nothing. -/
theorem directHoldsAs_of_hierSupersede {s : State} {w v : Vpn} {j : AccessKind} {pfn : Pfn}
    (h : directHoldsAs s.cfg.l1tBits ((hierSupersede s w).l1Tlb j) v pfn) :
    directHoldsAs s.cfg.l1tBits (s.l1Tlb j) v pfn := by
  rw [hierSupersede_l1Tlb] at h
  split at h
  · exact (directHoldsAs_of_directDrop h).1
  · exact h

theorem translationsFrom_hierInstall {s : State} {k : AccessKind} {a : VirtualAddress} {p : PhysicalAddress}
    (hwalk : walk s.cfg.memLen s.mem a = .ok p) :
    translationsFrom s (hierInstall s k (virtualPageNumber a) p.pfn) := by
  intro v pfn h
  simp only [holdsTranslation, hierInstall_tlb2, (hierInstall_tlb_lru s k (virtualPageNumber a) p.pfn).1,
    (hierInstall_sameButTlb s k (virtualPageNumber a) p.pfn).1] at h
  obtain hfa | ⟨j, h1⟩ | h2 := h
  · exact .inl (.inl hfa)
  · by_cases hj : j = k
    · subst hj
      rw [hierInstall_l1Tlb_self] at h1
      obtain ⟨rfl, rfl⟩ | ⟨hbefore, -⟩ := directHoldsAs_of_directInstall h1
      · exact .inr ⟨a, p, rfl, hwalk, rfl⟩
      · exact .inl (.inr (.inl ⟨j, directHoldsAs_of_hierSupersede hbefore⟩))
    · rw [hierInstall_l1Tlb_of_ne _ _ _ _ hj] at h1
      exact .inl (.inr (.inl ⟨j, directHoldsAs_of_hierSupersede h1⟩))
  · obtain ⟨rfl, rfl⟩ | ⟨hbefore, -⟩ := directHoldsAs_of_directInstall h2
    · exact .inr ⟨a, p, rfl, hwalk, rfl⟩
    · exact .inl (.inr (.inr hbefore))

/-- The service adds what its walk answers at most. -/
theorem translationsFrom_tlbService {s : State} {a : VirtualAddress} {k : AccessKind} {r : Translated}
    (h : tlbService s a k = .ok r) : translationsFrom s r.state := by
  obtain ⟨-, h⟩ | ⟨-, h⟩ := tlbService_cases s a k r h
  · obtain ⟨i, -, rfl⟩ | ⟨p, -, hwalk, rfl⟩ := faService_cases s a r h
    · exact translationsFrom_refl s
    · exact translationsFrom_faInstall hwalk
  · obtain ⟨-, rfl⟩ | ⟨-, h2, rfl⟩ | ⟨p, -, -, hwalk, rfl⟩ := hierService_cases s a k r h
    · exact translationsFrom_refl s
    · exact translationsFrom_hierPromote ⟨h2, rfl⟩
    · exact translationsFrom_hierInstall hwalk

/-- A step adds what a walk answers at most. -/
theorem translationsFrom_step {s t : State} (h : step s = .next t) : translationsFrom s t := by
  refine step_preserves (P := translationsFrom s) (translationsFrom_refl s) (fun w rest _ hexec => ?_) h
  refine exec_preserves (s := { s with requests := rest }) (P := translationsFrom s) (fun _ _ hu => hu)
    (translationsFrom_refl s) (fun k vaddr a r hi _ hr => ?_) hexec
  have hserved : translationsFrom s r.state := translationsFrom_tlbService (s := { s with requests := rest }) hr
  refine ⟨hserved, fun c hc v pfn hheld => ?_⟩
  obtain ⟨hcfg, htlb, -⟩ := cacheStage_sameButCaches hi hc
  exact hserved v pfn (holdsTranslation_of_sameTlb hcfg htlb hheld)

/-- Settles O33: a translation held before is the walk's by hypothesis, a new one by the walk it was installed from. -/
theorem faithfulnessIsKept : Obligations.FaithfulnessIsKept := by
  intro s t hfaithful hstep hwalks a pfn hheld
  rw [hwalks a]
  obtain hbefore | ⟨b, p, hpage, hwalk, rfl⟩ := translationsFrom_step hstep _ _ hheld
  · exact hfaithful a pfn hbefore
  · exact walk_of_same_page hpage hwalk

/-- Settles O53: a lookup that misses leaves the walk to decide, and its error is raised before anything is written. -/
theorem translationErrorsLeaveTheState : Obligations.TranslationErrorsLeaveTheState := by
  intro s vaddr a e ha hwalk
  refine ⟨fun i k hwell hi hmiss => ?_, (exec_xlate_of_decompose ha s).2 e hwalk⟩
  have herror : tlbService s a k = .error e := ((tlbServiceFollowsItsContract s a k).2.2 e).2 ⟨hmiss, hwalk⟩
  rw [wellFormed_of_access hi, Bool.and_eq_true] at hwell
  rw [exec_of_access hi, if_pos hwell.1]
  simp only [access, ha, herror]

/-! ### The tags of organisation `FA` -/

/-- Overwriting one entry with a tag that no valid entry has keeps the tags distinct. -/
theorem tagsUnique_set {tlb : List TlbEntry} {e : TlbEntry}
    (h : tlb.Pairwise fun e f => ¬ (e.valid = true ∧ f.valid = true ∧ e.tag = f.tag))
    (hnew : ∀ f ∈ tlb, f.valid = true → f.tag ≠ e.tag) (t : Nat) :
    (tlb.set t e).Pairwise fun e f => ¬ (e.valid = true ∧ f.valid = true ∧ e.tag = f.tag) := by
  rw [List.pairwise_iff_getElem] at h ⊢
  intro i j hi hj hij
  rw [List.length_set] at hi hj
  rw [List.getElem_set, List.getElem_set]
  split_ifs with hti htj htj
  · omega
  · exact fun ⟨_, hvalid, htag⟩ => hnew _ (List.getElem_mem hj) hvalid htag.symm
  · exact fun ⟨hvalid, _, htag⟩ => hnew _ (List.getElem_mem hi) hvalid htag
  · exact h i j hi hj hij

/-- The service keeps the tags distinct: it installs a page that the probe did not find. -/
theorem tlbTagsUnique_tlbService {s : State} (huniq : tlbTagsUnique s) {a : VirtualAddress} {k : AccessKind}
    {r : Translated} (h : tlbService s a k = .ok r) : tlbTagsUnique r.state := by
  obtain ⟨-, h⟩ | ⟨-, h⟩ := tlbService_cases s a k r h
  · obtain ⟨i, -, rfl⟩ | ⟨p, hmiss, -, rfl⟩ := faService_cases s a r h
    · exact huniq
    · obtain ⟨-, hs⟩ | ⟨t, rest, -, hs⟩ := faInstall_cases s (virtualPageNumber a) p.pfn <;> rw [hs]
      · exact huniq
      · exact tagsUnique_set huniq ((faProbe_eq_none_iff ..).1 hmiss) t
  · obtain ⟨-, rfl⟩ | ⟨-, -, rfl⟩ | ⟨p, -, -, -, rfl⟩ := hierService_cases s a k r h
    · exact huniq
    · rw [tlbTagsUnique, hierPromote, State.setL1Tlb_tlb]
      exact huniq
    · rw [tlbTagsUnique, (hierInstall_tlb_lru ..).1]
      exact huniq

/-- Settles O30: the service keeps the tags distinct, and no other stage touches `TLB`. -/
theorem faTagsStayUnique : Obligations.FaTagsStayUnique := by
  intro s t huniq h
  refine step_preserves (P := tlbTagsUnique) huniq (fun w rest _ hexec => ?_) h
  refine exec_preserves (s := { s with requests := rest }) (P := tlbTagsUnique) (fun _ _ hu => hu) huniq
    (fun k vaddr a r hi _ hr => ?_) hexec
  have hserved : tlbTagsUnique r.state := tlbTagsUnique_tlbService (s := { s with requests := rest }) huniq hr
  refine ⟨hserved, fun c hc => ?_⟩
  obtain ⟨-, ⟨htlb, -⟩, -⟩ := cacheStage_sameButCaches hi hc
  rw [tlbTagsUnique, htlb]
  exact hserved

/-! ### Sizes and widths -/

/-- Moving a token of the list to the back permutes the list (R152). -/
theorem moveToBack_perm {lru : List Nat} {t : Nat} (h : t ∈ lru) : (moveToBack lru t).Perm lru :=
  List.perm_append_singleton t (lru.erase t) |>.trans (List.perm_cons_erase h).symm

/-- A write of an entry whose tag fits keeps an array's size and widths (R26, R28). -/
theorem tlbArrayWf_set {n bits : Nat} {arr : List TlbEntry} (h : tlbArrayWf n bits arr) {e : TlbEntry}
    (he : e.tag.toNat < 2 ^ (36 - bits)) (i : Nat) : tlbArrayWf n bits (arr.set i e) := by
  refine ⟨(List.length_set ..).trans h.1, fun f hf => ?_⟩
  obtain hf | rfl := List.mem_or_eq_of_mem_set hf
  · exact h.2 f hf
  · exact he

/-- A page's tag fits (R28). -/
theorem directTag_lt (bits : Nat) (v : Vpn) : (directTag bits v).toNat < 2 ^ (36 - bits) := by
  rw [(eq_directTag_iff bits v _).1 rfl]
  have hv : v.toNat < 2 ^ 36 := v.isLt
  obtain hle | hle := Nat.le_total bits 36
  · rw [Nat.div_lt_iff_lt_mul (Nat.two_pow_pos _), ← Nat.pow_add, Nat.sub_add_cancel hle]
    exact hv
  · rw [Nat.div_eq_of_lt (Nat.lt_of_lt_of_le hv (Nat.pow_le_pow_right (by decide) hle))]
    exact Nat.two_pow_pos _

theorem tlbArrayWf_directInstall {n bits : Nat} {arr : List TlbEntry} (h : tlbArrayWf n bits arr) (v : Vpn) (pfn : Pfn) :
    tlbArrayWf n bits (directInstall bits arr v pfn) :=
  tlbArrayWf_set h (directTag_lt bits v) _

theorem tlbArrayWf_directDrop {n bits : Nat} {arr : List TlbEntry} (h : tlbArrayWf n bits arr) (v : Vpn) :
    tlbArrayWf n bits (directDrop bits arr v) := by
  unfold directDrop
  split
  next hholds =>
    refine tlbArrayWf_set h ?_ _
    obtain ⟨pfn, hentry⟩ := (directHolds_iff_exists ..).1 hholds
    rw [(directHoldsAs_iff ..).1 hentry]
    exact directTag_lt bits v
  next => exact h

/-- The two L1 arrays of organisation `HIER` under one name. -/
theorem hierTlbWf_iff (s : State) :
    hierTlbWf s ↔ s.tlb = [] ∧ s.lru = [] ∧ (∀ k, tlbArrayWf s.cfg.l1TlbLines s.cfg.l1tBits (s.l1Tlb k)) ∧
      tlbArrayWf s.cfg.l2TlbLines s.cfg.l2tBits s.tlb2 := by
  constructor
  · rintro ⟨htlb, hlru, hi, hd, h2⟩
    refine ⟨htlb, hlru, fun k => ?_, h2⟩
    cases k
    · exact hi
    · exact hd
  · exact fun ⟨htlb, hlru, h1, h2⟩ => ⟨htlb, hlru, h1 .instruction, h1 .data, h2⟩

theorem hierTlbWf_hierPromote {s : State} (h : hierTlbWf s) (k : AccessKind) (v : Vpn) (pfn : Pfn) :
    hierTlbWf (hierPromote s k v pfn) := by
  obtain ⟨htlb, hlru, h1, h2⟩ := (hierTlbWf_iff s).1 h
  simp only [hierTlbWf_iff, hierPromote, State.setL1Tlb_tlb, State.setL1Tlb_lru, State.setL1Tlb_cfg, State.setL1Tlb_tlb2]
  refine ⟨htlb, hlru, fun j => ?_, h2⟩
  by_cases hj : j = k
  · rw [hj, State.setL1Tlb_l1Tlb]
    exact tlbArrayWf_directInstall (h1 k) v pfn
  · rw [State.setL1Tlb_l1Tlb_of_ne _ _ _ _ hj]
    exact h1 j

theorem hierTlbWf_hierInstall {s : State} (h : hierTlbWf s) (k : AccessKind) (v : Vpn) (pfn : Pfn) :
    hierTlbWf (hierInstall s k v pfn) := by
  obtain ⟨htlb, hlru, h1, h2⟩ := (hierTlbWf_iff s).1 h
  have hsuperseded : ∀ j, tlbArrayWf s.cfg.l1TlbLines s.cfg.l1tBits ((hierSupersede s v).l1Tlb j) := by
    intro j
    rw [hierSupersede_l1Tlb]
    split
    · exact tlbArrayWf_directDrop (h1 j) _
    · exact h1 j
  rw [hierTlbWf_iff, (hierInstall_tlb_lru ..).1, (hierInstall_tlb_lru ..).2, (hierInstall_sameButTlb ..).1,
    hierInstall_tlb2]
  refine ⟨htlb, hlru, fun j => ?_, tlbArrayWf_directInstall h2 v pfn⟩
  by_cases hj : j = k
  · rw [hj, hierInstall_l1Tlb_self]
    exact tlbArrayWf_directInstall (hsuperseded k) v pfn
  · rw [hierInstall_l1Tlb_of_ne _ _ _ _ hj]
    exact hsuperseded j

/-- A state that differs from a well-formed one in TLB state at most is well-formed if its TLB state is. -/
theorem wf_of_sameButTlb {s t : State} (hwf : s.wf) (hsame : sameButTlb s t) (hfa : s.cfg.org = .fa → faTlbWf t)
    (hhier : s.cfg.org = .hier → hierTlbWf t) : t.wf := by
  obtain ⟨hvalid, hmem, hinside, -, -, hl1i, hl1d, hl2⟩ := hwf
  obtain ⟨hcfg, hm, h1i, h1d, h2, -⟩ := hsame
  rw [State.wf, hcfg, hm, h1i, h1d, h2]
  exact ⟨hvalid, hmem, hinside, hfa, hhier, hl1i, hl1d, hl2⟩

/-- A fully-associative service keeps the state well-formed. -/
theorem wf_faService {s : State} (hwf : s.wf) (horg : s.cfg.org = .fa) {a : VirtualAddress} {r : Translated}
    (h : faService s a = .ok r) : r.state.wf := by
  obtain ⟨-, -, -, hfa, -⟩ := id hwf
  obtain ⟨harr, hperm, hrest⟩ := hfa horg
  have hne : s.cfg.org ≠ .hier := by rw [horg]; exact nofun
  obtain ⟨i, hprobe, rfl⟩ | ⟨p, -, -, rfl⟩ := faService_cases s a r h
  · refine wf_of_sameButTlb hwf ⟨rfl, rfl, rfl, rfl, rfl, rfl, rfl⟩ (fun _ => ?_) fun hh => absurd hh hne
    obtain ⟨e, he, -⟩ := (faProbe_eq_some_iff ..).1 hprobe
    have hi : i ∈ s.lru := by
      rw [hperm.mem_iff, List.mem_range, ← harr.1]
      exact (List.getElem?_eq_some_iff.1 he).1
    exact ⟨harr, (moveToBack_perm hi).trans hperm, hrest⟩
  · refine wf_of_sameButTlb hwf (faInstall_sameButTlb ..) (fun _ => ?_) fun hh => absurd hh hne
    obtain ⟨t, rest, hlru, -⟩ := exists_front_of_wf hwf horg
    rw [faInstall_of_lru_eq_cons hlru]
    rw [hlru] at hperm
    exact ⟨tlbArrayWf_set harr (virtualPageNumber a).isLt t, (List.perm_append_singleton t rest).trans hperm, hrest⟩

/-- A hierarchical service keeps the state well-formed. -/
theorem wf_hierService {s : State} (hwf : s.wf) (horg : s.cfg.org = .hier) {a : VirtualAddress} {k : AccessKind}
    {r : Translated} (h : hierService s a k = .ok r) : r.state.wf := by
  obtain ⟨-, -, -, -, hhier, -⟩ := id hwf
  have harr := hhier horg
  have hne : s.cfg.org ≠ .fa := by rw [horg]; exact nofun
  obtain ⟨-, rfl⟩ | ⟨-, -, rfl⟩ | ⟨p, -, -, -, rfl⟩ := hierService_cases s a k r h
  · exact hwf
  · exact wf_of_sameButTlb hwf (hierPromote_sameButTlb ..) (fun hh => absurd hh hne)
      fun _ => hierTlbWf_hierPromote harr ..
  · exact wf_of_sameButTlb hwf (hierInstall_sameButTlb ..) (fun hh => absurd hh hne)
      fun _ => hierTlbWf_hierInstall harr ..

/-- The service of either organisation keeps the state well-formed. -/
theorem wf_tlbService {s : State} (hwf : s.wf) {a : VirtualAddress} {k : AccessKind} {r : Translated}
    (h : tlbService s a k = .ok r) : r.state.wf := by
  obtain ⟨horg, h⟩ | ⟨horg, h⟩ := tlbService_cases s a k r h
  · exact wf_faService hwf horg h
  · exact wf_hierService hwf horg h

end Sys2Proof.Machine

/-! PROOFS. Cache addresses and sets (spec/44_cache.md sections 1 to 3): a line is its number `paddr / 16`, which index and tag
split; an install takes one way, given by the set alone, and leaves the lines of the other ways; and so the tiling of an
address and the cold-fill. -/

namespace Sys2Proof.Machine

/-! ### Addresses -/

/-- The tag is the line number's quotient by the number of sets (R190). -/
theorem cacheTag_toNat (g : Geometry) (paddr : PAddr) : (cacheTag g paddr).toNat = paddr.toNat / 16 / 2 ^ g.bits := by
  rw [cacheTag, BitVec.toNat_ushiftRight, Nat.shiftRight_eq_div_pow, Nat.add_comm, Nat.pow_add, ← Nat.div_div_eq_div_mul]

/-- The line base is the line number in bytes (R190). -/
theorem lineBase_eq (paddr : PAddr) : lineBase paddr = paddr.toNat / 16 * 16 := by
  unfold lineBase
  omega

/-- Two addresses lie in one line exactly when index and tag agree (R190). -/
theorem sameLine_iff (g : Geometry) (p q : PAddr) :
    p.toNat / 16 = q.toNat / 16 ↔ lineIndex g p = lineIndex g q ∧ cacheTag g p = cacheTag g q := by
  rw [← BitVec.toNat_inj, cacheTag_toNat, cacheTag_toNat, lineIndex, lineIndex]
  constructor
  · intro h
    rw [h]
    exact ⟨rfl, rfl⟩
  · rintro ⟨hmod, hdiv⟩
    rw [← Nat.div_add_mod (p.toNat / 16) (2 ^ g.bits), ← Nat.div_add_mod (q.toNat / 16) (2 ^ g.bits), hmod, hdiv]

/-- A tag fits in its width (R29, R190). -/
theorem cacheTag_lt {g : Geometry} (hbits : g.bits ≤ 28) (paddr : PAddr) :
    (cacheTag g paddr).toNat < 2 ^ (28 - g.bits) := by
  have hp : paddr.toNat < 2 ^ 32 := paddr.isLt
  rw [cacheTag_toNat, Nat.div_lt_iff_lt_mul (Nat.two_pow_pos _), ← Nat.pow_add, Nat.sub_add_cancel hbits]
  omega

/-- The line address of an index and a tag in range, as a number (R196). -/
theorem lineAddress_toNat {g : Geometry} (hbits : g.bits ≤ 28) {i : Nat} {tag : BitVec 32} (hi : i < 2 ^ g.bits)
    (htag : tag.toNat < 2 ^ (28 - g.bits)) : (lineAddress g i tag).toNat = (tag.toNat * 2 ^ g.bits + i) * 16 := by
  have hpow : 2 ^ (g.bits + 4) = 2 ^ g.bits * 16 := Nat.pow_add 2 g.bits 4
  have hlow : i * 16 < 2 ^ (g.bits + 4) := by omega
  have hline : tag.toNat * 2 ^ g.bits + i < 2 ^ 28 := by
    calc tag.toNat * 2 ^ g.bits + i < (tag.toNat + 1) * 2 ^ g.bits := by rw [Nat.add_one_mul]; omega
      _ ≤ 2 ^ (28 - g.bits) * 2 ^ g.bits := Nat.mul_le_mul_right _ htag
      _ = 2 ^ 28 := by rw [← Nat.pow_add, Nat.sub_add_cancel hbits]
  have hhigh : tag.toNat <<< (g.bits + 4) = tag.toNat * 2 ^ g.bits * 16 := by
    rw [Nat.shiftLeft_eq, hpow, Nat.mul_assoc]
  rw [lineAddress, BitVec.toNat_or, BitVec.toNat_shiftLeft, toNat_ofNat_of_lt (by omega), Nat.mod_eq_of_lt (by omega),
    ← Nat.shiftLeft_add_eq_or_of_lt hlow, hhigh, Nat.add_mul]

/-- The line address has the index and the tag it was made of (R196). -/
theorem lineAddress_fields {g : Geometry} (hbits : g.bits ≤ 28) {i : Nat} {tag : BitVec 32} (hi : i < 2 ^ g.bits)
    (htag : tag.toNat < 2 ^ (28 - g.bits)) :
    lineIndex g (lineAddress g i tag) = i ∧ cacheTag g (lineAddress g i tag) = tag := by
  rw [← BitVec.toNat_inj, cacheTag_toNat, lineIndex, lineAddress_toNat hbits hi htag, Nat.mul_div_cancel _ (by decide),
    Nat.mul_add_mod', Nat.mod_eq_of_lt hi, Nat.mul_comm, Nat.mul_add_div (Nat.two_pow_pos _), Nat.div_eq_of_lt hi]
  exact ⟨rfl, rfl⟩

/-- Settles O38: the line number is the sum of tag and index, the low four bits are word and byte select. -/
theorem cacheAddressFieldsTile : Obligations.CacheAddressFieldsTile := by
  intro g hbits
  have hpow : 2 ^ (g.bits + 4) = 2 ^ g.bits * 16 := Nat.pow_add 2 g.bits 4
  refine ⟨fun paddr => ?_, fun i tag hi htag => ?_⟩
  · have hline : (cacheTag g paddr).toNat * 2 ^ g.bits + lineIndex g paddr = paddr.toNat / 16 := by
      rw [cacheTag_toNat, lineIndex]
      exact Nat.div_add_mod' ..
    refine ⟨?_, lineIndex_lt g paddr, Nat.mod_lt _ (by decide), ?_⟩
    · rw [hpow, ← Nat.mul_assoc, wordSelect, byteIndex]
      dsimp only
      omega
    · rw [lineBase_eq, lineAddress_toNat hbits (lineIndex_lt g paddr) (cacheTag_lt hbits paddr), hline]
  · obtain ⟨hindex, hctag⟩ := lineAddress_fields hbits hi htag
    refine ⟨hindex, hctag, ?_⟩
    rw [lineAddress_toNat hbits hi htag, Nat.mul_mod_left]

/-! ### The containing word -/

theorem wordAligned_toNat (paddr : PAddr) : (wordAligned paddr).toNat = paddr.toNat - paddr.toNat % 4 := by
  have hp : paddr.toNat < 2 ^ 32 := paddr.isLt
  exact toNat_ofNat_of_lt (by omega)

@[simp] theorem wordAligned_mod (paddr : PAddr) : (wordAligned paddr).toNat % 4 = 0 := by
  rw [wordAligned_toNat]
  omega

/-- The containing word of an aligned address is its word. -/
theorem wordAligned_of_aligned {paddr : PAddr} (h : paddr.toNat % 4 = 0) : wordAligned paddr = paddr := by
  rw [← BitVec.toNat_inj, wordAligned_toNat, h, Nat.sub_zero]

/-- The containing word lies in the line of the address. -/
theorem wordAligned_line (paddr : PAddr) : (wordAligned paddr).toNat / 16 = paddr.toNat / 16 := by
  rw [wordAligned_toNat]
  omega

@[simp] theorem lineIndex_wordAligned (g : Geometry) (paddr : PAddr) :
    lineIndex g (wordAligned paddr) = lineIndex g paddr := ((sameLine_iff g _ _).1 (wordAligned_line paddr)).1

@[simp] theorem cacheTag_wordAligned (g : Geometry) (paddr : PAddr) :
    cacheTag g (wordAligned paddr) = cacheTag g paddr := ((sameLine_iff g _ _).1 (wordAligned_line paddr)).2

@[simp] theorem lineBase_wordAligned (paddr : PAddr) : lineBase (wordAligned paddr) = lineBase paddr := by
  rw [lineBase_eq, lineBase_eq, wordAligned_line]

@[simp] theorem wordSelect_wordAligned (paddr : PAddr) : wordSelect (wordAligned paddr) = wordSelect paddr := by
  simp only [wordSelect, wordAligned_toNat, Fin.mk.injEq]
  omega

/-! ### The ways of a set -/

/-- A line of a set: valid way `u` has the tag and the words. -/
def setHolds (set : List CacheEntry) (tag : BitVec 32) (u : Nat) (line : Line) : Prop :=
  ∃ e, set[u]? = some e ∧ e.valid = true ∧ e.tag = tag ∧ e.words = line

/-- `holdsLine` is about the set of the address. -/
theorem holdsLine_iff (g : Geometry) (c : CacheArray) (paddr : PAddr) (w : Nat) (line : Line) :
    holdsLine g c paddr w line ↔ setHolds (cacheSet c (lineIndex g paddr)) (cacheTag g paddr) w line := Iff.rfl

@[simp] theorem ageBelow_line (ways prior : Nat) (e : CacheEntry) :
    (ageBelow ways prior e).valid = e.valid ∧ (ageBelow ways prior e).tag = e.tag ∧
      (ageBelow ways prior e).words = e.words := by
  unfold ageBelow
  split <;> exact ⟨rfl, rfl, rfl⟩

/-- An operation on entries that keeps `valid`, tag and words keeps the lines. -/
theorem setHolds_of_map {set new : List CacheEntry} {u : Nat} {f : CacheEntry → CacheEntry}
    (hf : ∀ e, (f e).valid = e.valid ∧ (f e).tag = e.tag ∧ (f e).words = e.words) (hnew : new[u]? = set[u]?.map f)
    (tag : BitVec 32) (line : Line) : setHolds new tag u line ↔ setHolds set tag u line := by
  simp only [setHolds, hnew]
  cases set[u]? with
  | none => simp
  | some e => simp [hf e]

/-- The line that a way holds, given its entry. -/
theorem setHolds_of_getElem? {set : List CacheEntry} {u : Nat} {e : CacheEntry} (h : set[u]? = some e) (tag : BitVec 32)
    (line : Line) : setHolds set tag u line ↔ e.valid = true ∧ e.tag = tag ∧ e.words = line := by
  simp [setHolds, h]

/-- Ageing keeps the lines (R192). -/
theorem setHolds_ageOnHit {set : List CacheEntry} {w : Nat} {m : CacheEntry} (hw : set[w]? = some m) (ways : Nat)
    (tag : BitVec 32) (u : Nat) (line : Line) : setHolds (ageOnHit ways set w) tag u line ↔ setHolds set tag u line := by
  by_cases hu : u = w
  · subst hu
    rw [setHolds_of_getElem? (ageOnHit_getElem?_self hw ways), setHolds_of_getElem? hw]
  · exact setHolds_of_map (ageBelow_line ways m.age) (ageOnHit_getElem?_of_ne hw ways hu) tag line

/-- The way that an install takes: the lowest free one, or the oldest (R194, R195). -/
def installWay (set : List CacheEntry) : Nat := (freeWay set).getD (oldestWay set)

/-- The set that an install leaves (R194, R195). -/
def installSet (ways : Nat) (set : List CacheEntry) (tag : BitVec 32) (line : Line) : List CacheEntry :=
  if (freeWay set).isSome then coldFill ways set (installWay set) tag line
  else evictFill ways set (installWay set) tag line

/-- The line that an install displaces: that of the way it takes, if no way is free (R195, R196). -/
def installVictimOf (g : Geometry) (c : CacheArray) (paddr : PAddr) : Option Victim :=
  if (freeWay (cacheSet c (lineIndex g paddr))).isSome then none
  else
    some
      { addr := lineAddress g (lineIndex g paddr)
          (wayAt (cacheSet c (lineIndex g paddr)) (installWay (cacheSet c (lineIndex g paddr)))).tag
        line := (wayAt (cacheSet c (lineIndex g paddr)) (installWay (cacheSet c (lineIndex g paddr)))).words }

/-- An install in these terms (R193): which way it takes and what it displaces do not depend on the line. -/
theorem cacheInstall_eq (g : Geometry) (c : CacheArray) (paddr : PAddr) (line : Line) :
    cacheInstall g c paddr line =
      (putSet g c paddr (installSet g.ways (cacheSet c (lineIndex g paddr)) (cacheTag g paddr) line),
        installVictimOf g c paddr) := by
  obtain ⟨w, hfree, h⟩ | ⟨hfree, h⟩ := cacheInstall_cases g c paddr line <;>
    simp only [h, installSet, installVictimOf, installWay, hfree, Option.isSome_some, Option.isSome_none, Option.getD_some,
      Option.getD_none, if_true, Bool.false_eq_true, if_false]

@[simp] theorem installSet_length (ways : Nat) (set : List CacheEntry) (tag : BitVec 32) (line : Line) :
    (installSet ways set tag line).length = set.length := by
  unfold installSet
  split <;> simp

/-- The maximum age of a set that has a way is some way's age (R195). -/
theorem exists_age_eq_maxAge {set : List CacheEntry} (hne : set ≠ []) : ∃ e ∈ set, e.age = maxAge set := by
  by_contra hnone
  push Not at hnone
  have hlt : ∀ e ∈ set, e.age < maxAge set := fun e he =>
    Nat.lt_of_le_of_ne ((maxAge_le_iff set _).1 (Nat.le_refl _) e he) (hnone e he)
  obtain ⟨e, he⟩ := List.exists_mem_of_ne_nil set hne
  have hpos := hlt e he
  have hle : maxAge set ≤ maxAge set - 1 := (maxAge_le_iff set _).2 fun f hf => by have := hlt f hf; omega
  omega

/-- The way taken is one of the set's (R194, R195). -/
theorem installWay_lt {set : List CacheEntry} (hne : set ≠ []) : installWay set < set.length := by
  unfold installWay
  cases hfree : freeWay set with
  | some w => exact (List.findIdx?_eq_some_iff_getElem.1 hfree).1
  | none =>
    obtain ⟨e, he, hage⟩ := exists_age_eq_maxAge hne
    exact List.findIdx_lt_length_of_exists ⟨e, he, beq_iff_eq.2 hage⟩

/-- The way taken holds the whole new entry (R194, R195, R258). -/
theorem installSet_getElem?_self {set : List CacheEntry} (hne : set ≠ []) (ways : Nat) (tag : BitVec 32) (line : Line) :
    (installSet ways set tag line)[installWay set]? = some (CacheEntry.installed tag line) := by
  have hlt := installWay_lt hne
  unfold installSet
  split
  · rw [coldFill, List.getElem?_set_self (by rwa [List.length_map])]
  · exact evictFill_getElem?_self (List.getElem?_eq_getElem hlt) ..

/-- The other ways age (R194, R195). -/
theorem installSet_getElem?_of_ne {set : List CacheEntry} (hne : set ≠ []) {u : Nat} (hu : u ≠ installWay set)
    (ways : Nat) (tag : BitVec 32) (line : Line) :
    ∃ f : CacheEntry → CacheEntry, (∀ e, (f e).valid = e.valid ∧ (f e).tag = e.tag ∧ (f e).words = e.words) ∧
      (installSet ways set tag line)[u]? = set[u]?.map f := by
  have hlt := installWay_lt hne
  unfold installSet
  split
  · refine ⟨bumpAge ways, fun e => ⟨rfl, rfl, rfl⟩, ?_⟩
    rw [coldFill, List.getElem?_set_ne hu.symm, List.getElem?_map]
  · exact ⟨_, ageBelow_line _ _, evictFill_getElem?_of_ne (List.getElem?_eq_getElem hlt) _ _ _ hu⟩

/-- The lines of a set after an install: the new one in the way taken, the others where they were (R194, R195). -/
theorem setHolds_installSet {set : List CacheEntry} (hne : set ≠ []) (ways : Nat) (tag t : BitVec 32) (line l : Line)
    (u : Nat) :
    setHolds (installSet ways set tag line) t u l ↔
      (u = installWay set ∧ t = tag ∧ l = line) ∨ (u ≠ installWay set ∧ setHolds set t u l) := by
  by_cases hu : u = installWay set
  · subst hu
    rw [setHolds_of_getElem? (installSet_getElem?_self hne ways tag line)]
    simp [CacheEntry.installed, eq_comm]
  · obtain ⟨f, hf, hnew⟩ := installSet_getElem?_of_ne hne hu ways tag line
    rw [setHolds_of_map hf hnew]
    simp [hu]

/-- Settles O36: the lowest invalid way is the free one, and a cold-fill of it has no victim. -/
theorem coldFillRule : Obligations.ColdFillRule := by
  intro g cache paddr line set w e hset hw hinvalid hbelow
  obtain ⟨hlt, hget⟩ := List.getElem?_eq_some_iff.1 hw
  have hfree : freeWay set = some w := by
    refine List.findIdx?_eq_some_iff_getElem.2 ⟨hlt, by rw [hget, hinvalid]; rfl, fun u hu => ?_⟩
    rw [hbelow u _ hu (List.getElem?_eq_getElem (Nat.lt_trans hu hlt))]
    decide
  have hinstall : cacheInstall g cache paddr line =
      (putSet g cache paddr (coldFill g.ways set w (cacheTag g paddr) line), none) := by
    obtain ⟨u, hu, h⟩ | ⟨hnone, -⟩ := cacheInstall_cases g cache paddr line
    · rw [cacheSet_of_getElem? hset, hfree] at hu
      rw [h, cacheSet_of_getElem? hset, Option.some.inj hu]
    · rw [cacheSet_of_getElem? hset, hfree] at hnone
      cases hnone
  rw [hinstall]
  refine ⟨rfl, _, rfl, coldFill_length .., ?_, fun u f hne hu => ?_⟩
  · rw [coldFill, List.getElem?_set_self (by rwa [List.length_map])]
    rfl
  · rw [coldFill, List.getElem?_set_ne hne.symm, List.getElem?_map, hu]
    rfl

end Sys2Proof.Machine

/-! PROOFS. Well-formed states (spec/10_state.md sections 2 to 7): every cache operation writes entries whose age and tag are
in range into sets that keep their size, so each of them, and so a step, keeps a state well-formed. -/

namespace Sys2Proof.Machine

/-! ### Entries and sets -/

/-- An entry in range: its age below the ways, its tag within its width (R29, R31 item 4). -/
def entryWf (g : Geometry) (e : CacheEntry) : Prop := e.age < g.ways ∧ e.tag.toNat < 2 ^ (28 - g.bits)

/-- A set of the level's size with entries in range. -/
def cacheSetWf (g : Geometry) (set : List CacheEntry) : Prop := set.length = g.ways ∧ ∀ e ∈ set, entryWf g e

/-- The two sizes of a level of an admitted build (R8). -/
def geometryWf (g : Geometry) : Prop := g.bits ≤ 28 ∧ 1 ≤ g.ways

theorem geometryWf_of_valid {c : Config} (h : c.valid = true) : geometryWf (l1Geometry c) ∧ geometryWf (l2Geometry c) := by
  obtain ⟨-, -, h1, h2, hw1, hw2, -⟩ := (Config.valid_iff c).1 h
  exact ⟨⟨Nat.le_of_add_le_add_right h1, hw1⟩, ⟨Nat.le_of_add_le_add_right h2, hw2⟩⟩

section
variable {g : Geometry} {cache : CacheArray} {set : List CacheEntry}

theorem cacheArrayWf_iff : cacheArrayWf g cache ↔ cache.length = 2 ^ g.bits ∧ ∀ set ∈ cache, cacheSetWf g set := Iff.rfl

/-- An array has the set of every address. -/
theorem lineIndex_lt_length (h : cacheArrayWf g cache) (paddr : PAddr) : lineIndex g paddr < cache.length :=
  h.1 ▸ lineIndex_lt g paddr

theorem getElem?_lineIndex (h : cacheArrayWf g cache) (paddr : PAddr) :
    cache[lineIndex g paddr]? = some (cacheSet cache (lineIndex g paddr)) := by
  obtain ⟨set, hset⟩ : ∃ set, cache[lineIndex g paddr]? = some set :=
    ⟨_, List.getElem?_eq_getElem (lineIndex_lt_length h paddr)⟩
  rw [hset, cacheSet_of_getElem? hset]

/-- The set of an address has the level's size and entries in range. -/
theorem cacheSetWf_cacheSet (h : cacheArrayWf g cache) (paddr : PAddr) : cacheSetWf g (cacheSet cache (lineIndex g paddr)) :=
  h.2 _ (List.mem_of_getElem? (getElem?_lineIndex h paddr))

theorem cacheSet_ne_nil (hg : geometryWf g) (h : cacheArrayWf g cache) (paddr : PAddr) :
    cacheSet cache (lineIndex g paddr) ≠ [] := by
  intro hnil
  have hlen := (cacheSetWf_cacheSet h paddr).1
  rw [hnil, List.length_nil] at hlen
  have hways := hg.2
  omega

/-- A way that a probe finds is one of the set's (R191). -/
theorem lt_length_of_cacheProbe {paddr : PAddr} {w : Nat} (h : cacheProbe g cache paddr = some w) :
    w < (cacheSet cache (lineIndex g paddr)).length := by
  obtain ⟨hlt, -⟩ := (cacheProbe_eq_some g cache paddr w).1 h
  exact hlt

theorem cacheArrayWf_putSet (h : cacheArrayWf g cache) (paddr : PAddr) (hset : cacheSetWf g set) :
    cacheArrayWf g (putSet g cache paddr set) := by
  refine ⟨(putSet_length ..).trans h.1, fun ways hways => ?_⟩
  obtain hways | rfl := List.mem_or_eq_of_mem_set hways
  · exact h.2 ways hways
  · exact hset

theorem entryWf_wayAt (hg : geometryWf g) (h : cacheSetWf g set) (w : Nat) : entryWf g (wayAt set w) := by
  by_cases hw : w < set.length
  · rw [wayAt_of_getElem? (List.getElem?_eq_getElem hw)]
    exact h.2 _ (List.getElem_mem hw)
  · rw [wayAt, List.getD_eq_getElem?_getD, List.getElem?_eq_none (Nat.not_lt.1 hw), Option.getD_none]
    exact ⟨hg.2, Nat.two_pow_pos _⟩

theorem cacheSetWf_map (h : cacheSetWf g set) {f : CacheEntry → CacheEntry} (hf : ∀ e, entryWf g e → entryWf g (f e)) :
    cacheSetWf g (set.map f) := by
  refine ⟨(List.length_map ..).trans h.1, fun e he => ?_⟩
  obtain ⟨m, hm, rfl⟩ := List.mem_map.1 he
  exact hf m (h.2 m hm)

theorem cacheSetWf_set (h : cacheSetWf g set) {e : CacheEntry} (he : entryWf g e) (w : Nat) :
    cacheSetWf g (set.set w e) := by
  refine ⟨(List.length_set ..).trans h.1, fun f hf => ?_⟩
  obtain hf | rfl := List.mem_or_eq_of_mem_set hf
  · exact h.2 f hf
  · exact he

theorem entryWf_ageBelow {e : CacheEntry} (h : entryWf g e) (prior : Nat) : entryWf g (ageBelow g.ways prior e) := by
  unfold ageBelow
  split
  next hage => exact ⟨show e.age + 1 < g.ways by omega, h.2⟩
  next => exact h

theorem entryWf_bumpAge {e : CacheEntry} (h : entryWf g e) : entryWf g (bumpAge g.ways e) := by
  have hage := h.1
  exact ⟨show min (e.age + 1) (g.ways - 1) < g.ways by omega, h.2⟩

theorem entryWf_installed (hg : geometryWf g) (paddr : PAddr) (line : Line) :
    entryWf g (CacheEntry.installed (cacheTag g paddr) line) :=
  ⟨hg.2, cacheTag_lt hg.1 paddr⟩

/-- Ageing keeps a set in range (R192). -/
theorem cacheSetWf_ageOnHit (hg : geometryWf g) (h : cacheSetWf g set) (w : Nat) :
    cacheSetWf g (ageOnHit g.ways set w) :=
  have hway : entryWf g { wayAt set w with age := 0 } := ⟨hg.2, (entryWf_wayAt hg h w).2⟩
  cacheSetWf_set (cacheSetWf_map h fun _ he => entryWf_ageBelow he _) hway w

/-- An install keeps an array in range (R194, R195). -/
theorem cacheArrayWf_cacheInstall (hg : geometryWf g) (h : cacheArrayWf g cache) (paddr : PAddr) (line : Line) :
    cacheArrayWf g (cacheInstall g cache paddr line).1 := by
  rw [cacheInstall_eq]
  refine cacheArrayWf_putSet h paddr ?_
  have hset := cacheSetWf_cacheSet h paddr
  unfold installSet
  split
  · exact cacheSetWf_set (cacheSetWf_map hset fun _ => entryWf_bumpAge) (entryWf_installed hg paddr line) _
  · exact cacheSetWf_set (cacheSetWf_map hset fun _ he => entryWf_ageBelow he _) (entryWf_installed hg paddr line) _

/-- A hit's ageing keeps an array in range (R191, R192). -/
theorem cacheArrayWf_aged (hg : geometryWf g) (h : cacheArrayWf g cache) (paddr : PAddr) (w : Nat) :
    cacheArrayWf g (putSet g cache paddr (ageOnHit g.ways (cacheSet cache (lineIndex g paddr)) w)) :=
  cacheArrayWf_putSet h paddr (cacheSetWf_ageOnHit hg (cacheSetWf_cacheSet h paddr) w)

/-- A store keeps an array in range (R207, R208). -/
theorem cacheArrayWf_storeWord (hg : geometryWf g) (h : cacheArrayWf g cache) (paddr : PAddr) (w : Nat) (v : Word) :
    cacheArrayWf g (storeWord g cache paddr w v) := by
  refine cacheArrayWf_putSet h paddr (cacheSetWf_set (cacheSetWf_cacheSet h paddr) ?_ w)
  exact entryWf_wayAt hg (cacheSetWf_cacheSet h paddr) w

/-- An invalidation keeps an array in range (R199). -/
theorem cacheArrayWf_invalidateWay (hg : geometryWf g) (h : cacheArrayWf g cache) (paddr : PAddr) (w : Nat) :
    cacheArrayWf g (invalidateWay g cache paddr w) := by
  refine cacheArrayWf_putSet h paddr (cacheSetWf_set (cacheSetWf_cacheSet h paddr) ?_ w)
  exact entryWf_wayAt hg (cacheSetWf_cacheSet h paddr) w

theorem cacheArrayWf_takeVictim (hg : geometryWf g) (h : cacheArrayWf g cache) (v : Option Victim) :
    cacheArrayWf g (takeVictim g cache v) := by
  cases v with
  | none => exact h
  | some v => exact cacheArrayWf_cacheInstall hg h _ _

end

/-! ### States -/

theorem wf_l1 {s : State} (h : s.wf) (k : AccessKind) : cacheArrayWf (l1Geometry s.cfg) (s.l1 k) := by
  obtain ⟨-, -, -, -, -, hi, hd, -⟩ := h
  cases k
  · exact hi
  · exact hd

theorem wf_l2 {s : State} (h : s.wf) : cacheArrayWf (l2Geometry s.cfg) s.l2 := by
  obtain ⟨-, -, -, -, -, -, -, h2⟩ := h
  exact h2

theorem wf_mem {s : State} (h : s.wf) : Memory.wf s.mem ∧ Memory.inside s.mem s.cfg.memLen := ⟨h.2.1, h.2.2.1⟩

theorem wf_geometry {s : State} (h : s.wf) : geometryWf (l1Geometry s.cfg) ∧ geometryWf (l2Geometry s.cfg) :=
  geometryWf_of_valid h.1

theorem wf_setL1 {s : State} (h : s.wf) (k : AccessKind) {c : CacheArray} (hc : cacheArrayWf (l1Geometry s.cfg) c) :
    (s.setL1 k c).wf := by
  obtain ⟨hvalid, hmem, hinside, hfa, hhier, hi, hd, h2⟩ := h
  cases k
  · exact ⟨hvalid, hmem, hinside, hfa, hhier, hc, hd, h2⟩
  · exact ⟨hvalid, hmem, hinside, hfa, hhier, hi, hc, h2⟩

theorem wf_setL2 {s : State} (h : s.wf) {c : CacheArray} (hc : cacheArrayWf (l2Geometry s.cfg) c) :
    State.wf { s with l2 := c } := by
  obtain ⟨hvalid, hmem, hinside, hfa, hhier, hi, hd, -⟩ := h
  exact ⟨hvalid, hmem, hinside, hfa, hhier, hi, hd, hc⟩

theorem wf_setMem {s : State} (h : s.wf) {m : Memory} (hm : Memory.wf m) (hin : Memory.inside m s.cfg.memLen) :
    State.wf { s with mem := m } := by
  obtain ⟨hvalid, -, -, hfa, hhier, hi, hd, h2⟩ := h
  exact ⟨hvalid, hm, hin, hfa, hhier, hi, hd, h2⟩

theorem wf_fillL1 {s : State} (h : s.wf) (k : AccessKind) (paddr : PAddr) (line : Line) : (fillL1 s k paddr line).wf := by
  obtain ⟨hg1, hg2⟩ := wf_geometry h
  have h1 : (s.setL1 k (cacheInstall (l1Geometry s.cfg) (s.l1 k) paddr line).1).wf :=
    wf_setL1 h k (cacheArrayWf_cacheInstall hg1 (wf_l1 h k) paddr line)
  unfold fillL1
  obtain ⟨-, hs⟩ | ⟨v, -, hs⟩ := installVictim_cases (s.setL1 k (cacheInstall (l1Geometry s.cfg) (s.l1 k) paddr line).1)
    (cacheInstall (l1Geometry s.cfg) (s.l1 k) paddr line).2 <;> rw [hs]
  · exact h1
  · exact wf_setL2 h1 (cacheArrayWf_cacheInstall (by simpa using hg2) (wf_l2 h1) v.addr v.line)

theorem wf_migrate {s : State} (h : s.wf) (k : AccessKind) (paddr : PAddr) (w : Nat) : (migrate s k paddr w).wf :=
  wf_fillL1 (wf_setL2 h (cacheArrayWf_invalidateWay (wf_geometry h).2 (wf_l2 h) paddr w)) k paddr _

theorem wf_cacheReadWord {s : State} (h : s.wf) {paddr : PAddr} {k : AccessKind} {c : Served}
    (hc : cacheReadWord s paddr k = .ok c) : c.state.wf := by
  obtain ⟨hg1, hg2⟩ := wf_geometry h
  obtain ⟨w, -, rfl⟩ | ⟨w2, -, -, rfl⟩ | ⟨-, -, -, rfl⟩ := (cacheReadWord_cases s paddr k c hc).2
  · exact wf_setL1 h k (cacheArrayWf_aged hg1 (wf_l1 h k) paddr w)
  · exact wf_migrate (wf_setL2 h (cacheArrayWf_aged hg2 (wf_l2 h) paddr w2)) k paddr w2
  · exact wf_fillL1 h k paddr _

theorem wf_cacheWriteWord {s : State} (h : s.wf) {paddr : PAddr} {v : Word} {c : Served}
    (hc : cacheWriteWord s paddr v = .ok c) : c.state.wf := by
  obtain ⟨hg1, hg2⟩ := wf_geometry h
  obtain ⟨hmem, hinside⟩ := wf_mem h
  obtain ⟨-, hlen, hcases⟩ := cacheWriteWord_cases s paddr v c hc
  have hwritten : State.wf { s with mem := memWrite s.mem paddr.toNat v } :=
    wf_setMem h (memWrite_wf _ _ _ hmem) (memWrite_inside _ _ _ _ hinside hlen)
  obtain ⟨w, -, rfl⟩ | ⟨w2, -, -, rfl⟩ | ⟨-, -, hline, line, -, rfl⟩ := hcases
  · exact wf_setL1 hwritten .data (cacheArrayWf_storeWord hg1 (cacheArrayWf_aged hg1 (wf_l1 h .data) paddr w) paddr w v)
  · exact wf_migrate (wf_setL2 hwritten
      (cacheArrayWf_storeWord hg2 (cacheArrayWf_aged hg2 (wf_l2 h) paddr w2) paddr w2 v)) .data paddr w2
  · exact wf_fillL1 (wf_setMem h (memWriteLine_wf _ _ _ hmem) (memWriteLine_inside _ _ _ _ hinside hline)) .data paddr line

/-- Settles O59: the service, the word reads and the word writes keep a state well-formed. -/
theorem stepKeepsWellFormedStates : Obligations.StepKeepsWellFormedStates := by
  intro s t hwf h
  refine step_preserves (P := State.wf) hwf (fun w rest _ hexec => ?_) h
  refine exec_preserves (s := { s with requests := rest }) (P := State.wf) (fun _ _ hu => hu) hwf
    (fun k vaddr a r hi _ hr => ?_) hexec
  have hserved : r.state.wf := wf_tlbService (s := { s with requests := rest }) hwf hr
  exact ⟨hserved, fun c hc => cacheStage_preserves hi (fun _ _ _ hu _ hd => wf_cacheReadWord hu hd)
    (fun _ _ _ _ hu _ _ _ hd => wf_cacheWriteWord hu hd) hserved hc⟩

end Sys2Proof.Machine

/-! PROOFS. Lines of memory (spec/20_memory.md, spec/44_cache.md section 1): the words of a line are the words of memory at
its base, a word write changes one word of one line, and writing a whole line with one word changed is that word write. -/

namespace Sys2Proof.Machine

/-! ### Words of a line -/

theorem Line.ext_get {a b : Line} (h : ∀ k, a.get k = b.get k) : a = b := by
  obtain ⟨a0, a1, a2, a3⟩ := a
  obtain ⟨b0, b1, b2, b3⟩ := b
  have h0 : a0 = b0 := h 0
  have h1 : a1 = b1 := h 1
  have h2 : a2 = b2 := h 2
  have h3 : a3 = b3 := h 3
  rw [h0, h1, h2, h3]

theorem Line.get_put (line : Line) (k j : Fin 4) (v : Word) : (line.put k v).get j = if j = k then v else line.get j := by
  revert j k
  simp only [Fin.forall_fin_succ]
  simp [Line.get, Line.put]

@[simp] theorem Line.get_put_self (line : Line) (k : Fin 4) (v : Word) : (line.put k v).get k = v := by
  rw [Line.get_put, if_pos rfl]

/-- The word of a line fetched from memory (R58). -/
theorem memReadLine_get (m : Memory) (b : Nat) (k : Fin 4) : (memReadLine m b).get k = memRead m (b + 4 * k.val) := by
  match k with
  | 0 => rfl
  | 1 => rfl
  | 2 => rfl
  | 3 => rfl

/-- The word selected in the line of an address is its containing word (R190). -/
theorem lineBase_add_wordSelect (paddr : PAddr) : lineBase paddr + 4 * (wordSelect paddr).val = (wordAligned paddr).toNat := by
  rw [lineBase_eq, wordSelect, wordAligned_toNat]
  dsimp only
  omega

/-! ### Bytes of a word -/

/-- Byte `j` of a word read (R54). -/
theorem extractLsb'_memRead (m : Memory) (a : Nat) {j : Nat} (hj : j < 4) :
    (memRead m a).extractLsb' (8 * j) 8 = memByte m (a + j) := by
  have h0 := (memByte m a).isLt
  have h1 := (memByte m (a + 1)).isLt
  have h2 := (memByte m (a + 2)).isLt
  have h3 := (memByte m (a + 3)).isLt
  obtain rfl | rfl | rfl | rfl : j = 0 ∨ j = 1 ∨ j = 2 ∨ j = 3 := by omega
  all_goals
    rw [← BitVec.toNat_inj, toNat_extractLsb'_eq_mod, memRead]
    simp only [toNat_append_eq_add, Nat.add_zero]
    omega

/-- Byte `j` of memory after a word write there (R53). -/
theorem memByte_memWrite_add {m : Memory} (h : Memory.wf m) (a : Nat) (v : Word) {j : Nat} (hj : j < 4) :
    memByte (memWrite m a v) (a + j) = v.extractLsb' (8 * j) 8 := by
  rw [← extractLsb'_memRead _ _ hj, memRead_memWrite_self m a v h]

/-- Writing back the word that is there changes nothing (R52, R53). -/
theorem memWrite_memRead {m : Memory} (h : Memory.wf m) (a : Nat) : memWrite m a (memRead m a) = m := by
  refine Memory.ext_of_wf _ _ (memWrite_wf _ _ _ h) h fun b => ?_
  by_cases hb : b < a ∨ a + 4 ≤ b
  · exact memByte_memWrite_of_outside _ _ _ _ hb
  · obtain ⟨j, rfl⟩ : ∃ j, b = a + j := ⟨b - a, by omega⟩
    rw [memByte_memWrite_add h a _ (by omega), extractLsb'_memRead _ _ (by omega)]

/-! ### Lines and writes -/

/-- A word write leaves the other lines alone. -/
theorem memReadLine_memWrite_of_ne {p q : PAddr} (halign : p.toNat % 4 = 0) (h : q.toNat / 16 ≠ p.toNat / 16) (m : Memory)
    (v : Word) : memReadLine (memWrite m p.toNat v) (lineBase q) = memReadLine m (lineBase q) := by
  refine Line.ext_get fun k => ?_
  have hk : k.val < 4 := k.isLt
  rw [memReadLine_get, memReadLine_get, lineBase_eq, memRead_memWrite_of_disjoint _ _ _ _ (by omega)]

/-- A word write puts the word into its line. -/
theorem memReadLine_memWrite_self {m : Memory} (hm : Memory.wf m) {p : PAddr} (halign : p.toNat % 4 = 0) (v : Word) :
    memReadLine (memWrite m p.toNat v) (lineBase p) = (memReadLine m (lineBase p)).put (wordSelect p) v := by
  refine Line.ext_get fun k => ?_
  have hword := lineBase_add_wordSelect p
  rw [wordAligned_of_aligned halign] at hword
  rw [memReadLine_get, Line.get_put, memReadLine_get]
  split
  next hk => rw [hk, hword, memRead_memWrite_self _ _ _ hm]
  next hk =>
    rw [Fin.ext_iff] at hk
    rw [memRead_memWrite_of_disjoint _ _ _ _ (by omega)]

/-- A line write leaves the other lines alone. -/
theorem memReadLine_memWriteLine_of_ne {p q : PAddr} (h : q.toNat / 16 ≠ p.toNat / 16) (m : Memory) (line : Line) :
    memReadLine (memWriteLine m (lineBase p) line) (lineBase q) = memReadLine m (lineBase q) := by
  refine Line.ext_get fun k => ?_
  have hk : k.val < 4 := k.isLt
  rw [memReadLine_get, memReadLine_get, lineBase_eq, lineBase_eq]
  unfold memRead
  rw [memByte_memWriteLine_of_outside _ _ _ _ (by omega), memByte_memWriteLine_of_outside _ _ _ _ (by omega),
    memByte_memWriteLine_of_outside _ _ _ _ (by omega), memByte_memWriteLine_of_outside _ _ _ _ (by omega)]

/-- Writing a line of memory back with one word changed is the write of that word (R211). -/
theorem memWriteLine_put {m : Memory} (hm : Memory.wf m) (b : Nat) (k : Fin 4) (v : Word) :
    memWriteLine m b ((memReadLine m b).put k v) = memWrite m (b + 4 * k.val) v := by
  have hback : ∀ a c w, (a + 4 ≤ c ∨ c + 4 ≤ a) → memWrite (memWrite m c w) a (memRead m a) = memWrite m c w := by
    intro a c w hdisjoint
    rw [← memRead_memWrite_of_disjoint m c a w hdisjoint]
    exact memWrite_memRead (memWrite_wf _ _ _ hm) a
  match k with
  | 0 =>
    simp only [memWriteLine, memReadLine, Line.put]
    rw [hback _ _ _ (by omega), hback _ _ _ (by omega), hback _ _ _ (by omega)]
    rfl
  | 1 =>
    simp only [memWriteLine, memReadLine, Line.put]
    rw [memWrite_memRead hm, hback _ _ _ (by omega), hback _ _ _ (by omega)]
    rfl
  | 2 =>
    simp only [memWriteLine, memReadLine, Line.put]
    rw [memWrite_memRead hm, memWrite_memRead hm, hback _ _ _ (by omega)]
    rfl
  | 3 =>
    simp only [memWriteLine, memReadLine, Line.put]
    rw [memWrite_memRead hm, memWrite_memRead hm, memWrite_memRead hm]
    rfl

end Sys2Proof.Machine

/-! PROOFS. Coherence (spec/10_state.md section 7 items 5 to 7): the three arrays hold every line in one place at most and as
memory has it. An operation that only takes lines away keeps this, and so does one that adds one line nobody holds; each
cache operation is one of the two, or an invalidation of the first kind followed by an install of the second. -/

namespace Sys2Proof.Machine

/-! ### What an array holds after an operation -/

section
variable {g : Geometry} {cache : CacheArray}

/-- A line of another set is where it was. -/
theorem holdsLine_putSet_of_ne {p q : PAddr} (h : lineIndex g q ≠ lineIndex g p) (set : List CacheEntry) (u : Nat)
    (l : Line) : holdsLine g (putSet g cache p set) q u l ↔ holdsLine g cache q u l := by
  rw [holdsLine_iff, holdsLine_iff, cacheSet_putSet_of_ne _ _ _ _ _ h]

/-- A line of the set replaced. -/
theorem holdsLine_putSet_of_eq (hwf : cacheArrayWf g cache) {p q : PAddr} (h : lineIndex g q = lineIndex g p)
    (set : List CacheEntry) (u : Nat) (l : Line) :
    holdsLine g (putSet g cache p set) q u l ↔ setHolds set (cacheTag g q) u l := by
  rw [holdsLine_iff, h, cacheSet_putSet_self _ _ _ _ (lineIndex_lt_length hwf p)]

/-- Addresses of one line are held alike. -/
theorem holdsLine_of_sameLine {p q : PAddr} (h : p.toNat / 16 = q.toNat / 16) (w : Nat) (l : Line) :
    holdsLine g cache p w l ↔ holdsLine g cache q w l := by
  obtain ⟨hindex, htag⟩ := (sameLine_iff g p q).1 h
  rw [holdsLine_iff, holdsLine_iff, hindex, htag]

/-- The entry of a way that a probe finds (R191). -/
theorem exists_entry_of_cacheProbe {p : PAddr} {w : Nat} (h : cacheProbe g cache p = some w) :
    ∃ e, (cacheSet cache (lineIndex g p))[w]? = some e ∧ e.valid = true ∧ e.tag = cacheTag g p ∧
      lineHeld g cache p w = e.words := by
  obtain ⟨hlt, hmatch, -⟩ := (cacheProbe_eq_some g cache p w).1 h
  rw [CacheEntry.matchesTag, Bool.and_eq_true, beq_iff_eq] at hmatch
  have hentry := List.getElem?_eq_getElem hlt
  exact ⟨_, hentry, hmatch.1, hmatch.2, by rw [lineHeld, wayAt_of_getElem? hentry]⟩

/-- A probe finds a line that is held (R191). -/
theorem holdsLine_of_cacheProbe {p : PAddr} {w : Nat} (h : cacheProbe g cache p = some w) :
    holdsLine g cache p w (lineHeld g cache p w) := by
  obtain ⟨e, he, hvalid, htag, hline⟩ := exists_entry_of_cacheProbe h
  exact ⟨e, he, hvalid, htag, hline.symm⟩

/-- A probe that misses misses every way (R191). -/
theorem not_holdsLine_of_cacheProbe {p : PAddr} (h : cacheProbe g cache p = none) (w : Nat) (l : Line) :
    ¬ holdsLine g cache p w l := by
  rintro ⟨e, he, hvalid, htag, -⟩
  exact (cacheProbe_eq_none g cache p).1 h e (List.mem_of_getElem? he) hvalid htag

/-- The words of a way that holds a line. -/
theorem lineHeld_of_holdsLine {p : PAddr} {w : Nat} {l : Line} (h : holdsLine g cache p w l) : lineHeld g cache p w = l := by
  obtain ⟨e, he, -, -, hwords⟩ := h
  rw [lineHeld, wayAt_of_getElem? he, hwords]

/-- Ageing on a hit keeps every line where it is (R192). -/
theorem holdsLine_aged (hwf : cacheArrayWf g cache) {p : PAddr} {w : Nat} (hw : cacheProbe g cache p = some w) (q : PAddr)
    (u : Nat) (l : Line) :
    holdsLine g (putSet g cache p (ageOnHit g.ways (cacheSet cache (lineIndex g p)) w)) q u l ↔ holdsLine g cache q u l := by
  by_cases h : lineIndex g q = lineIndex g p
  · obtain ⟨e, he, -⟩ := exists_entry_of_cacheProbe hw
    rw [holdsLine_putSet_of_eq hwf h, setHolds_ageOnHit he, holdsLine_iff, h]
  · exact holdsLine_putSet_of_ne h _ u l

/-- What a set holds after one of its ways is overwritten. -/
theorem setHolds_set (set : List CacheEntry) (w : Nat) (e : CacheEntry) (tag : BitVec 32) (u : Nat) (l : Line) :
    setHolds (set.set w e) tag u l ↔
      (u = w ∧ w < set.length ∧ e.valid = true ∧ e.tag = tag ∧ e.words = l) ∨ (u ≠ w ∧ setHolds set tag u l) := by
  by_cases hu : u = w
  · subst hu
    by_cases hlt : u < set.length
    · rw [setHolds_of_getElem? (List.getElem?_set_self hlt)]
      simp [hlt]
    · simp [setHolds, hlt]
  · simp [setHolds, List.getElem?_set_ne (Ne.symm hu), hu]

/-- An invalidation takes one way's line away (R199). -/
theorem holdsLine_invalidateWay (hwf : cacheArrayWf g cache) {p q : PAddr} {w u : Nat} {l : Line}
    (h : holdsLine g (invalidateWay g cache p w) q u l) :
    holdsLine g cache q u l ∧ ¬ (lineIndex g q = lineIndex g p ∧ u = w) := by
  by_cases hindex : lineIndex g q = lineIndex g p
  · rw [invalidateWay, holdsLine_putSet_of_eq hwf hindex, setHolds_set] at h
    obtain ⟨-, -, hvalid, -⟩ | ⟨hu, hheld⟩ := h
    · cases hvalid
    · rw [holdsLine_iff, hindex]
      exact ⟨hheld, fun h => hu h.2⟩
  · rw [invalidateWay, holdsLine_putSet_of_ne hindex] at h
    exact ⟨h, fun h => hindex h.1⟩

/-- A store changes one way's line (R207, R208). -/
theorem holdsLine_storeWord (hwf : cacheArrayWf g cache) {p q : PAddr} {w u : Nat} {v : Word} {line l : Line}
    (hline : holdsLine g cache p w line) (h : holdsLine g (storeWord g cache p w v) q u l) :
    (q.toNat / 16 = p.toNat / 16 ∧ u = w ∧ l = line.put (wordSelect p) v) ∨
      (holdsLine g cache q u l ∧ ¬ (lineIndex g q = lineIndex g p ∧ u = w)) := by
  by_cases hindex : lineIndex g q = lineIndex g p
  · rw [storeWord, holdsLine_putSet_of_eq hwf hindex, setHolds_set, lineHeld_of_holdsLine hline] at h
    obtain ⟨e, he, -, htag, -⟩ := hline
    rw [wayAt_of_getElem? he] at h
    obtain ⟨hu, -, -, htag', hwords⟩ | ⟨hu, hheld⟩ := h
    · exact .inl ⟨(sameLine_iff g q p).2 ⟨hindex, htag'.symm.trans htag⟩, hu, hwords.symm⟩
    · refine .inr ⟨?_, fun h => hu h.2⟩
      rwa [holdsLine_iff, hindex]
  · rw [storeWord, holdsLine_putSet_of_ne hindex] at h
    exact .inr ⟨h, fun h => hindex h.1⟩

/-- After a store the way holds the line with the word put in (R207, R208). -/
theorem holdsLine_storeWord_self (hwf : cacheArrayWf g cache) {p : PAddr} {w : Nat} {line : Line}
    (hline : holdsLine g cache p w line) (v : Word) :
    holdsLine g (storeWord g cache p w v) p w (line.put (wordSelect p) v) := by
  rw [storeWord, holdsLine_putSet_of_eq hwf rfl, setHolds_set, lineHeld_of_holdsLine hline]
  obtain ⟨e, he, hvalid, htag, -⟩ := hline
  rw [wayAt_of_getElem? he]
  exact .inl ⟨rfl, (List.getElem?_eq_some_iff.1 he).1, hvalid, htag, rfl⟩

/-- An install adds its line in the way it takes and takes that way's line away (R194, R195). -/
theorem holdsLine_cacheInstall (hg : geometryWf g) (hwf : cacheArrayWf g cache) (p : PAddr) (line : Line) (q : PAddr)
    (u : Nat) (l : Line) :
    holdsLine g (cacheInstall g cache p line).1 q u l ↔
      (q.toNat / 16 = p.toNat / 16 ∧ u = installWay (cacheSet cache (lineIndex g p)) ∧ l = line) ∨
        (holdsLine g cache q u l ∧
          ¬ (lineIndex g q = lineIndex g p ∧ u = installWay (cacheSet cache (lineIndex g p)))) := by
  rw [cacheInstall_eq]
  by_cases hindex : lineIndex g q = lineIndex g p
  · rw [holdsLine_putSet_of_eq hwf hindex, setHolds_installSet (cacheSet_ne_nil hg hwf p), sameLine_iff g, holdsLine_iff,
      hindex]
    tauto
  · rw [holdsLine_putSet_of_ne hindex, sameLine_iff g]
    tauto

/-- The line that an install displaces was held in the way it takes, under the address given (R195, R196). -/
theorem holdsLine_of_installVictimOf (hg : geometryWf g) (hwf : cacheArrayWf g cache) {p : PAddr} {v : Victim}
    (h : installVictimOf g cache p = some v) :
    lineIndex g v.addr = lineIndex g p ∧
      holdsLine g cache v.addr (installWay (cacheSet cache (lineIndex g p))) v.line := by
  have hlt := installWay_lt (cacheSet_ne_nil hg hwf p)
  have hentry := List.getElem?_eq_getElem hlt
  have hmem := List.getElem_mem hlt
  unfold installVictimOf at h
  split at h
  next => cases h
  next hfree =>
    rw [Option.not_isSome_iff_eq_none, freeWay_eq_none_iff] at hfree
    rw [wayAt_of_getElem? hentry] at h
    cases h
    obtain ⟨-, htag⟩ := (cacheSetWf_cacheSet hwf p).2 _ hmem
    obtain ⟨hindex, hctag⟩ := lineAddress_fields hg.1 (lineIndex_lt g p) htag
    refine ⟨hindex, ?_⟩
    rw [holdsLine_iff, hindex, hctag]
    exact ⟨_, hentry, hfree _ hmem, rfl, rfl⟩

end

/-! ### The three arrays under one name -/

/-- A cache array: the L1 array of a kind, or `L2` (R29). -/
inductive CacheName where
  | l1 (k : AccessKind)
  | l2

/-- The sizes of an array. -/
def CacheName.geometry (c : Config) : CacheName → Geometry
  | .l1 _ => l1Geometry c
  | .l2 => l2Geometry c

/-- The array of a name. -/
def State.array (s : State) : CacheName → CacheArray
  | .l1 k => s.l1 k
  | .l2 => s.l2

/-- Way `w` of array `x` holds `line` as the line of `p`. -/
def heldIn (s : State) (x : CacheName) (p : PAddr) (w : Nat) (line : Line) : Prop :=
  holdsLine (x.geometry s.cfg) (s.array x) p w line

/-- The class of lines that an array may hold (R287). -/
def classAdmits (isCode : LineClass) (x : CacheName) (p : PAddr) : Prop :=
  match x with
  | .l1 k => isCode (p.toNat / 16) = decide (k = .instruction)
  | .l2 => True

theorem heldIn_of_sameLine {p q : PAddr} (h : p.toNat / 16 = q.toNat / 16) (s : State) (x : CacheName) (w : Nat)
    (l : Line) : heldIn s x p w l ↔ heldIn s x q w l :=
  holdsLine_of_sameLine h w l

theorem classAdmits_of_sameLine {p q : PAddr} (h : p.toNat / 16 = q.toNat / 16) (isCode : LineClass) (x : CacheName) :
    classAdmits isCode x p ↔ classAdmits isCode x q := by
  cases x
  · rw [classAdmits, classAdmits, h]
  · exact Iff.rfl

theorem lineBase_of_sameLine {p q : PAddr} (h : p.toNat / 16 = q.toNat / 16) : lineBase p = lineBase q := by
  rw [lineBase_eq, lineBase_eq, h]

/-- Every held line is of its array's class, lies inside memory and is what memory holds (R31 item 5). -/
def linesCurrent (isCode : LineClass) (s : State) : Prop :=
  ∀ x p w l, heldIn s x p w l →
    classAdmits isCode x p ∧ lineBase p + 16 ≤ s.cfg.memLen ∧ l = memReadLine s.mem (lineBase p)

/-- Every line is held in one way of one array at most (R31 items 6 and 7). -/
def linesOnce (s : State) : Prop :=
  ∀ x y p w w' l l', heldIn s x p w l → heldIn s y p w' l' → x = y ∧ w = w'

/-- Coherence in these terms: the classes keep the two L1 arrays apart, the exclusion keeps each apart from `L2`. -/
theorem cachesCoherent_iff (isCode : LineClass) (s : State) :
    cachesCoherent isCode s ↔ linesCurrent isCode s ∧ linesOnce s := by
  constructor
  · rintro ⟨hci, hcd, hmi, hmd, hm2, hxi, hxd, hui, hud, hu2⟩
    refine ⟨?_, ?_⟩
    · rintro (⟨_ | _⟩ | _) p w l h
      · exact ⟨hci p w l h, hmi p w l h⟩
      · exact ⟨hcd p w l h, hmd p w l h⟩
      · exact ⟨trivial, hm2 p w l h⟩
    · rintro (⟨_ | _⟩ | _) (⟨_ | _⟩ | _) p w w' l l' h h'
      · exact ⟨rfl, hui p w w' l l' h h'⟩
      · exact absurd ((hci p w l h).symm.trans (hcd p w' l' h')) (by decide)
      · exact absurd h' (hxi p w w' l l' h)
      · exact absurd ((hci p w' l' h').symm.trans (hcd p w l h)) (by decide)
      · exact ⟨rfl, hud p w w' l l' h h'⟩
      · exact absurd h' (hxd p w w' l l' h)
      · exact absurd h (hxi p w' w l' l h')
      · exact absurd h (hxd p w' w l' l h')
      · exact ⟨rfl, hu2 p w w' l l' h h'⟩
  · rintro ⟨hcurrent, honce⟩
    refine ⟨fun p w l h => (hcurrent (.l1 .instruction) p w l h).1, fun p w l h => (hcurrent (.l1 .data) p w l h).1,
      fun p w l h => (hcurrent (.l1 .instruction) p w l h).2, fun p w l h => (hcurrent (.l1 .data) p w l h).2,
      fun p w l h => (hcurrent .l2 p w l h).2, fun p w w' l l' h h' => ?_, fun p w w' l l' h h' => ?_,
      fun p w w' l l' h h' => (honce (.l1 .instruction) (.l1 .instruction) p w w' l l' h h').2,
      fun p w w' l l' h h' => (honce (.l1 .data) (.l1 .data) p w w' l l' h h').2,
      fun p w w' l l' h h' => (honce .l2 .l2 p w w' l l' h h').2⟩
    · cases (honce (.l1 .instruction) .l2 p w w' l l' h h').1
    · cases (honce (.l1 .data) .l2 p w w' l l' h h').1

/-! ### The two kinds of change -/

section
variable {isCode : LineClass} {s t : State} (hs : cachesCoherent isCode s) (hcfg : t.cfg = s.cfg)
include hs hcfg

/-- Taking lines away, and changing memory where no line stays held, keeps coherence. -/
theorem coherent_of_subset
    (hsub : ∀ x p w l, heldIn t x p w l →
      heldIn s x p w l ∧ memReadLine t.mem (lineBase p) = memReadLine s.mem (lineBase p)) : cachesCoherent isCode t := by
  obtain ⟨hcurrent, honce⟩ := (cachesCoherent_iff isCode s).1 hs
  refine (cachesCoherent_iff isCode t).2 ⟨fun x p w l h => ?_, fun x y p w w' l l' h h' => ?_⟩
  · obtain ⟨hbefore, hmem⟩ := hsub x p w l h
    rw [hcfg, hmem]
    exact hcurrent x p w l hbefore
  · exact honce x y p w w' l l' (hsub x p w l h).1 (hsub y p w' l' h').1

/-- Putting the one line of `p0` in place, where every other line held was held before, keeps coherence. -/
theorem coherent_of_add {x0 : CacheName} {p0 : PAddr} {w0 : Nat} {line0 : Line} (hclass : classAdmits isCode x0 p0)
    (hinside : lineBase p0 + 16 ≤ s.cfg.memLen) (hline : line0 = memReadLine t.mem (lineBase p0))
    (hmem : ∀ q : PAddr, q.toNat / 16 ≠ p0.toNat / 16 →
      memReadLine t.mem (lineBase q) = memReadLine s.mem (lineBase q))
    (hheld : ∀ x q u l, heldIn t x q u l →
      (q.toNat / 16 = p0.toNat / 16 ∧ x = x0 ∧ u = w0 ∧ l = line0) ∨
        (q.toNat / 16 ≠ p0.toNat / 16 ∧ heldIn s x q u l)) : cachesCoherent isCode t := by
  obtain ⟨hcurrent, honce⟩ := (cachesCoherent_iff isCode s).1 hs
  refine (cachesCoherent_iff isCode t).2 ⟨fun x q u l h => ?_, fun x y q u u' l l' h h' => ?_⟩
  · rw [hcfg]
    obtain ⟨hsame, rfl, rfl, rfl⟩ | ⟨hne, hbefore⟩ := hheld x q u l h
    · rw [classAdmits_of_sameLine hsame, lineBase_of_sameLine hsame]
      exact ⟨hclass, hinside, hline⟩
    · rw [hmem q hne]
      exact hcurrent x q u l hbefore
  · obtain ⟨hsame, rfl, rfl, rfl⟩ | ⟨hne, hbefore⟩ := hheld x q u l h <;>
      obtain ⟨hsame', rfl, rfl, rfl⟩ | ⟨hne', hbefore'⟩ := hheld y q u' l' h'
    · exact ⟨rfl, rfl⟩
    · exact absurd hsame hne'
    · exact absurd hsame' hne
    · exact honce x y q u u' l l' hbefore hbefore'

end

/-! ### Fills -/

section
variable {isCode : LineClass} {s : State} {k : AccessKind} {p : PAddr}

/-- A line of one array is in no other. -/
theorem eq_of_heldIn (hs : cachesCoherent isCode s) {x y : CacheName} {p q : PAddr} {w w' : Nat} {l l' : Line}
    (hsame : q.toNat / 16 = p.toNat / 16) (h : heldIn s x p w l) (h' : heldIn s y q w' l') : x = y ∧ w = w' :=
  ((cachesCoherent_iff isCode s).1 hs).2 x y p w w' l l' h ((heldIn_of_sameLine hsame s y w' l').1 h')

/-- A line that no array holds stays unheld when an array loses lines. -/
theorem heldIn_ne_of_none (hnone : ∀ x w l, ¬ heldIn s x p w l) {x : CacheName} {q : PAddr} {u : Nat} {l : Line}
    (h : heldIn s x q u l) : q.toNat / 16 ≠ p.toNat / 16 :=
  fun hsame => hnone x u l ((heldIn_of_sameLine hsame s x u l).1 h)

/-- What the arrays hold after one L1 array is replaced. -/
theorem heldIn_setL1 {c : CacheArray} {x : CacheName} {q : PAddr} {u : Nat} {l : Line} (h : heldIn (s.setL1 k c) x q u l) :
    (x = .l1 k ∧ holdsLine (l1Geometry s.cfg) c q u l) ∨ (x ≠ .l1 k ∧ heldIn s x q u l) := by
  cases x with
  | l2 => exact .inr ⟨nofun, by simpa [heldIn, State.array, CacheName.geometry] using h⟩
  | l1 j =>
    by_cases hj : j = k
    · subst hj
      exact .inl ⟨rfl, by simpa [heldIn, State.array, CacheName.geometry] using h⟩
    · refine .inr ⟨fun hx => hj (CacheName.l1.inj hx), ?_⟩
      simpa [heldIn, State.array, CacheName.geometry, State.setL1_l1_of_ne _ _ _ _ hj] using h

/-- The L1 half of a fill: the install of a line that no array holds (R198). -/
theorem coherent_install_l1 (hwf : s.wf) (hs : cachesCoherent isCode s)
    (hclass : isCode (p.toNat / 16) = decide (k = .instruction)) (hnone : ∀ x w l, ¬ heldIn s x p w l)
    (hinside : lineBase p + 16 ≤ s.cfg.memLen) :
    cachesCoherent isCode
      (s.setL1 k (cacheInstall (l1Geometry s.cfg) (s.l1 k) p (memReadLine s.mem (lineBase p))).1) := by
  refine coherent_of_add (x0 := .l1 k) (p0 := p) hs (State.setL1_cfg ..) hclass hinside (by rw [State.setL1_mem])
    (fun q _ => by rw [State.setL1_mem]) (w0 := installWay (cacheSet (s.l1 k) (lineIndex (l1Geometry s.cfg) p)))
    fun x q u l h => ?_
  obtain ⟨rfl, hl1⟩ | ⟨-, hbefore⟩ := heldIn_setL1 h
  · obtain ⟨hsame, hu, hl⟩ | ⟨hbefore, -⟩ := (holdsLine_cacheInstall (wf_geometry hwf).1 (wf_l1 hwf k) p _ q u l).1 hl1
    · exact .inl ⟨hsame, rfl, hu, hl⟩
    · exact .inr ⟨heldIn_ne_of_none (x := .l1 k) hnone hbefore, hbefore⟩
  · exact .inr ⟨heldIn_ne_of_none hnone hbefore, hbefore⟩

/-- The line that the install displaced is held no more. -/
theorem not_heldIn_victim (hwf : s.wf) (hs : cachesCoherent isCode s) (hnone : ∀ x w l, ¬ heldIn s x p w l) {v : Victim}
    (hv : installVictimOf (l1Geometry s.cfg) (s.l1 k) p = some v) (line : Line) (x : CacheName) (u : Nat) (l : Line) :
    ¬ heldIn (s.setL1 k (cacheInstall (l1Geometry s.cfg) (s.l1 k) p line).1) x v.addr u l := by
  obtain ⟨hindex, hvictim⟩ := holdsLine_of_installVictimOf (wf_geometry hwf).1 (wf_l1 hwf k) hv
  intro h
  obtain ⟨rfl, hl1⟩ | ⟨hx, hbefore⟩ := heldIn_setL1 h
  · obtain ⟨hsame, -⟩ | ⟨hbefore, hslot⟩ :=
      (holdsLine_cacheInstall (wf_geometry hwf).1 (wf_l1 hwf k) p line v.addr u l).1 hl1
    · exact heldIn_ne_of_none (x := .l1 k) hnone hvictim hsame
    · exact hslot ⟨hindex, (eq_of_heldIn (x := .l1 k) (y := .l1 k) hs rfl hvictim hbefore).2.symm⟩
  · exact hx (eq_of_heldIn (x := .l1 k) hs rfl hvictim hbefore).1.symm

/-- The `L2` half of a fill: the install of a line that no array holds (R197). -/
theorem coherent_install_l2 (hwf : s.wf) (hs : cachesCoherent isCode s) (hnone : ∀ x w l, ¬ heldIn s x p w l)
    (hinside : lineBase p + 16 ≤ s.cfg.memLen) {line : Line} (hline : line = memReadLine s.mem (lineBase p)) :
    cachesCoherent isCode { s with l2 := (cacheInstall (l2Geometry s.cfg) s.l2 p line).1 } := by
  refine coherent_of_add (x0 := .l2) (p0 := p) hs rfl trivial hinside hline (fun _ _ => rfl)
    (w0 := installWay (cacheSet s.l2 (lineIndex (l2Geometry s.cfg) p))) fun x q u l h => ?_
  cases x with
  | l2 =>
    obtain ⟨hsame, hu, hl⟩ | ⟨hbefore, -⟩ := (holdsLine_cacheInstall (wf_geometry hwf).2 (wf_l2 hwf) p _ q u l).1 h
    · exact .inl ⟨hsame, rfl, hu, hl⟩
    · exact .inr ⟨heldIn_ne_of_none (x := .l2) hnone hbefore, hbefore⟩
  | l1 j =>
    have hbefore : heldIn s (.l1 j) q u l := h
    exact .inr ⟨heldIn_ne_of_none hnone hbefore, hbefore⟩

/-- A fill with a line that no array holds keeps coherence (R198). -/
theorem coherent_fillL1 (hwf : s.wf) (hs : cachesCoherent isCode s)
    (hclass : isCode (p.toNat / 16) = decide (k = .instruction)) (hnone : ∀ x w l, ¬ heldIn s x p w l)
    (hinside : lineBase p + 16 ≤ s.cfg.memLen) :
    cachesCoherent isCode (fillL1 s k p (memReadLine s.mem (lineBase p))) := by
  have h1 := coherent_install_l1 hwf hs hclass hnone hinside
  have hwf1 := wf_setL1 hwf k
    (cacheArrayWf_cacheInstall (wf_geometry hwf).1 (wf_l1 hwf k) p (memReadLine s.mem (lineBase p)))
  rw [fillL1]
  obtain ⟨-, ht⟩ | ⟨v, hv, ht⟩ := installVictim_cases
    (s.setL1 k (cacheInstall (l1Geometry s.cfg) (s.l1 k) p (memReadLine s.mem (lineBase p))).1)
    (cacheInstall (l1Geometry s.cfg) (s.l1 k) p (memReadLine s.mem (lineBase p))).2 <;> rw [ht]
  · exact h1
  · rw [cacheInstall_eq] at hv
    obtain ⟨-, hvictim⟩ := holdsLine_of_installVictimOf (wf_geometry hwf).1 (wf_l1 hwf k) hv
    obtain ⟨-, hin, hline⟩ := ((cachesCoherent_iff isCode s).1 hs).1 (.l1 k) _ _ _ hvictim
    exact coherent_install_l2 (p := v.addr) hwf1 h1 (not_heldIn_victim hwf hs hnone hv _)
      (by rw [State.setL1_cfg]; exact hin) (by rw [State.setL1_mem]; exact hline)

/-- A line of `L2` that migrates: it may have been stored to before it moves, and memory with it (R199, R208). -/
theorem coherent_migrate {t : State} (hwf : t.wf) (hs : cachesCoherent isCode s) (hcfg : t.cfg = s.cfg)
    (hl1 : ∀ j, t.l1 j = s.l1 j) (hclass : isCode (p.toNat / 16) = decide (k = .instruction)) {w : Nat} {old : Line}
    (hold : heldIn s .l2 p w old) (hnew : lineHeld (l2Geometry t.cfg) t.l2 p w = memReadLine t.mem (lineBase p))
    (hl2 : ∀ q u l, heldIn t .l2 q u l → (q.toNat / 16 = p.toNat / 16 ∧ u = w) ∨ heldIn s .l2 q u l)
    (hmem : ∀ q : PAddr, q.toNat / 16 ≠ p.toNat / 16 → memReadLine t.mem (lineBase q) = memReadLine s.mem (lineBase q)) :
    cachesCoherent isCode (migrate t k p w) := by
  have hinv := cacheArrayWf_invalidateWay (wf_geometry hwf).2 (wf_l2 hwf) p w
  have hsub : ∀ x q u l, heldIn { t with l2 := invalidateWay (l2Geometry t.cfg) t.l2 p w } x q u l →
      heldIn s x q u l ∧ q.toNat / 16 ≠ p.toNat / 16 := by
    intro x q u l h
    cases x with
    | l2 =>
      obtain ⟨hbefore, hslot⟩ := holdsLine_invalidateWay (wf_l2 hwf) h
      have hne : ¬ (q.toNat / 16 = p.toNat / 16 ∧ u = w) :=
        fun hsame => hslot ⟨((sameLine_iff _ q p).1 hsame.1).1, hsame.2⟩
      have hbefore' := (hl2 q u l hbefore).resolve_left hne
      exact ⟨hbefore', fun hsame => hne ⟨hsame, (eq_of_heldIn hs hsame hold hbefore').2.symm⟩⟩
    | l1 j =>
      have hbefore : heldIn t (.l1 j) q u l := h
      rw [heldIn, State.array, CacheName.geometry, hl1 j, hcfg] at hbefore
      exact ⟨hbefore, fun hsame => nomatch (eq_of_heldIn (y := .l1 j) hs hsame hold hbefore).1⟩
  obtain ⟨-, hin, -⟩ := ((cachesCoherent_iff isCode s).1 hs).1 .l2 p w old hold
  rw [migrate, hnew]
  refine coherent_fillL1 (wf_setL2 hwf hinv) ?_ hclass (fun x u l h => (hsub x p u l h).2 rfl) (hcfg ▸ hin)
  exact coherent_of_subset hs hcfg fun x q u l h => ⟨(hsub x q u l h).1, hmem q (hsub x q u l h).2⟩

/-! ### Reads and writes -/

/-- An address whose own L1 array and `L2` miss is held nowhere: the other L1 array holds the other class. -/
theorem not_heldIn_of_misses (hs : cachesCoherent isCode s) (hclass : isCode (p.toNat / 16) = decide (k = .instruction))
    (h1 : cacheProbe (l1Geometry s.cfg) (s.l1 k) p = none) (h2 : cacheProbe (l2Geometry s.cfg) s.l2 p = none)
    (x : CacheName) (w : Nat) (l : Line) : ¬ heldIn s x p w l := by
  intro h
  cases x with
  | l2 => exact not_holdsLine_of_cacheProbe h2 w l h
  | l1 j =>
    obtain ⟨hj, -⟩ := ((cachesCoherent_iff isCode s).1 hs).1 _ p w l h
    have hjk : j = k := by
      rw [classAdmits, hclass] at hj
      cases j <;> cases k <;> simp_all
    subst hjk
    exact not_holdsLine_of_cacheProbe h1 w l h

/-- A word read keeps coherence (R200 to R203). -/
theorem coherent_cacheReadWord (hwf : s.wf) (hs : cachesCoherent isCode s)
    (hclass : isCode (p.toNat / 16) = decide (k = .instruction)) {c : Served} (h : cacheReadWord s p k = .ok c) :
    cachesCoherent isCode c.state := by
  obtain ⟨w, hw, rfl⟩ | ⟨w, -, hw, rfl⟩ | ⟨h1, h2, hin, rfl⟩ := (cacheReadWord_cases s p k c h).2
  · refine coherent_of_subset hs (State.setL1_cfg ..) fun x q u l hheld => ⟨?_, by rw [State.setL1_mem]⟩
    obtain ⟨rfl, hl1⟩ | ⟨-, hbefore⟩ := heldIn_setL1 hheld
    · exact (holdsLine_aged (wf_l1 hwf k) hw q u l).1 hl1
    · exact hbefore
  · have haged := holdsLine_aged (wf_l2 hwf) hw
    have hold := holdsLine_of_cacheProbe hw
    obtain ⟨-, -, hline⟩ := ((cachesCoherent_iff isCode s).1 hs).1 .l2 p w _ hold
    exact coherent_migrate (wf_setL2 hwf (cacheArrayWf_aged (wf_geometry hwf).2 (wf_l2 hwf) p w)) hs rfl
      (fun j => by cases j <;> rfl) hclass hold ((lineHeld_of_holdsLine ((haged ..).2 hold)).trans hline)
      (fun q u l hheld => .inr ((haged q u l).1 hheld)) fun _ _ => rfl
  · exact coherent_fillL1 hwf hs hclass (not_heldIn_of_misses hs hclass h1 h2) hin

/-- What is held does not depend on memory. -/
theorem heldIn_of_setMem {m : Memory} {x : CacheName} {q : PAddr} {u : Nat} {l : Line}
    (h : heldIn { s with mem := m } x q u l) : heldIn s x q u l := by
  cases x with
  | l1 k => exact h
  | l2 => exact h

/-- A write to memory where no line is held keeps coherence. -/
theorem coherent_setMem (hs : cachesCoherent isCode s) (hnone : ∀ x w l, ¬ heldIn s x p w l) {m : Memory}
    (hother : ∀ q : PAddr, q.toNat / 16 ≠ p.toNat / 16 → memReadLine m (lineBase q) = memReadLine s.mem (lineBase q)) :
    cachesCoherent isCode { s with mem := m } := by
  refine coherent_of_subset hs rfl fun x q u l hheld => ?_
  have hbefore := heldIn_of_setMem hheld
  exact ⟨hbefore, hother q (heldIn_ne_of_none hnone hbefore)⟩

section
variable (hwf : s.wf) (hs : cachesCoherent isCode s) (hclass : isCode (p.toNat / 16) = false)
  (halign : p.toNat % 4 = 0) (v : Word) {w : Nat}
include hwf hs hclass halign

/-- A store to a line of `L1D` and to memory alike (R207). -/
theorem coherent_store_l1 (hw : cacheProbe (l1Geometry s.cfg) s.l1d p = some w) :
    cachesCoherent isCode { s with
      l1d := storeWord (l1Geometry s.cfg) (putSet (l1Geometry s.cfg) s.l1d p
        (ageOnHit (l1Geometry s.cfg).ways (cacheSet s.l1d (lineIndex (l1Geometry s.cfg) p)) w)) p w v
      mem := memWrite s.mem p.toNat v } := by
  have hold : heldIn s (.l1 .data) p w _ := holdsLine_of_cacheProbe hw
  obtain ⟨-, hin, hline⟩ := ((cachesCoherent_iff isCode s).1 hs).1 _ p w _ hold
  have haged := holdsLine_aged (wf_l1 hwf .data) hw
  have hagedWf := cacheArrayWf_aged (wf_geometry hwf).1 (wf_l1 hwf .data) p w
  have hkept : ∀ x q u l, heldIn s x q u l → ¬ (x = .l1 .data ∧ lineIndex (l1Geometry s.cfg) q =
      lineIndex (l1Geometry s.cfg) p ∧ u = w) → q.toNat / 16 ≠ p.toNat / 16 := by
    intro x q u l hbefore hslot hsame
    obtain ⟨hx, hu⟩ := eq_of_heldIn hs hsame hold hbefore
    exact hslot ⟨hx.symm, ((sameLine_iff _ q p).1 hsame).1, hu.symm⟩
  refine coherent_of_add (x0 := .l1 .data) (w0 := w) hs rfl hclass hin
    (memReadLine_memWrite_self (wf_mem hwf).1 halign v).symm
    (fun q hq => memReadLine_memWrite_of_ne halign hq s.mem v) fun x q u l hheld => ?_
  cases x with
  | l2 => exact .inr ⟨hkept .l2 q u l hheld nofun, hheld⟩
  | l1 j =>
    cases j with
    | instruction => exact .inr ⟨hkept (.l1 .instruction) q u l hheld nofun, hheld⟩
    | data =>
      obtain ⟨hsame, hu, hl⟩ | ⟨hbefore, hslot⟩ := holdsLine_storeWord hagedWf ((haged ..).2 hold) hheld
      · exact .inl ⟨hsame, rfl, hu, by rw [hl, hline]⟩
      · have hbefore' := (haged q u l).1 hbefore
        exact .inr ⟨hkept (.l1 .data) q u l hbefore' fun h => hslot h.2, hbefore'⟩

/-- A store to a line of `L2` and to memory alike, and its migration (R208). -/
theorem coherent_store_l2 (hlen : p.toNat + 4 ≤ s.cfg.memLen) (hw : cacheProbe (l2Geometry s.cfg) s.l2 p = some w) :
    cachesCoherent isCode (migrate { s with
      l2 := storeWord (l2Geometry s.cfg) (putSet (l2Geometry s.cfg) s.l2 p
        (ageOnHit (l2Geometry s.cfg).ways (cacheSet s.l2 (lineIndex (l2Geometry s.cfg) p)) w)) p w v
      mem := memWrite s.mem p.toNat v } .data p w) := by
  obtain ⟨hmem, hinside⟩ := wf_mem hwf
  have hold : heldIn s .l2 p w _ := holdsLine_of_cacheProbe hw
  obtain ⟨-, -, hline⟩ := ((cachesCoherent_iff isCode s).1 hs).1 _ p w _ hold
  have haged := holdsLine_aged (wf_l2 hwf) hw
  have hagedWf := cacheArrayWf_aged (wf_geometry hwf).2 (wf_l2 hwf) p w
  have hwritten := wf_setMem hwf (memWrite_wf s.mem p.toNat v hmem) (memWrite_inside _ _ _ v hinside hlen)
  have hstored := holdsLine_storeWord_self hagedWf ((haged ..).2 hold) v
  refine coherent_migrate (wf_setL2 hwritten (cacheArrayWf_storeWord (wf_geometry hwf).2 hagedWf p w v)) hs rfl
    (fun j => by cases j <;> rfl) hclass hold ?_ (fun q u l hheld => ?_)
    fun q hq => memReadLine_memWrite_of_ne halign hq s.mem v
  · rw [memReadLine_memWrite_self hmem halign, ← hline]
    exact lineHeld_of_holdsLine hstored
  · obtain ⟨hsame, hu, -⟩ | ⟨hbefore, -⟩ := holdsLine_storeWord hagedWf ((haged ..).2 hold) hheld
    · exact .inl ⟨hsame, hu⟩
    · exact .inr ((haged q u l).1 hbefore)

/-- A word write keeps coherence: line and memory change alike (R205 to R211). -/
theorem coherent_cacheWriteWord {c : Served} (h : cacheWriteWord s p v = .ok c) : cachesCoherent isCode c.state := by
  obtain ⟨hmem, hinside⟩ := wf_mem hwf
  obtain ⟨-, hlen, hcases⟩ := cacheWriteWord_cases s p v c h
  obtain ⟨w, hw, rfl⟩ | ⟨w, -, hw, rfl⟩ | ⟨h1, h2, hin, line, -, rfl⟩ := hcases
  · exact coherent_store_l1 hwf hs hclass halign v hw
  · exact coherent_store_l2 hwf hs hclass halign v hlen hw
  · have hnone := not_heldIn_of_misses (k := .data) hs hclass h1 h2
    have hwritten := wf_setMem hwf (memWriteLine_wf _ (lineBase p) line hmem) (memWriteLine_inside _ _ _ _ hinside hin)
    have hsub := coherent_setMem hs hnone fun q hq => memReadLine_memWriteLine_of_ne hq s.mem line
    have hfill := coherent_fillL1 (s := { s with mem := memWriteLine s.mem (lineBase p) line }) (k := .data) hwritten
      hsub hclass (fun x u l hheld => hnone x u l (heldIn_of_setMem hheld)) hin
    rwa [memReadLine_memWriteLine _ _ _ hmem] at hfill

end

end

/-! ### The step -/

/-- The duty of separation looks at the translation, not at the request port (R287). -/
theorem class_of_obeysSeparation {isCode : LineClass} {s : State} {i : Instr} (h : obeysSeparation isCode s i)
    {rest : List Request} {k : AccessKind} {vaddr : VAddr} {a : VirtualAddress} {r : Translated}
    (hi : accessOf i = some (k, vaddr)) (ha : decomposeVirtual vaddr = .ok a)
    (hr : tlbService { s with requests := rest } a k = .ok r) :
    isCode ((composePhysical r.phys).toNat / 16) = decide (k = .instruction) := by
  have htrans : translation s k a = .ok r.phys := translation_of_tlbService (s := { s with requests := rest }) hr
  obtain ⟨r', hr', hphys, -⟩ := tlbService_of_translation htrans
  rw [← hphys]
  exact h k vaddr a r' hi ha hr'

/-- Coherence looks at nothing but the caches, memory and their sizes. -/
theorem coherent_of_sameButTlb {isCode : LineClass} {s t : State} (hs : cachesCoherent isCode s) (h : sameButTlb s t) :
    cachesCoherent isCode t := by
  obtain ⟨hcfg, hmem, hi, hd, h2, -⟩ := h
  unfold cachesCoherent at *
  rwa [hcfg, hmem, hi, hd, h2]

/-- Settles O40: well-formedness and coherence are kept together by the word reads and writes of a stage. -/
theorem cachesStayCoherent : Obligations.CachesStayCoherent := by
  intro isCode s t hwf hs hobeys h
  refine (step_preserves (P := fun u => u.wf ∧ cachesCoherent isCode u) ⟨hwf, hs⟩ (fun w rest hreq hexec => ?_) h).2
  refine exec_preserves (s := { s with requests := rest }) (P := fun u => u.wf ∧ cachesCoherent isCode u)
    (fun _ _ hu => hu) ⟨hwf, hs⟩ (fun k vaddr a r hi ha hr => ?_) hexec
  have hclass := class_of_obeysSeparation (hobeys w rest hreq) hi ha hr
  have hserved : r.state.wf ∧ cachesCoherent isCode r.state :=
    ⟨wf_tlbService (s := { s with requests := rest }) hwf hr,
      coherent_of_sameButTlb (s := { s with requests := rest }) hs (tlbService_sameButTlb _ _ _ _ hr)⟩
  have hline : ∀ q, q = composePhysical r.phys ∨ q = wordAligned (composePhysical r.phys) →
      isCode (q.toNat / 16) = decide (k = .instruction) := by
    rintro q (rfl | rfl)
    · exact hclass
    · rw [wordAligned_line, hclass]
  refine ⟨hserved, fun c hc => cacheStage_preserves (P := fun u => u.wf ∧ cachesCoherent isCode u) hi ?_ ?_ hserved hc⟩
  · exact fun u q d hu hq hd => ⟨wf_cacheReadWord hu.1 hd, coherent_cacheReadWord hu.1 hu.2 (hline q hq) hd⟩
  · intro u q v d hu hk _ hq hd
    subst hk
    exact ⟨wf_cacheWriteWord hu.1 hd, coherent_cacheWriteWord hu.1 hu.2 (hline q hq)
      (cacheWriteWord_cases u q v d hd).1 v hd⟩

end Sys2Proof.Machine

/-! PROOFS. What serves an access and what it leaves (spec/44_cache.md sections 5 to 7): a read answers the word of the line that
serves it; the L1 array of the kind ends with that line, its set aged on a hit and the install's otherwise; a byte write
is a read whose line the word write then finds in L1. -/

namespace Sys2Proof.Machine

/-! ### The line that serves -/

/-- The cases of the line that serves a read (R201 to R203). -/
theorem lineServed_cases {s : State} {k : AccessKind} {p : PAddr} {level : HitLevel} {line : Line}
    (h : lineServed s k p = .ok (level, line)) :
    (∃ w, cacheProbe (l1Geometry s.cfg) (s.l1 k) p = some w ∧ level = .l1 ∧
        line = lineHeld (l1Geometry s.cfg) (s.l1 k) p w) ∨
      (∃ w, cacheProbe (l1Geometry s.cfg) (s.l1 k) p = none ∧ cacheProbe (l2Geometry s.cfg) s.l2 p = some w ∧
        level = .l2 ∧ line = lineHeld (l2Geometry s.cfg) s.l2 p w) ∨
      (cacheProbe (l1Geometry s.cfg) (s.l1 k) p = none ∧ cacheProbe (l2Geometry s.cfg) s.l2 p = none ∧
        lineBase p + 16 ≤ s.cfg.memLen ∧ level = .mem ∧ line = memReadLine s.mem (lineBase p)) := by
  unfold lineServed at h
  split at h
  next w h1 =>
    cases h
    exact .inl ⟨w, h1, rfl, rfl⟩
  next h1 =>
    split at h
    next w h2 =>
      cases h
      exact .inr (.inl ⟨w, h1, h2, rfl, rfl⟩)
    next h2 =>
      split at h
      · cases h
      next hin =>
        cases h
        exact .inr (.inr ⟨h1, h2, Nat.not_lt.1 hin, rfl, rfl⟩)

/-- No line serves exactly when both levels miss and memory does not reach (R203). -/
theorem lineServed_error {s : State} {k : AccessKind} {p : PAddr} {e : ErrorKind} (h : lineServed s k p = .error e) :
    e = .outOfBounds ∧ cacheProbe (l1Geometry s.cfg) (s.l1 k) p = none ∧ cacheProbe (l2Geometry s.cfg) s.l2 p = none ∧
      s.cfg.memLen < lineBase p + 16 := by
  unfold lineServed at h
  split at h
  · cases h
  next h1 =>
    split at h
    · cases h
    next h2 =>
      split at h
      next hin => exact ⟨(Except.error.inj h).symm, h1, h2, hin⟩
      · cases h

theorem lineServed_of_l1 {s : State} {k : AccessKind} {p : PAddr} {w : Nat}
    (h : cacheProbe (l1Geometry s.cfg) (s.l1 k) p = some w) :
    lineServed s k p = .ok (.l1, lineHeld (l1Geometry s.cfg) (s.l1 k) p w) := by
  simp only [lineServed, h]

theorem lineServed_of_l2 {s : State} {k : AccessKind} {p : PAddr} {w : Nat}
    (h1 : cacheProbe (l1Geometry s.cfg) (s.l1 k) p = none) (h2 : cacheProbe (l2Geometry s.cfg) s.l2 p = some w) :
    lineServed s k p = .ok (.l2, lineHeld (l2Geometry s.cfg) s.l2 p w) := by
  simp only [lineServed, h1, h2]

theorem lineServed_of_mem {s : State} {k : AccessKind} {p : PAddr}
    (h1 : cacheProbe (l1Geometry s.cfg) (s.l1 k) p = none) (h2 : cacheProbe (l2Geometry s.cfg) s.l2 p = none)
    (hin : lineBase p + 16 ≤ s.cfg.memLen) : lineServed s k p = .ok (.mem, memReadLine s.mem (lineBase p)) := by
  simp only [lineServed, h1, h2, Nat.not_lt.2 hin, if_false]

theorem l1_of_sameButTlb {s t : State} (h : sameButTlb s t) (k : AccessKind) : t.l1 k = s.l1 k := by
  obtain ⟨-, -, hi, hd, -⟩ := h
  cases k
  · exact hi
  · exact hd

/-- The line served does not depend on TLB state (R204). -/
theorem lineServed_of_sameButTlb {s t : State} (h : sameButTlb s t) (k : AccessKind) (p : PAddr) :
    lineServed t k p = lineServed s k p := by
  obtain ⟨hcfg, hmem, -, -, h2, -⟩ := id h
  unfold lineServed
  rw [hcfg, hmem, l1_of_sameButTlb h, h2]

@[simp] theorem cacheProbe_wordAligned (g : Geometry) (c : CacheArray) (p : PAddr) :
    cacheProbe g c (wordAligned p) = cacheProbe g c p := by
  simp only [cacheProbe, lineIndex_wordAligned, cacheTag_wordAligned]

@[simp] theorem lineHeld_wordAligned (g : Geometry) (c : CacheArray) (p : PAddr) (w : Nat) :
    lineHeld g c (wordAligned p) w = lineHeld g c p w := by
  simp only [lineHeld, lineIndex_wordAligned]

@[simp] theorem putSet_wordAligned (g : Geometry) (c : CacheArray) (p : PAddr) (set : List CacheEntry) :
    putSet g c (wordAligned p) set = putSet g c p set := by
  simp only [putSet, lineIndex_wordAligned]

@[simp] theorem cacheInstall_wordAligned (g : Geometry) (c : CacheArray) (p : PAddr) (line : Line) :
    cacheInstall g c (wordAligned p) line = cacheInstall g c p line := by
  simp only [cacheInstall_eq, installVictimOf, putSet_wordAligned, lineIndex_wordAligned, cacheTag_wordAligned]

@[simp] theorem lineServed_wordAligned (s : State) (k : AccessKind) (p : PAddr) :
    lineServed s k (wordAligned p) = lineServed s k p := by
  simp only [lineServed, cacheProbe_wordAligned, lineHeld_wordAligned, lineBase_wordAligned]

/-! ### When a word read and a word write answer -/

/-- A misaligned word read (R200). -/
theorem cacheReadWord_of_misaligned {p : PAddr} (h : p.toNat % 4 ≠ 0) (s : State) (k : AccessKind) :
    cacheReadWord s p k = .error .badParameter := if_pos h

/-- A misaligned word write (R205). -/
theorem cacheWriteWord_of_misaligned {p : PAddr} (h : p.toNat % 4 ≠ 0) (s : State) (v : Word) :
    cacheWriteWord s p v = .error .badParameter := if_pos h

/-- A word write beyond memory (R205). -/
theorem cacheWriteWord_of_outside {s : State} {p : PAddr} (halign : p.toNat % 4 = 0) (h : s.cfg.memLen < p.toNat + 4)
    (v : Word) : cacheWriteWord s p v = .error .outOfBounds := by
  rw [cacheWriteWord, if_neg (not_not.2 halign), if_pos h]

section
variable {s : State} {k : AccessKind} {p : PAddr} (halign : p.toNat % 4 = 0)
include halign

/-- A word read that a line serves answers that line's word (R201 to R203). -/
theorem cacheReadWord_of_lineServed {level : HitLevel} {line : Line} (h : lineServed s k p = .ok (level, line)) :
    ∃ c, cacheReadWord s p k = .ok c ∧ c.level = level ∧ c.data = line.get (wordSelect p) := by
  have hpos : ¬ p.toNat % 4 ≠ 0 := not_not.2 halign
  obtain ⟨w, h1, rfl, rfl⟩ | ⟨w, h1, h2, rfl, rfl⟩ | ⟨h1, h2, hin, rfl, rfl⟩ := lineServed_cases h
  · simp only [cacheReadWord, if_neg hpos, cacheLookup, h1]
    exact ⟨_, rfl, rfl, rfl⟩
  · simp only [cacheReadWord, if_neg hpos, cacheLookup, h1, h2]
    exact ⟨_, rfl, rfl, rfl⟩
  · simp only [cacheReadWord, if_neg hpos, cacheLookup, h1, h2, readMiss, if_neg (Nat.not_lt.2 hin)]
    exact ⟨_, rfl, rfl, rfl⟩

/-- A word read that no line serves (R203). -/
theorem cacheReadWord_of_error {e : ErrorKind} (h : lineServed s k p = .error e) :
    cacheReadWord s p k = .error .outOfBounds := by
  obtain ⟨-, h1, h2, hout⟩ := lineServed_error h
  simp only [cacheReadWord, if_neg (not_not.2 halign), cacheLookup, h1, h2, readMiss, if_pos hout]

/-- A word write inside memory that a line serves answers, with that line's level (R205 to R211). -/
theorem cacheWriteWord_of_lineServed {level : HitLevel} {line : Line} (hlen : p.toNat + 4 ≤ s.cfg.memLen)
    (h : lineServed s .data p = .ok (level, line)) (v : Word) :
    ∃ c, cacheWriteWord s p v = .ok c ∧ c.level = level ∧ c.data = 0 := by
  have hpos : ¬ p.toNat % 4 ≠ 0 := not_not.2 halign
  have hin' : ¬ s.cfg.memLen < p.toNat + 4 := Nat.not_lt.2 hlen
  obtain ⟨w, h1, rfl, rfl⟩ | ⟨w, h1, h2, rfl, rfl⟩ | ⟨h1, h2, hin, rfl, rfl⟩ := lineServed_cases h <;>
    rw [State.l1_data] at h1
  · simp only [cacheWriteWord, if_neg hpos, if_neg hin', cacheLookup, h1]
    exact ⟨_, rfl, rfl, rfl⟩
  · simp only [cacheWriteWord, if_neg hpos, if_neg hin', cacheLookup, h1, h2]
    exact ⟨_, rfl, rfl, rfl⟩
  · simp only [cacheWriteWord, if_neg hpos, if_neg hin', cacheLookup, h1, h2, writeMiss, if_neg (Nat.not_lt.2 hin)]
    exact ⟨_, rfl, rfl, rfl⟩

/-- A word write that no line serves (R211). -/
theorem cacheWriteWord_of_error {e : ErrorKind} (h : lineServed s .data p = .error e) (v : Word) :
    cacheWriteWord s p v = .error .outOfBounds := by
  obtain ⟨-, h1, h2, hout⟩ := lineServed_error h
  rw [State.l1_data] at h1
  simp only [cacheWriteWord, if_neg (not_not.2 halign), cacheLookup, h1, h2, writeMiss, if_pos hout, ite_self]

end

/-- A word read that answers is aligned, and a line served it (R200 to R203). -/
theorem lineServed_of_cacheReadWord {s : State} {k : AccessKind} {p : PAddr} {c : Served}
    (h : cacheReadWord s p k = .ok c) :
    p.toNat % 4 = 0 ∧ ∃ line, lineServed s k p = .ok (c.level, line) ∧ c.data = line.get (wordSelect p) := by
  have halign := (cacheReadWord_cases s p k c h).1
  refine ⟨halign, ?_⟩
  cases hserved : lineServed s k p with
  | error e =>
    rw [cacheReadWord_of_error halign hserved] at h
    cases h
  | ok x =>
    obtain ⟨level, line⟩ := x
    obtain ⟨c', hc', hlevel, hdata⟩ := cacheReadWord_of_lineServed halign hserved
    rw [h] at hc'
    cases hc'
    exact ⟨line, by rw [hlevel], hdata⟩

/-- A word write that answers is aligned and inside memory, and a line served it (R205 to R211). -/
theorem lineServed_of_cacheWriteWord {s : State} {p : PAddr} {v : Word} {c : Served} (h : cacheWriteWord s p v = .ok c) :
    p.toNat % 4 = 0 ∧ p.toNat + 4 ≤ s.cfg.memLen ∧ ∃ line, lineServed s .data p = .ok (c.level, line) := by
  obtain ⟨halign, hlen, -⟩ := cacheWriteWord_cases s p v c h
  refine ⟨halign, hlen, ?_⟩
  cases hserved : lineServed s .data p with
  | error e =>
    rw [cacheWriteWord_of_error halign hserved] at h
    cases h
  | ok x =>
    obtain ⟨level, line⟩ := x
    obtain ⟨c', hc', hlevel, -⟩ := cacheWriteWord_of_lineServed halign hlen hserved v
    rw [h] at hc'
    cases hc'
    exact ⟨line, by rw [hlevel]⟩

/-- A word write writes its word to memory and nothing else (R209, R211). -/
theorem cacheWriteWord_mem {s : State} (hm : Memory.wf s.mem) {p : PAddr} {v : Word} {c : Served}
    (h : cacheWriteWord s p v = .ok c) : c.state.mem = memWrite s.mem p.toNat v := by
  obtain ⟨halign, -, hcases⟩ := cacheWriteWord_cases s p v c h
  obtain ⟨w, -, rfl⟩ | ⟨w, -, -, rfl⟩ | ⟨-, -, -, line, rfl, rfl⟩ := hcases
  · rfl
  · exact (migrate_frame _ .data p w).2.2.2.1
  · refine (fillL1_frame _ .data p _).2.2.2.2.1.trans ?_
    rw [memWriteLine_put hm, lineBase_add_wordSelect, wordAligned_of_aligned halign]

/-! ### What the caches are left with -/

/-- The set of `p` aged as on a hit in way `w`, which then holds `e`. -/
def agedWith (g : Geometry) (c : CacheArray) (p : PAddr) (w : Nat) (e : CacheEntry) : CacheArray :=
  putSet g c p ((ageOnHit g.ways (cacheSet c (lineIndex g p)) w).set w e)

/-- The array after a hit in way `w` whose line becomes `line` (R192, R201, R207). -/
def hitArray (g : Geometry) (c : CacheArray) (p : PAddr) (w : Nat) (line : Line) : CacheArray :=
  agedWith g c p w { wayAt (cacheSet c (lineIndex g p)) w with age := 0, words := line }

/-- The array after a hit in way `w` that is then invalidated, its words being `line` (R199, R208). -/
def vacatedArray (g : Geometry) (c : CacheArray) (p : PAddr) (w : Nat) (line : Line) : CacheArray :=
  agedWith g c p w { wayAt (cacheSet c (lineIndex g p)) w with valid := false, age := 0, words := line }

/-- What an access leaves in the L1 array of its kind and in `L2` when its line ends as `line`, and leaves `left` behind in
the `L2` way it came from (R197 to R211). -/
def movesLine (s : State) (k : AccessKind) (p : PAddr) (line left : Line) (t : State) : Prop :=
  (∀ w, cacheProbe (l1Geometry s.cfg) (s.l1 k) p = some w →
      t.l1 k = hitArray (l1Geometry s.cfg) (s.l1 k) p w line ∧ t.l2 = s.l2) ∧
    (∀ w, cacheProbe (l1Geometry s.cfg) (s.l1 k) p = none → cacheProbe (l2Geometry s.cfg) s.l2 p = some w →
      t.l1 k = (cacheInstall (l1Geometry s.cfg) (s.l1 k) p line).1 ∧
        t.l2 = takeVictim (l2Geometry s.cfg) (vacatedArray (l2Geometry s.cfg) s.l2 p w left)
          (installVictimOf (l1Geometry s.cfg) (s.l1 k) p)) ∧
    (cacheProbe (l1Geometry s.cfg) (s.l1 k) p = none → cacheProbe (l2Geometry s.cfg) s.l2 p = none →
      t.l1 k = (cacheInstall (l1Geometry s.cfg) (s.l1 k) p line).1 ∧
        t.l2 = takeVictim (l2Geometry s.cfg) s.l2 (installVictimOf (l1Geometry s.cfg) (s.l1 k) p))

theorem cacheInstall_snd (g : Geometry) (c : CacheArray) (p : PAddr) (line : Line) :
    (cacheInstall g c p line).2 = installVictimOf g c p := by rw [cacheInstall_eq]

/-- A set replaced twice. -/
theorem putSet_putSet (g : Geometry) (c : CacheArray) (p : PAddr) (set set' : List CacheEntry) :
    putSet g (putSet g c p set) p set' = putSet g c p set' := List.set_set ..

/-- A hit that leaves the line as it is only ages the set. -/
theorem hitArray_lineHeld (g : Geometry) (c : CacheArray) (p : PAddr) (w : Nat) :
    hitArray g c p w (lineHeld g c p w) = putSet g c p (ageOnHit g.ways (cacheSet c (lineIndex g p)) w) := by
  unfold hitArray agedWith ageOnHit
  rw [List.set_set]
  rfl

/-- The first matching way is the lowest one that holds a line (R191, D15). -/
theorem cacheProbe_eq_some_iff (g : Geometry) (c : CacheArray) (p : PAddr) (w : Nat) :
    cacheProbe g c p = some w ↔ (∃ l, holdsLine g c p w l) ∧ ∀ u < w, ∀ l, ¬ holdsLine g c p u l := by
  constructor
  · intro h
    refine ⟨⟨_, holdsLine_of_cacheProbe h⟩, fun u hu l ⟨e, he, hvalid, htag, _⟩ => ?_⟩
    obtain ⟨hlt, -, hbelow⟩ := (cacheProbe_eq_some g c p w).1 h
    obtain ⟨hu', rfl⟩ := List.getElem?_eq_some_iff.1 he
    exact hbelow u hu (by simp [CacheEntry.matchesTag, hvalid, htag])
  · rintro ⟨⟨l, e, he, hvalid, htag, -⟩, hbelow⟩
    refine (firstMatch.cacheProbe_eq (e := e) ⟨he, hvalid, htag, fun u f hu hf hfvalid hftag => ?_⟩).1
    exact hbelow u hu f.words ⟨f, hf, hfvalid, hftag, rfl⟩

/-- The set of `p` after ageing. -/
theorem cacheSet_agedWith {g : Geometry} {c : CacheArray} (hwf : cacheArrayWf g c) (p : PAddr) (w : Nat) (e : CacheEntry) :
    cacheSet (agedWith g c p w e) (lineIndex g p) = (ageOnHit g.ways (cacheSet c (lineIndex g p)) w).set w e :=
  cacheSet_putSet_self _ _ _ _ (lineIndex_lt_length hwf p)

/-- Overwriting the way hit once more. -/
theorem putSet_agedWith {g : Geometry} {c : CacheArray} (hwf : cacheArrayWf g c) (p : PAddr) (w : Nat)
    (e e' : CacheEntry) :
    putSet g (agedWith g c p w e) p ((cacheSet (agedWith g c p w e) (lineIndex g p)).set w e') = agedWith g c p w e' := by
  rw [cacheSet_agedWith hwf, List.set_set, agedWith, putSet_putSet, agedWith]

section
variable {g : Geometry} {c : CacheArray} {p : PAddr} {w : Nat} (hwf : cacheArrayWf g c) (hw : cacheProbe g c p = some w)
include hwf hw

/-- The way hit, after ageing. -/
theorem getElem?_agedWith (e : CacheEntry) : (cacheSet (agedWith g c p w e) (lineIndex g p))[w]? = some e := by
  rw [cacheSet_agedWith hwf, List.getElem?_set_self (by rw [ageOnHit_length]; exact lt_length_of_cacheProbe hw)]

theorem wayAt_agedWith (e : CacheEntry) : wayAt (cacheSet (agedWith g c p w e) (lineIndex g p)) w = e :=
  wayAt_of_getElem? (getElem?_agedWith hwf hw e)

theorem lineHeld_hitArray (line : Line) : lineHeld g (hitArray g c p w line) p w = line := by
  rw [lineHeld, hitArray, wayAt_agedWith hwf hw]

/-- A store into the way hit (R207, R208). -/
theorem storeWord_hitArray (line : Line) (v : Word) :
    storeWord g (hitArray g c p w line) p w v = hitArray g c p w (line.put (wordSelect p) v) := by
  rw [storeWord, lineHeld_hitArray hwf hw, hitArray, wayAt_agedWith hwf hw, putSet_agedWith hwf]
  rfl

/-- Invalidating the way hit (R199). -/
theorem invalidateWay_hitArray (line : Line) :
    invalidateWay g (hitArray g c p w line) p w = vacatedArray g c p w line := by
  rw [invalidateWay, hitArray, wayAt_agedWith hwf hw, putSet_agedWith hwf]
  rfl

/-- A second hit in a way of age 0 ages nothing (R192). -/
theorem agedWith_agedWith {e : CacheEntry} (hage : e.age = 0) (e' : CacheEntry) :
    agedWith g (agedWith g c p w e) p w e' = agedWith g c p w e' := by
  rw [agedWith, ageOnHit_of_age_eq_zero (getElem?_agedWith hwf hw e) hage, putSet_agedWith hwf]

/-- A second hit in the same way only changes its line. -/
theorem hitArray_hitArray (line line' : Line) :
    hitArray g (hitArray g c p w line) p w line' = hitArray g c p w line' := by
  rw [hitArray, hitArray, wayAt_agedWith hwf hw, agedWith_agedWith hwf hw rfl]
  rfl

/-- After a hit the same way hits again. -/
theorem cacheProbe_hitArray (line : Line) : cacheProbe g (hitArray g c p w line) p = some w := by
  obtain ⟨e, he, hvalid, htag, -⟩ := exists_entry_of_cacheProbe hw
  refine (cacheProbe_eq_some_iff g _ p w).2 ⟨⟨line, _, getElem?_agedWith hwf hw _, ?_, ?_, rfl⟩, fun u hu l hl => ?_⟩
  · rw [wayAt_of_getElem? he]
    exact hvalid
  · rw [wayAt_of_getElem? he]
    exact htag
  · rw [holdsLine_iff, hitArray, cacheSet_agedWith hwf, setHolds_set, setHolds_ageOnHit he] at hl
    obtain ⟨rfl, -⟩ | ⟨-, hl⟩ := hl
    · exact Nat.lt_irrefl u hu
    · exact ((cacheProbe_eq_some_iff g c p w).1 hw).2 u hu l hl

end

section
variable {g : Geometry} {c : CacheArray} {p : PAddr} (hg : geometryWf g) (hwf : cacheArrayWf g c)
include hg hwf

/-- The way that an install took (R194, R195). -/
theorem getElem?_cacheInstall (line : Line) :
    (cacheSet (cacheInstall g c p line).1 (lineIndex g p))[installWay (cacheSet c (lineIndex g p))]? =
      some (CacheEntry.installed (cacheTag g p) line) := by
  rw [cacheInstall_eq, cacheSet_putSet_self _ _ _ _ (lineIndex_lt_length hwf p)]
  exact installSet_getElem?_self (cacheSet_ne_nil hg hwf p) ..

/-- A line installed where none was is hit in the way it took. -/
theorem cacheProbe_cacheInstall (hmiss : cacheProbe g c p = none) (line : Line) :
    cacheProbe g (cacheInstall g c p line).1 p = some (installWay (cacheSet c (lineIndex g p))) := by
  refine (cacheProbe_eq_some_iff g _ p _).2 ⟨⟨line, _, getElem?_cacheInstall hg hwf line, rfl, rfl, rfl⟩,
    fun u hu l hl => ?_⟩
  obtain ⟨-, rfl, -⟩ | ⟨hl, -⟩ := (holdsLine_cacheInstall hg hwf p line p u l).1 hl
  · exact Nat.lt_irrefl _ hu
  · exact not_holdsLine_of_cacheProbe hmiss u l hl

/-- A hit on the line just installed only changes it: it has age 0, so nothing ages (R192). -/
theorem hitArray_cacheInstall (line line' : Line) :
    hitArray g (cacheInstall g c p line).1 p (installWay (cacheSet c (lineIndex g p))) line' =
      (cacheInstall g c p line').1 := by
  have hway := getElem?_cacheInstall (p := p) hg hwf line
  have hset : ∀ l, (cacheInstall g c p l).1 =
      putSet g c p (installSet g.ways (cacheSet c (lineIndex g p)) (cacheTag g p) l) := fun l => by rw [cacheInstall_eq]
  rw [hitArray, agedWith, ageOnHit_of_age_eq_zero hway rfl, wayAt_of_getElem? hway, hset, hset,
    cacheSet_putSet_self _ _ _ _ (lineIndex_lt_length hwf p), putSet_putSet]
  unfold installSet coldFill evictFill
  split <;> rw [List.set_set] <;> rfl

end

/-! ### Where the line is after the access -/

/-- `fill_l1` in a state with the L1 array of `s` (R198). -/
theorem fillL1_caches {s t : State} {k : AccessKind} {p : PAddr} (hcfg : t.cfg = s.cfg) (hl1 : t.l1 k = s.l1 k) (line : Line) :
    (fillL1 t k p line).l1 k = (cacheInstall (l1Geometry s.cfg) (s.l1 k) p line).1 ∧
      (fillL1 t k p line).l2 = takeVictim (l2Geometry s.cfg) t.l2 (installVictimOf (l1Geometry s.cfg) (s.l1 k) p) := by
  rw [(fillL1_frame t k p line).1, fillL1_l2, cacheInstall_snd, hcfg, hl1]
  exact ⟨rfl, rfl⟩

section
variable {s : State} (hwf : s.wf) {k : AccessKind} {p : PAddr}
include hwf

/-- Where an access leaves its line, L1 hits it, in a way whose next hit ages nothing. -/
theorem lineServed_of_movesLine {t : State} {line left : Line} (hcfg : t.cfg = s.cfg) (h : movesLine s k p line left t) :
    lineServed t k p = .ok (.l1, line) := by
  have hg := (wf_geometry hwf).1
  have hc := wf_l1 hwf k
  obtain ⟨hl1, hl2, hmem⟩ := h
  have hinstall : cacheProbe (l1Geometry s.cfg) (s.l1 k) p = none →
      t.l1 k = (cacheInstall (l1Geometry s.cfg) (s.l1 k) p line).1 → lineServed t k p = .ok (.l1, line) := by
    intro hmiss ht
    have hprobe := cacheProbe_cacheInstall hg hc hmiss line
    rw [← ht, ← hcfg] at hprobe
    rw [lineServed_of_l1 hprobe, ht, hcfg, lineHeld, wayAt_of_getElem? (getElem?_cacheInstall hg hc line)]
    rfl
  cases h1 : cacheProbe (l1Geometry s.cfg) (s.l1 k) p with
  | some w =>
    obtain ⟨ht, -⟩ := hl1 w h1
    have hprobe := cacheProbe_hitArray hc h1 line
    rw [← ht, ← hcfg] at hprobe
    rw [lineServed_of_l1 hprobe, ht, hcfg, lineHeld_hitArray hc h1]
  | none =>
    cases h2 : cacheProbe (l2Geometry s.cfg) s.l2 p with
    | some w => exact hinstall h1 (hl2 w h1 h2).1
    | none => exact hinstall h1 (hmem h1 h2).1

/-- An access that hits the line where another access left it moves it as one access would. -/
theorem movesLine_trans {t u : State} {line line' left left' : Line} (hcfg : t.cfg = s.cfg)
    (h : movesLine s k p line left t) (h' : movesLine t k p line' left' u) : movesLine s k p line' left u := by
  have hg := (wf_geometry hwf).1
  have hc := wf_l1 hwf k
  obtain ⟨hl1, hl2, hmem⟩ := h
  have hinstall : cacheProbe (l1Geometry s.cfg) (s.l1 k) p = none →
      t.l1 k = (cacheInstall (l1Geometry s.cfg) (s.l1 k) p line).1 →
      u.l1 k = (cacheInstall (l1Geometry s.cfg) (s.l1 k) p line').1 ∧ u.l2 = t.l2 := by
    intro hmiss ht
    have hprobe := cacheProbe_cacheInstall hg hc hmiss line
    rw [← ht, ← hcfg] at hprobe
    obtain ⟨hu, hul2⟩ := h'.1 _ hprobe
    rw [ht, hcfg, hitArray_cacheInstall hg hc] at hu
    exact ⟨hu, hul2⟩
  refine ⟨fun w h1 => ?_, fun w h1 h2 => ?_, fun h1 h2 => ?_⟩
  · obtain ⟨ht, htl2⟩ := hl1 w h1
    have hprobe := cacheProbe_hitArray hc h1 line
    rw [← ht, ← hcfg] at hprobe
    obtain ⟨hu, hul2⟩ := h'.1 w hprobe
    rw [ht, hcfg, hitArray_hitArray hc h1] at hu
    exact ⟨hu, hul2.trans htl2⟩
  · obtain ⟨ht, htl2⟩ := hl2 w h1 h2
    exact ⟨(hinstall h1 ht).1, (hinstall h1 ht).2.trans htl2⟩
  · obtain ⟨ht, htl2⟩ := hmem h1 h2
    exact ⟨(hinstall h1 ht).1, (hinstall h1 ht).2.trans htl2⟩

/-- `migrate` of a line just hit in `L2` (R199). -/
theorem migrate_caches {w : Nat} (h2 : cacheProbe (l2Geometry s.cfg) s.l2 p = some w) {t : State} (hcfg : t.cfg = s.cfg)
    (hl1 : t.l1 k = s.l1 k) {line : Line} (hl2 : t.l2 = hitArray (l2Geometry s.cfg) s.l2 p w line) :
    (migrate t k p w).l1 k = (cacheInstall (l1Geometry s.cfg) (s.l1 k) p line).1 ∧
      (migrate t k p w).l2 = takeVictim (l2Geometry s.cfg) (vacatedArray (l2Geometry s.cfg) s.l2 p w line)
        (installVictimOf (l1Geometry s.cfg) (s.l1 k) p) := by
  have hc := wf_l2 hwf
  rw [migrate, hcfg, hl2, lineHeld_hitArray hc h2, invalidateWay_hitArray hc h2]
  refine fillL1_caches ?_ ?_ line
  · rfl
  · rw [← hl1]
    cases k <;> rfl

/-- What a word read leaves (R201 to R203). -/
theorem movesLine_cacheReadWord {c : Served} (h : cacheReadWord s p k = .ok c) {level : HitLevel} {line : Line}
    (hserved : lineServed s k p = .ok (level, line)) : movesLine s k p line line c.state := by
  obtain ⟨w, h1, rfl⟩ | ⟨w, h1, h2, rfl⟩ | ⟨h1, h2, hin, rfl⟩ := (cacheReadWord_cases s p k c h).2
  · rw [lineServed_of_l1 h1] at hserved
    cases hserved
    refine ⟨fun w' h1' => ?_, fun w' h1' => ?_, fun h1' => ?_⟩ <;> rw [h1] at h1' <;> cases h1'
    rw [State.setL1_l1, State.setL1_l2, hitArray_lineHeld]
    exact ⟨rfl, rfl⟩
  · rw [lineServed_of_l2 h1 h2] at hserved
    cases hserved
    refine ⟨fun w' h1' => ?_, fun w' _ h2' => ?_, fun _ h2' => ?_⟩
    · rw [h1] at h1'
      cases h1'
    · rw [h2] at h2'
      cases h2'
      have hl1 : ∀ c, State.l1 { s with l2 := c } k = s.l1 k := fun c => by cases k <;> rfl
      refine migrate_caches hwf h2 ?_ ?_ ?_
      · rfl
      · exact hl1 _
      · rw [hitArray_lineHeld]
    · rw [h2] at h2'
      cases h2'
  · rw [lineServed_of_mem h1 h2 hin] at hserved
    cases hserved
    refine ⟨fun w' h1' => ?_, fun w' _ h2' => ?_, fun _ _ => ?_⟩
    · rw [h1] at h1'
      cases h1'
    · rw [h2] at h2'
      cases h2'
    · exact fillL1_caches (s := s) (t := s) rfl rfl _

/-- What a word write leaves (R205 to R211). -/
theorem movesLine_cacheWriteWord {v : Word} {c : Served} (h : cacheWriteWord s p v = .ok c) {level : HitLevel}
    {line : Line} (hserved : lineServed s .data p = .ok (level, line)) :
    movesLine s .data p (line.put (wordSelect p) v) (line.put (wordSelect p) v) c.state := by
  obtain ⟨w, h1, rfl⟩ | ⟨w, h1, h2, rfl⟩ | ⟨h1, h2, hin, new, rfl, rfl⟩ := (cacheWriteWord_cases s p v c h).2.2 <;>
    rw [← State.l1_data] at h1
  · rw [lineServed_of_l1 h1] at hserved
    cases hserved
    refine ⟨fun w' h1' => ?_, fun w' h1' => ?_, fun h1' => ?_⟩ <;> rw [h1] at h1' <;> cases h1'
    refine ⟨?_, rfl⟩
    rw [← storeWord_hitArray (wf_l1 hwf .data) h1, hitArray_lineHeld]
    rfl
  · rw [lineServed_of_l2 h1 h2] at hserved
    cases hserved
    refine ⟨fun w' h1' => ?_, fun w' _ h2' => ?_, fun _ h2' => ?_⟩
    · rw [h1] at h1'
      cases h1'
    · rw [h2] at h2'
      cases h2'
      refine migrate_caches hwf h2 ?_ ?_ ?_
      · rfl
      · rfl
      · rw [← storeWord_hitArray (wf_l2 hwf) h2, hitArray_lineHeld]
    · rw [h2] at h2'
      cases h2'
  · rw [lineServed_of_mem h1 h2 hin] at hserved
    cases hserved
    refine ⟨fun w' h1' => ?_, fun w' _ h2' => ?_, fun _ _ => ?_⟩
    · rw [h1] at h1'
      cases h1'
    · rw [h2] at h2'
      cases h2'
    · refine fillL1_caches (s := s) ?_ ?_ _ <;> rfl

end

@[simp] theorem movesLine_wordAligned (s : State) (k : AccessKind) (p : PAddr) (line left : Line) (t : State) :
    movesLine s k (wordAligned p) line left t ↔ movesLine s k p line left t := by
  simp only [movesLine, hitArray, vacatedArray, agedWith, installVictimOf, cacheProbe_wordAligned, putSet_wordAligned,
    cacheInstall_wordAligned, lineIndex_wordAligned]

/-- What a cache stage that answers leaves, and the line and level that served it (R201 to R219). A byte write reads the
line into L1, where its word write hits it. -/
theorem cacheStage_movesLine {s : State} (hwf : s.wf) {i : Instr} {k : AccessKind} {vaddr : VAddr} {p : PAddr} {c : Served}
    (hi : accessOf i = some (k, vaddr)) (h : cacheStage i s p = .ok c) :
    ∃ line, lineServed s k p = .ok (c.level, line) ∧
      movesLine s k p (storedLine i p line) (lineLeftBehind i p line) c.state := by
  have hreadWord : ∀ {q d}, cacheReadWord s q k = .ok d →
      ∃ line, lineServed s k q = .ok (d.level, line) ∧ movesLine s k q line line d.state := by
    intro q d hd
    obtain ⟨-, line, hline, -⟩ := lineServed_of_cacheReadWord hd
    exact ⟨line, hline, movesLine_cacheReadWord hwf hd hline⟩
  have hreadByte : cacheReadByte s p k = .ok c →
      ∃ line, lineServed s k p = .ok (c.level, line) ∧ movesLine s k p line line c.state := by
    intro hb
    obtain ⟨r, hr, rfl⟩ := (cacheReadByte_eq_ok s p k c).1 hb
    simpa using hreadWord hr
  cases i <;> cases hi
  case rdbI | rdbD => exact hreadByte h
  case rdwI | rdwD => exact hreadWord h
  case wrwD =>
    obtain ⟨-, -, line, hline⟩ := lineServed_of_cacheWriteWord h
    exact ⟨line, hline, movesLine_cacheWriteWord hwf h hline⟩
  case wrbD =>
    obtain ⟨r, w, hr, hw, rfl⟩ := (cacheWriteByte_eq_ok s p _ c).1 h
    obtain ⟨-, line, hline, hdata⟩ := lineServed_of_cacheReadWord hr
    have hread := movesLine_cacheReadWord hwf hr hline
    have hcfg := (cacheReadWord_sameButCaches hr).1
    have hwrite := movesLine_cacheWriteWord (wf_cacheReadWord hwf hr) hw (lineServed_of_movesLine hwf hcfg hread)
    have hboth := movesLine_trans hwf hcfg hread hwrite
    rw [lineServed_wordAligned] at hline
    rw [movesLine_wordAligned, hdata, wordSelect_wordAligned] at hboth
    exact ⟨line, hline, hboth⟩

/-- The L1 array of the other kind plays no part in a cache stage (R200, R205). -/
theorem cacheStage_l1_other {i : Instr} {k : AccessKind} {vaddr : VAddr} {s : State} {p : PAddr} {c : Served}
    (hi : accessOf i = some (k, vaddr)) (h : cacheStage i s p = .ok c) : c.state.l1 k.other = s.l1 k.other := by
  refine cacheStage_preserves (P := fun u => u.l1 k.other = s.l1 k.other) hi
    (fun u q d hu _ hd => (cacheReadWord_frame u q k d hd).2.2.1.trans hu) (fun u q v d hu hk _ _ hd => ?_) rfl h
  subst hk
  exact (cacheWriteWord_frame u q v d hd).2.1.trans hu

end Sys2Proof.Machine

/-! PROOFS. What an access request leaves in the caches (spec/44_cache.md sections 2 to 7): the request ends in an error with
caches and memory as they were, or its cache stage moves one line. -/

namespace Sys2Proof.Machine

/-! ### How an access request ends -/

/-- An access whose cache stage answers (R239). -/
theorem exec_of_cacheStage {i : Instr} {k : AccessKind} {vaddr : VAddr} {s : State} {a : VirtualAddress} {r : Translated}
    {c : Served} (hi : accessOf i = some (k, vaddr)) (hw : wdataAdmitted i = true) (ha : decomposeVirtual vaddr = .ok a)
    (hr : tlbService s a k = .ok r) (hc : cacheStage i r.state (composePhysical r.phys) = .ok c) :
    exec i s = .next (c.state.respond (Response.access r.hit c.level c.data)) := by
  simp only [exec_of_access hi, hw, if_true, access, ha, hr, hc]

/-- An access whose cache stage raises (R239, R257). -/
theorem exec_of_cacheStage_error {i : Instr} {k : AccessKind} {vaddr : VAddr} {s : State} {a : VirtualAddress}
    {r : Translated} {e : ErrorKind} (hi : accessOf i = some (k, vaddr)) (hw : wdataAdmitted i = true)
    (ha : decomposeVirtual vaddr = .ok a) (hr : tlbService s a k = .ok r)
    (hc : cacheStage i r.state (composePhysical r.phys) = .error e) : exec i s = .next (r.state.raise e) := by
  simp only [exec_of_access hi, hw, if_true, access, ha, hr, hc]

/-- How an access request ends: an error, with memory and caches as they were, or the answer of its cache stage. -/
theorem exec_access_cases {i : Instr} {k : AccessKind} {vaddr : VAddr} {s t : State} (hi : accessOf i = some (k, vaddr))
    (h : exec i s = .next t) :
    (∃ u e, sameButTlb s u ∧ t = u.raise e) ∨
      ∃ a r c, decomposeVirtual vaddr = .ok a ∧ tlbService s a k = .ok r ∧
        cacheStage i r.state (composePhysical r.phys) = .ok c ∧
        t = c.state.respond (Response.access r.hit c.level c.data) := by
  rw [exec_of_access hi] at h
  have hself : sameButTlb s s := ⟨rfl, rfl, rfl, rfl, rfl, rfl, rfl⟩
  split at h <;> cases h
  · obtain ⟨e, -, ht⟩ | ⟨a, e, -, -, ht⟩ | ⟨a, r, e, -, hr, -, ht⟩ | ⟨a, r, c, ha, hr, hc, ht⟩ :=
      access_cases s k vaddr (cacheStage i)
    · exact .inl ⟨s, e, hself, ht⟩
    · exact .inl ⟨s, e, hself, ht⟩
    · exact .inl ⟨r.state, e, tlbService_sameButTlb s a k r hr, ht⟩
    · exact .inr ⟨a, r, c, ha, hr, hc, ht⟩
  · exact .inl ⟨s, _, hself, rfl⟩

/-- An access request that answers `OK` is its cache stage's answer. -/
theorem exec_access_ok {i : Instr} {k : AccessKind} {vaddr : VAddr} {s t : State} (hi : accessOf i = some (k, vaddr))
    (h : exec i s = .next t) (hok : t.status = some .ok) :
    ∃ a r c, decomposeVirtual vaddr = .ok a ∧ tlbService s a k = .ok r ∧
      cacheStage i r.state (composePhysical r.phys) = .ok c ∧
      t = c.state.respond (Response.access r.hit c.level c.data) := by
  obtain ⟨u, e, -, rfl⟩ | hanswer := exec_access_cases hi h
  · cases hok
  · exact hanswer

/-! ### The movement of lines, seen from the state before the request -/

/-- The movement of a line does not depend on TLB state (R204). -/
theorem movesLine_of_sameButTlb {s t : State} (h : sameButTlb s t) (k : AccessKind) (p : PAddr) (line left : Line)
    (u : State) : movesLine t k p line left u ↔ movesLine s k p line left u := by
  obtain ⟨hcfg, -, -, -, h2, -⟩ := id h
  simp only [movesLine, hcfg, h2, l1_of_sameButTlb h]

/-- What an access request that answers `OK` does to the caches: which line serves it, and where that line moves. -/
theorem exec_movesLine {i : Instr} {k : AccessKind} {vaddr : VAddr} {s t : State} (hwf : s.wf)
    (hi : accessOf i = some (k, vaddr)) (h : exec i s = .next t) (hok : t.status = some .ok) :
    ∃ a r c line, decomposeVirtual vaddr = .ok a ∧ tlbService s a k = .ok r ∧
      lineServed s k (composePhysical r.phys) = .ok (c.level, line) ∧
      cacheStage i r.state (composePhysical r.phys) = .ok c ∧
      t = c.state.respond (Response.access r.hit c.level c.data) ∧
      movesLine s k (composePhysical r.phys) (storedLine i (composePhysical r.phys) line)
        (lineLeftBehind i (composePhysical r.phys) line) t := by
  obtain ⟨a, r, c, ha, hr, hc, rfl⟩ := exec_access_ok hi h hok
  have hsame := tlbService_sameButTlb s a k r hr
  obtain ⟨line, hline, hmoves⟩ := cacheStage_movesLine (wf_tlbService hwf hr) hi hc
  rw [lineServed_of_sameButTlb hsame] at hline
  rw [movesLine_of_sameButTlb hsame] at hmoves
  refine ⟨a, r, c, line, ha, hr, hline, hc, rfl, ?_⟩
  unfold movesLine at *
  rwa [State.respond_l1, State.respond_l2]

/-- The service answers the one translation of the address. -/
theorem phys_of_translation {s : State} {k : AccessKind} {a a' : VirtualAddress} {vaddr : VAddr} {p : PhysicalAddress}
    {r : Translated} (ha : decomposeVirtual vaddr = .ok a) (hp : translation s k a = .ok p)
    (ha' : decomposeVirtual vaddr = .ok a') (hr : tlbService s a' k = .ok r) : a' = a ∧ r.phys = p := by
  rw [ha] at ha'
  cases ha'
  have htrans := translation_of_tlbService hr
  rw [hp] at htrans
  exact ⟨rfl, (Except.ok.inj htrans).symm⟩

/-- The line held by the first matching way. -/
theorem firstMatch.lineHeld_eq {g : Geometry} {c : CacheArray} {p : PAddr} {w : Nat} {e : CacheEntry}
    (h : firstMatch g c p w e) : lineHeld g c p w = e.words := by rw [lineHeld, h.cacheProbe_eq.2]

/-- Settles O60: the movement of the line that the cache stage leaves, case by case. -/
theorem accessMovesTheLine : Obligations.AccessMovesTheLine := by
  intro i k vaddr a p s t hwf hi ha hp h hok
  obtain ⟨a', r, c, line, ha', hr, hline, -, -, hl1, hl2, hmem⟩ := exec_movesLine hwf hi h hok
  obtain ⟨rfl, rfl⟩ := phys_of_translation ha hp ha' hr
  dsimp only
  refine ⟨fun w e hfirst => ?_, fun w e hno hfirst => ?_, fun hno1 hno2 => ?_⟩
  · obtain ⟨h1, hway⟩ := hfirst.cacheProbe_eq
    have hserved := lineServed_of_l1 h1
    rw [hfirst.lineHeld_eq] at hserved
    rw [hserved] at hline
    obtain ⟨-, rfl⟩ := Prod.mk.inj (Except.ok.inj hline)
    obtain ⟨ht, htl2⟩ := hl1 w h1
    rw [hitArray, hway] at ht
    exact ⟨hserved, ht, htl2⟩
  · have h1 := (cacheProbe_eq_none ..).2 hno
    obtain ⟨h2, hway⟩ := hfirst.cacheProbe_eq
    have hserved := lineServed_of_l2 h1 h2
    rw [hfirst.lineHeld_eq] at hserved
    rw [hserved] at hline
    obtain ⟨-, rfl⟩ := Prod.mk.inj (Except.ok.inj hline)
    obtain ⟨ht, htl2⟩ := hl2 w h1 h2
    rw [vacatedArray, hway] at htl2
    rw [cacheInstall_snd]
    exact ⟨hserved, ht, htl2⟩
  · have h1 := (cacheProbe_eq_none ..).2 hno1
    have h2 := (cacheProbe_eq_none ..).2 hno2
    obtain ⟨w, h1', -⟩ | ⟨w, -, h2', -⟩ | ⟨-, -, hin, -, rfl⟩ := lineServed_cases hline
    · rw [h1] at h1'
      cases h1'
    · rw [h2] at h2'
      cases h2'
    · rw [cacheInstall_snd]
      exact ⟨lineServed_of_mem h1 h2 hin, hmem h1 h2⟩

/-- Settles O39: the line is served by L1 once the access has moved it. -/
theorem accessLeavesTheLineInL1 : Obligations.AccessLeavesTheLineInL1 := by
  intro i k vaddr s t hwf hi h hok
  obtain ⟨a, r, c, line, ha, hr, -, -, -, hmoves⟩ := exec_movesLine hwf hi h hok
  have hserved := lineServed_of_movesLine hwf (exec_cfg_requests h).1 hmoves
  obtain ⟨w, h1, -, hline⟩ | ⟨w, -, -, hlevel, -⟩ | ⟨-, -, -, hlevel, -⟩ := lineServed_cases hserved
  · exact ⟨a, r.phys, w, _, ha, translation_of_tlbService hr, holdsLine_of_cacheProbe h1⟩
  · cases hlevel
  · cases hlevel

/-! ### The frame -/

/-- Taking a victim changes the set of its address only. -/
theorem cacheSet_takeVictim_of_ne (g : Geometry) (c : CacheArray) {v : Option Victim} {j : Nat}
    (h : ∀ u, v = some u → j ≠ lineIndex g u.addr) : cacheSet (takeVictim g c v) j = cacheSet c j := by
  cases v with
  | none => rfl
  | some u => exact cacheSet_cacheInstall_of_ne _ _ _ _ _ (h u rfl)

/-- A moved line touches one set of its L1 array, and of `L2` its own set and the victim's (R197 to R211). -/
theorem cacheSet_of_movesLine {s t : State} {k : AccessKind} {p : PAddr} {line left : Line}
    (h : movesLine s k p line left t) :
    (∀ j, j ≠ lineIndex (l1Geometry s.cfg) p → cacheSet (t.l1 k) j = cacheSet (s.l1 k) j) ∧
      (∀ j, j ≠ lineIndex (l2Geometry s.cfg) p →
        (∀ v, installVictimOf (l1Geometry s.cfg) (s.l1 k) p = some v → j ≠ lineIndex (l2Geometry s.cfg) v.addr) →
        cacheSet t.l2 j = cacheSet s.l2 j) := by
  obtain ⟨hl1, hl2, hmem⟩ := h
  cases h1 : cacheProbe (l1Geometry s.cfg) (s.l1 k) p with
  | some w =>
    obtain ⟨ht, htl2⟩ := hl1 w h1
    rw [ht, htl2]
    exact ⟨fun j hj => cacheSet_putSet_of_ne _ _ _ _ _ hj, fun _ _ _ => rfl⟩
  | none =>
    cases h2 : cacheProbe (l2Geometry s.cfg) s.l2 p with
    | some w =>
      obtain ⟨ht, htl2⟩ := hl2 w h1 h2
      rw [ht, htl2]
      refine ⟨fun j hj => cacheSet_cacheInstall_of_ne _ _ _ _ _ hj, fun j hj hv => ?_⟩
      rw [cacheSet_takeVictim_of_ne _ _ hv]
      exact cacheSet_putSet_of_ne _ _ _ _ _ hj
    | none =>
      obtain ⟨ht, htl2⟩ := hmem h1 h2
      rw [ht, htl2]
      exact ⟨fun j hj => cacheSet_cacheInstall_of_ne _ _ _ _ _ hj, fun j _ hv => cacheSet_takeVictim_of_ne _ _ hv⟩

/-- Settles O44: an error leaves the caches as they were, an answer moves one line. -/
theorem accessTouchesOneSetPerLevel : Obligations.AccessTouchesOneSetPerLevel := by
  intro i k vaddr a p s t hwf hi ha hp h
  obtain ⟨u, e, hsame, rfl⟩ | ⟨a', r, c, ha', hr, hc, rfl⟩ := exec_access_cases hi h
  · have hl2 : u.l2 = s.l2 := hsame.2.2.2.2.1
    simp only [State.raise_l1, State.raise_l2, l1_of_sameButTlb hsame, hl2, implies_true, and_self]
  · obtain ⟨rfl, rfl⟩ := phys_of_translation ha hp ha' hr
    obtain ⟨a', r', c', line, ha', hr', -, -, -, hmoves⟩ := exec_movesLine hwf hi h rfl
    obtain ⟨rfl, hphys⟩ := phys_of_translation ha hp ha' hr'
    rw [hphys] at hmoves
    obtain ⟨hset1, hset2⟩ := cacheSet_of_movesLine hmoves
    have hother := cacheStage_l1_other hi hc
    rw [l1_of_sameButTlb (tlbService_sameButTlb s a' k r hr)] at hother
    refine ⟨by rw [State.respond_l1, hother], hset1, fun w h1 => (hmoves.1 w h1).2, fun j hj hv => hset2 j hj ?_⟩
    rwa [cacheInstall_snd] at hv

end Sys2Proof.Machine

/-! PROOFS. Bytes of words and the byte operations of the caches (spec/44_cache.md section 7), and where the bytes of an
aligned word lie. -/

namespace Sys2Proof.Machine

/-! ### Bytes of words -/

/-- The byte that a byte read selects (R54, R214). -/
theorem byteOf_eq (w : Word) (p : PAddr) : byteOf w p = (w.extractLsb' (8 * (p.toNat % 4)) 8).setWidth 32 := by
  have hmask : (0xFF#32).toNat = 2 ^ 8 - 1 := rfl
  refine BitVec.eq_of_toNat_eq ?_
  rw [byteOf, byteIndex, BitVec.toNat_and, BitVec.toNat_ushiftRight, hmask, Nat.and_two_pow_sub_one_eq_mod,
    BitVec.toNat_setWidth, BitVec.extractLsb'_toNat]
  omega

/-- The bytes of a merged word: the one addressed is new, the others are the old word's (R219). -/
theorem extractLsb'_mergeByte (old : Word) (b : Byte) (p : PAddr) {j : Nat} (hj : j < 4) :
    (mergeByte old b p).extractLsb' (8 * j) 8 = if j = p.toNat % 4 then b else old.extractLsb' (8 * j) 8 := by
  have hmask : ∀ i, (0xFF#32).getLsbD i = decide (i < 8) := by
    intro i
    rw [show 0xFF#32 = (BitVec.allOnes 8).setWidth 32 from rfl, BitVec.getLsbD_setWidth, BitVec.getLsbD_allOnes]
    by_cases hi : i < 8 <;> simp [hi]; omega
  have hp : p.toNat % 4 < 4 := Nat.mod_lt _ (by decide)
  ext i hi
  simp only [mergeByte, byteIndex, BitVec.getElem_extractLsb', BitVec.getLsbD_or, BitVec.getLsbD_and, BitVec.getLsbD_not,
    BitVec.getLsbD_shiftLeft, BitVec.getLsbD_setWidth, hmask]
  have hbit : 8 * j + i < 32 := by omega
  by_cases hjp : j = p.toNat % 4
  · have hge : ¬ 8 * j + i < 8 * j := by omega
    have hlt : i < 32 := by omega
    rw [if_pos hjp, ← hjp, Nat.add_sub_cancel_left]
    simp [hbit, hge, hi, hlt]
  · rw [if_neg hjp]
    obtain hbelow | habove : 8 * j + i < 8 * (p.toNat % 4) ∨ 8 ≤ 8 * j + i - 8 * (p.toNat % 4) := by omega
    · simp [hbit, hbelow]
    · simp [hbit, Nat.not_lt.2 habove, BitVec.getLsbD_of_ge b _ habove]

/-! ### Byte reads and byte writes -/

/-- A byte read that a line serves answers that line's byte (R214). -/
theorem cacheReadByte_of_lineServed {s : State} {k : AccessKind} {p : PAddr} {level : HitLevel} {line : Line}
    (h : lineServed s k p = .ok (level, line)) :
    ∃ c, cacheReadByte s p k = .ok c ∧ c.level = level ∧ c.data = byteOf (line.get (wordSelect p)) p := by
  rw [← lineServed_wordAligned] at h
  obtain ⟨c, hc, hlevel, hdata⟩ := cacheReadWord_of_lineServed (wordAligned_mod p) h
  rw [wordSelect_wordAligned] at hdata
  exact ⟨_, (cacheReadByte_eq_ok s p k _).2 ⟨c, hc, rfl⟩, hlevel, by rw [hdata]⟩

/-- A byte read that answers is served by a line (R214). -/
theorem lineServed_of_cacheReadByte {s : State} {k : AccessKind} {p : PAddr} {c : Served}
    (h : cacheReadByte s p k = .ok c) :
    ∃ line, lineServed s k p = .ok (c.level, line) ∧ c.data = byteOf (line.get (wordSelect p)) p := by
  obtain ⟨r, hr, rfl⟩ := (cacheReadByte_eq_ok s p k c).1 h
  obtain ⟨-, line, hline, hdata⟩ := lineServed_of_cacheReadWord hr
  rw [lineServed_wordAligned] at hline
  rw [wordSelect_wordAligned] at hdata
  exact ⟨line, hline, by rw [hdata]⟩

/-- A byte read writes no memory. -/
theorem cacheReadByte_mem {s : State} {k : AccessKind} {p : PAddr} {c : Served} (h : cacheReadByte s p k = .ok c) :
    c.state.mem = s.mem := by
  obtain ⟨r, hr, rfl⟩ := (cacheReadByte_eq_ok s p k c).1 h
  exact (cacheReadWord_frame _ _ _ _ hr).2.1

/-- A byte write to a line that is served, its word inside memory, answers with the line's level: the word write of the
second half hits L1 (R219). -/
theorem cacheWriteByte_of_lineServed {s : State} (hwf : s.wf) {p : PAddr} {level : HitLevel} {line : Line}
    (hlen : (wordAligned p).toNat + 4 ≤ s.cfg.memLen) (h : lineServed s .data p = .ok (level, line)) (b : Byte) :
    ∃ c, cacheWriteByte s p b = .ok c ∧ c.level = level ∧ c.data = 0 := by
  rw [← lineServed_wordAligned] at h
  obtain ⟨r, hr, hlevel, -⟩ := cacheReadWord_of_lineServed (wordAligned_mod p) h
  have hcfg := (cacheReadWord_sameButCaches hr).1
  have hhit := lineServed_of_movesLine hwf hcfg (movesLine_cacheReadWord hwf hr h)
  obtain ⟨w, hw, -⟩ := cacheWriteWord_of_lineServed (wordAligned_mod p) (by rwa [hcfg]) hhit (mergeByte r.data b p)
  exact ⟨_, (cacheWriteByte_eq_ok s p b _).2 ⟨r, w, hr, hw, rfl⟩, hlevel, rfl⟩

/-- A byte write merges its byte into the word that a read serves, and writes that word to memory (R219). -/
theorem cacheWriteByte_mem {s : State} (hm : Memory.wf s.mem) {p : PAddr} {b : Byte} {c : Served}
    (h : cacheWriteByte s p b = .ok c) :
    ∃ line, lineServed s .data p = .ok (c.level, line) ∧
      c.state.mem = memWrite s.mem (wordAligned p).toNat (mergeByte (line.get (wordSelect p)) b p) := by
  obtain ⟨r, w, hr, hw, rfl⟩ := (cacheWriteByte_eq_ok s p b c).1 h
  obtain ⟨-, line, hline, hdata⟩ := lineServed_of_cacheReadWord hr
  rw [lineServed_wordAligned] at hline
  rw [wordSelect_wordAligned] at hdata
  have hmem : r.state.mem = s.mem := (cacheReadWord_frame _ _ _ _ hr).2.1
  exact ⟨line, hline, by rw [cacheWriteWord_mem (hmem ▸ hm) hw, hmem, hdata]⟩

/-- A byte operation that no line serves (R203, R219). -/
theorem cacheByte_of_error {s : State} {k : AccessKind} {p : PAddr} {e : ErrorKind} (h : lineServed s k p = .error e) :
    cacheReadByte s p k = .error .outOfBounds ∧
      (k = .data → ∀ b, cacheWriteByte s p b = .error .outOfBounds) := by
  rw [← lineServed_wordAligned] at h
  have hread := cacheReadWord_of_error (wordAligned_mod p) h
  refine ⟨by rw [cacheReadByte, hread], ?_⟩
  rintro rfl b
  rw [cacheWriteByte, hread]

/-! ### Addresses within a word -/

/-- An address that slices is below 2^48, with these fields (R111). -/
theorem decomposeVirtual_eq_ok {v : VAddr} {a : VirtualAddress} (h : decomposeVirtual v = .ok a) :
    v.toNat < 2 ^ 48 ∧ a.top.toNat = v.toNat / 2 ^ 39 % 2 ^ 9 ∧ a.upper.toNat = v.toNat / 2 ^ 30 % 2 ^ 9 ∧
      a.middle.toNat = v.toNat / 2 ^ 21 % 2 ^ 9 ∧ a.lower.toNat = v.toNat / 2 ^ 12 % 2 ^ 9 ∧
      a.offset.toNat = v.toNat % 2 ^ 12 := by
  have hlt : v.toNat < 2 ^ 48 := by
    by_contra hle
    rw [decomposeVirtual_of_le (Nat.not_lt.1 hle)] at h
    cases h
  obtain ⟨b, hb, hfields⟩ := decomposeVirtual_of_lt v hlt
  rw [h] at hb
  cases hb
  exact ⟨hlt, hfields⟩

/-- A translation keeps the offset (R160). -/
theorem translation_offset {s : State} {k : AccessKind} {a : VirtualAddress} {p : PhysicalAddress}
    (h : translation s k a = .ok p) : p.offset = a.offset := by
  obtain ⟨r, hr, rfl, -⟩ := tlbService_of_translation h
  exact tlbService_offset hr

/-- Virtual and physical address have the same place in their word. -/
theorem composePhysical_mod_four {s : State} {k : AccessKind} {vaddr : VAddr} {a : VirtualAddress} {p : PhysicalAddress}
    (ha : decomposeVirtual vaddr = .ok a) (hp : translation s k a = .ok p) :
    (composePhysical p).toNat % 4 = vaddr.toNat % 4 := by
  obtain ⟨-, -, -, -, -, hoffset⟩ := decomposeVirtual_eq_ok ha
  rw [composePhysical_toNat, translation_offset hp, hoffset]
  omega

/-- The other bytes of an aligned word are on the page of the first (R111). -/
theorem decomposeVirtual_add {vaddr : VAddr} {a : VirtualAddress} (ha : decomposeVirtual vaddr = .ok a)
    (halign : vaddr.toNat % 4 = 0) {j : Nat} (hj : j < 4) :
    ∃ b, decomposeVirtual (vaddr + BitVec.ofNat 64 j) = .ok b ∧ virtualPageNumber b = virtualPageNumber a ∧
      b.offset.toNat = a.offset.toNat + j := by
  obtain ⟨hlt, htop, hupper, hmiddle, hlower, hoffset⟩ := decomposeVirtual_eq_ok ha
  have hsum : (vaddr + BitVec.ofNat 64 j).toNat = vaddr.toNat + j := by
    rw [BitVec.toNat_add, BitVec.toNat_ofNat]
    omega
  obtain ⟨b, hb, htop', hupper', hmiddle', hlower', hoffset'⟩ :=
    decomposeVirtual_of_lt (vaddr + BitVec.ofNat 64 j) (by omega)
  rw [hsum] at htop' hupper' hmiddle' hlower' hoffset'
  have hword : (vaddr.toNat + j) / 2 ^ 2 = vaddr.toNat / 2 ^ 2 := by omega
  have hfield : ∀ n, (vaddr.toNat + j) / 2 ^ (2 + n) % 2 ^ 9 = vaddr.toNat / 2 ^ (2 + n) % 2 ^ 9 := fun n => by
    rw [Nat.pow_add, ← Nat.div_div_eq_div_mul, ← Nat.div_div_eq_div_mul, hword]
  have htopEq : b.top = a.top := BitVec.eq_of_toNat_eq (htop'.trans ((hfield 37).trans htop.symm))
  have hupperEq : b.upper = a.upper := BitVec.eq_of_toNat_eq (hupper'.trans ((hfield 28).trans hupper.symm))
  have hmiddleEq : b.middle = a.middle := BitVec.eq_of_toNat_eq (hmiddle'.trans ((hfield 19).trans hmiddle.symm))
  have hlowerEq : b.lower = a.lower := BitVec.eq_of_toNat_eq (hlower'.trans ((hfield 10).trans hlower.symm))
  exact ⟨b, hb, by rw [virtualPageNumber, virtualPageNumber, htopEq, hupperEq, hmiddleEq, hlowerEq], by omega⟩

end Sys2Proof.Machine

/-! PROOFS. What the six access requests answer (spec/45_access.md sections 1 and 2): a request whose line is served completes
with it, one whose cache stage raises keeps what the TLB stage wrote; reads over coherent caches return memory, writes
reach memory, and a word written is read back. -/

namespace Sys2Proof.Machine

/-! ### Read requests of either kind -/

section
variable (k : AccessKind) (vaddr : VAddr)

@[simp] theorem accessOf_readWordRequest : accessOf (readWordRequest k vaddr) = some (k, vaddr) := by cases k <;> rfl

@[simp] theorem accessOf_readByteRequest : accessOf (readByteRequest k vaddr) = some (k, vaddr) := by cases k <;> rfl

@[simp] theorem wdataAdmitted_readWordRequest : wdataAdmitted (readWordRequest k vaddr) = true := by cases k <;> rfl

@[simp] theorem wdataAdmitted_readByteRequest : wdataAdmitted (readByteRequest k vaddr) = true := by cases k <;> rfl

@[simp] theorem cacheStage_readWordRequest (s : State) (p : PAddr) :
    cacheStage (readWordRequest k vaddr) s p = cacheReadWord s p k := by cases k <;> rfl

@[simp] theorem cacheStage_readByteRequest (s : State) (p : PAddr) :
    cacheStage (readByteRequest k vaddr) s p = cacheReadByte s p k := by cases k <;> rfl

end

/-- The one `wdata` check of a byte write (R230 check 4). -/
theorem wdataAdmitted_wrbD {v : Word} (h : v.toNat < 256) (vaddr : VAddr) : wdataAdmitted (.wrbD v vaddr) = true :=
  decide_eq_true h

/-! ### Completion -/

/-- An access whose translation exists and whose cache stage answers completes with that answer; below the cache stage only
the TLB stage wrote. `memOk` says what the stage does to memory. -/
theorem exec_completes {i : Instr} {k : AccessKind} {vaddr : VAddr} {s : State} {a : VirtualAddress} {p : PhysicalAddress}
    {level : HitLevel} {data : Word} {memOk : Memory → Prop} (hi : accessOf i = some (k, vaddr))
    (hw : wdataAdmitted i = true) (ha : decomposeVirtual vaddr = .ok a) (hp : translation s k a = .ok p)
    (hstage : ∀ r, tlbService s a k = .ok r → ∃ c, cacheStage i r.state (composePhysical p) = .ok c ∧
      c.level = level ∧ c.data = data ∧ memOk c.state.mem) :
    ∃ t r, exec i s = .next t ∧ tlbService s a k = .ok r ∧
      t.response = some (Response.access (tlbLookup s (virtualPageNumber a) k).1 level data) ∧ memOk t.mem ∧
      t.cfg = s.cfg ∧ t.requests = s.requests ∧ sameTlb r.state t ∧ t.l1 k.other = s.l1 k.other := by
  obtain ⟨r, hr, rfl, hhit⟩ := tlbService_of_translation hp
  obtain ⟨c, hc, rfl, rfl, hmem⟩ := hstage r hr
  have hexec := exec_of_cacheStage hi hw ha hr hc
  obtain ⟨-, htlb, -, -⟩ := cacheStage_sameButCaches hi hc
  have hother := cacheStage_l1_other hi hc
  rw [l1_of_sameButTlb (tlbService_sameButTlb s a k r hr)] at hother
  obtain ⟨hcfg, hreq⟩ := exec_cfg_requests hexec
  rw [hhit] at hexec
  exact ⟨_, r, hexec, hr, rfl, hmem, hcfg, hreq, htlb, by rw [State.respond_l1, hother]⟩

/-- The line that serves is the same after the TLB stage. -/
theorem lineServed_of_tlbService {s : State} {k j : AccessKind} {a : VirtualAddress} {r : Translated}
    (h : tlbService s a k = .ok r) (p : PAddr) : lineServed r.state j p = lineServed s j p :=
  lineServed_of_sameButTlb (tlbService_sameButTlb s a k r h) j p

theorem mem_of_tlbService {s : State} {k : AccessKind} {a : VirtualAddress} {r : Translated}
    (h : tlbService s a k = .ok r) : r.state.mem = s.mem := (tlbService_sameButTlb s a k r h).2.1

theorem cfg_of_tlbService {s : State} {k : AccessKind} {a : VirtualAddress} {r : Translated}
    (h : tlbService s a k = .ok r) : r.state.cfg = s.cfg := (tlbService_sameButTlb s a k r h).1

/-- Settles O45: the cache stage is a word read that the line serves. -/
theorem readWordCompletes : Obligations.ReadWordCompletes := by
  intro s k vaddr a p level line ha hp halign hserved
  have hpalign : (composePhysical p).toNat % 4 = 0 := by rw [composePhysical_mod_four ha hp, halign]
  obtain ⟨t, r, hexec, hr, hresp, hmem, hcfg, hreq, htlb, hother⟩ :=
    exec_completes (memOk := (· = s.mem)) (level := level) (data := line.get (wordSelect (composePhysical p)))
      (accessOf_readWordRequest k vaddr) (wdataAdmitted_readWordRequest k vaddr) ha hp fun r hr => by
        rw [← lineServed_of_tlbService hr] at hserved
        obtain ⟨c, hc, hlevel, hdata⟩ := cacheReadWord_of_lineServed hpalign hserved
        rw [cacheStage_readWordRequest]
        exact ⟨c, hc, hlevel, hdata, (cacheReadWord_frame _ _ _ _ hc).2.1.trans (mem_of_tlbService hr)⟩
  exact ⟨t, r, hexec, hr, hresp, hcfg, hmem, hreq, htlb, hother⟩

/-- Settles O46: the cache stage is a byte read that the line serves. -/
theorem readByteCompletes : Obligations.ReadByteCompletes := by
  intro s k vaddr a p level line ha hp hserved
  rw [← byteOf_eq]
  obtain ⟨t, r, hexec, hr, hresp, hmem, hcfg, hreq, htlb, hother⟩ :=
    exec_completes (memOk := (· = s.mem)) (level := level)
      (data := byteOf (line.get (wordSelect (composePhysical p))) (composePhysical p))
      (accessOf_readByteRequest k vaddr) (wdataAdmitted_readByteRequest k vaddr) ha hp fun r hr => by
        rw [← lineServed_of_tlbService hr] at hserved
        obtain ⟨c, hc, hlevel, hdata⟩ := cacheReadByte_of_lineServed hserved
        rw [cacheStage_readByteRequest]
        exact ⟨c, hc, hlevel, hdata, (cacheReadByte_mem hc).trans (mem_of_tlbService hr)⟩
  exact ⟨t, r, hexec, hr, hresp, hcfg, hmem, hreq, htlb, hother⟩

/-- Settles O47: the cache stage is a word write that the line serves. -/
theorem writeWordCompletes : Obligations.WriteWordCompletes := by
  intro s v vaddr a p level line hm ha hp halign hlen hserved
  have hpalign : (composePhysical p).toNat % 4 = 0 := by rw [composePhysical_mod_four ha hp, halign]
  obtain ⟨t, r, hexec, hr, hresp, hmem, hcfg, hreq, htlb, hother⟩ :=
    exec_completes (i := .wrwD v vaddr) (memOk := (· = memWrite s.mem (composePhysical p).toNat v)) (level := level)
      (data := 0) rfl rfl ha hp fun r hr => by
        rw [← lineServed_of_tlbService hr] at hserved
        obtain ⟨c, hc, hlevel, hdata⟩ := cacheWriteWord_of_lineServed hpalign (by rwa [cfg_of_tlbService hr]) hserved v
        have hmem := cacheWriteWord_mem (by rwa [mem_of_tlbService hr]) hc
        rw [mem_of_tlbService hr] at hmem
        exact ⟨c, hc, hlevel, hdata, hmem⟩
  refine ⟨t, r, hexec, hr, hresp, ?_, fun b hb => ?_, hcfg, hreq, htlb, hother⟩
  · rw [hmem, memRead_memWrite_self _ _ _ hm]
  · rw [hmem, memByte_memWrite_of_outside _ _ _ _ hb]

/-- Settles O48: the cache stage is a byte write that the line serves, of the merged word. -/
theorem writeByteCompletes : Obligations.WriteByteCompletes := by
  intro s v vaddr a p level line hwf ha hp hv hlen hserved
  have hm := (wf_mem hwf).1
  obtain ⟨t, r, hexec, hr, hresp, hmem, hcfg, hreq, htlb, hother⟩ :=
    exec_completes (i := .wrbD v vaddr) (memOk := (· = memWrite s.mem (wordAligned (composePhysical p)).toNat
      (mergeByte (line.get (wordSelect (composePhysical p))) (v.extractLsb' 0 8) (composePhysical p)))) (level := level)
      (data := 0) rfl (wdataAdmitted_wrbD hv vaddr) ha hp fun r hr => by
        rw [← lineServed_of_tlbService hr] at hserved
        obtain ⟨c, hc, hlevel, hdata⟩ := cacheWriteByte_of_lineServed (wf_tlbService hwf hr)
          (by rwa [cfg_of_tlbService hr]) hserved (v.extractLsb' 0 8)
        obtain ⟨line', hserved', hmem⟩ := cacheWriteByte_mem (by rwa [mem_of_tlbService hr]) hc
        rw [hserved] at hserved'
        obtain ⟨-, rfl⟩ := Prod.mk.inj (Except.ok.inj hserved')
        rw [mem_of_tlbService hr] at hmem
        exact ⟨c, hc, hlevel, hdata, hmem⟩
  refine ⟨t, r, hexec, hr, hresp, fun j hj => ?_, fun b hb => ?_, hcfg, hreq, htlb, hother⟩
  · rw [hmem, memByte_memWrite_add hm _ _ hj, extractLsb'_mergeByte _ _ _ hj]
  · rw [hmem, memByte_memWrite_of_outside _ _ _ _ hb]

/-! ### Errors of the cache stage -/

/-- Settles O54: the cache stage's errors, each in the state that the TLB stage left. -/
theorem cacheStageErrorsKeepTheTlbStage : Obligations.CacheStageErrorsKeepTheTlbStage := by
  intro s k vaddr a r ha hr
  have hmod := composePhysical_mod_four ha (translation_of_tlbService hr)
  have hreadWord : ∀ {e}, cacheReadWord r.state (composePhysical r.phys) k = .error e →
      exec (readWordRequest k vaddr) s = .next (r.state.raise e) := fun {e} he =>
    exec_of_cacheStage_error (accessOf_readWordRequest k vaddr) (wdataAdmitted_readWordRequest k vaddr) ha hr (by simpa)
  have hwriteWord : ∀ {v e}, k = .data → cacheWriteWord r.state (composePhysical r.phys) v = .error e →
      exec (.wrwD v vaddr) s = .next (r.state.raise e) := by
    rintro v e rfl he
    exact exec_of_cacheStage_error rfl rfl ha hr he
  refine ⟨fun hne => ?_, fun v hk hne => ?_, fun v hk halign hout => ?_, fun e herr => ?_⟩
  · exact hreadWord (cacheReadWord_of_misaligned (by rwa [hmod]) _ _)
  · exact hwriteWord hk (cacheWriteWord_of_misaligned (by rwa [hmod]) _ _)
  · rw [← cfg_of_tlbService hr] at hout
    exact hwriteWord hk (cacheWriteWord_of_outside (by rwa [hmod]) hout v)
  · rw [← lineServed_of_tlbService hr] at herr
    obtain ⟨hreadByte, hwriteByte⟩ := cacheByte_of_error herr
    refine ⟨(lineServed_error herr).1, ?_, fun halign => ?_, fun v hk hv => ?_, fun v hk halign => ?_⟩
    · exact exec_of_cacheStage_error (accessOf_readByteRequest k vaddr) (wdataAdmitted_readByteRequest k vaddr) ha hr
        (by simpa)
    · exact hreadWord (cacheReadWord_of_error (by rwa [hmod]) herr)
    · subst hk
      exact exec_of_cacheStage_error (i := .wrbD v vaddr) rfl (wdataAdmitted_wrbD hv vaddr) ha hr (hwriteByte rfl _)
    · subst hk
      exact hwriteWord rfl (cacheWriteWord_of_error (by rwa [hmod]) herr v)

/-! ### Reads over coherent caches -/

/-- Over coherent caches the line that serves is memory's (R61). -/
theorem lineServed_eq_memReadLine {isCode : LineClass} {s : State} (hs : cachesCoherent isCode s) {k : AccessKind}
    {p : PAddr} {level : HitLevel} {line : Line} (h : lineServed s k p = .ok (level, line)) :
    line = memReadLine s.mem (lineBase p) := by
  obtain ⟨hcurrent, -⟩ := (cachesCoherent_iff isCode s).1 hs
  obtain ⟨w, h1, -, rfl⟩ | ⟨w, -, h2, -, rfl⟩ | ⟨-, -, -, -, rfl⟩ := lineServed_cases h
  · exact (hcurrent (.l1 k) p w _ (holdsLine_of_cacheProbe h1)).2.2
  · exact (hcurrent .l2 p w _ (holdsLine_of_cacheProbe h2)).2.2
  · rfl

/-- The word selected in the line of memory is the containing word (R190). -/
theorem memReadLine_wordSelect (m : Memory) (p : PAddr) :
    (memReadLine m (lineBase p)).get (wordSelect p) = memRead m (wordAligned p).toNat := by
  rw [memReadLine_get, lineBase_add_wordSelect]

/-- The byte selected in the containing word is the byte of memory (R54). -/
theorem byteOf_memRead (m : Memory) (p : PAddr) :
    byteOf (memRead m (wordAligned p).toNat) p = (memByte m p.toNat).setWidth 32 := by
  have hsum : p.toNat - p.toNat % 4 + p.toNat % 4 = p.toNat := Nat.sub_add_cancel (Nat.mod_le _ _)
  rw [byteOf_eq, extractLsb'_memRead _ _ (Nat.mod_lt _ (by decide)), wordAligned_toNat, hsum]

/-- Settles O41: the line that serves the read is memory's. -/
theorem coherentReadsReturnMemory : Obligations.CoherentReadsReturnMemory := by
  intro isCode s t k vaddr a p r _ hs ha hp hresp hok
  have hstatus : t.status = some .ok := by rw [State.status, hresp, Option.map_some, hok]
  refine ⟨fun h => ?_, fun h => ?_⟩
  · obtain ⟨a', r', c, ha', hr', hc, rfl⟩ := exec_access_ok (accessOf_readWordRequest k vaddr) h hstatus
    obtain ⟨rfl, rfl⟩ := phys_of_translation ha hp ha' hr'
    cases hresp
    rw [cacheStage_readWordRequest] at hc
    obtain ⟨halign, line, hline, hdata⟩ := lineServed_of_cacheReadWord hc
    rw [lineServed_of_tlbService hr'] at hline
    refine hdata.trans ?_
    rw [lineServed_eq_memReadLine hs hline, memReadLine_wordSelect, wordAligned_of_aligned halign]
  · obtain ⟨a', r', c, ha', hr', hc, rfl⟩ := exec_access_ok (accessOf_readByteRequest k vaddr) h hstatus
    obtain ⟨rfl, rfl⟩ := phys_of_translation ha hp ha' hr'
    cases hresp
    rw [cacheStage_readByteRequest] at hc
    obtain ⟨line, hline, hdata⟩ := lineServed_of_cacheReadByte hc
    rw [lineServed_of_tlbService hr'] at hline
    refine hdata.trans ?_
    rw [lineServed_eq_memReadLine hs hline, memReadLine_wordSelect, byteOf_memRead]

/-! ### Writes -/

/-- Settles O43: a word write, or the word write of a byte write, is the one write to memory. -/
theorem writeThroughReachesMemory : Obligations.WriteThroughReachesMemory := by
  intro s t v vaddr a p hm ha hp hok
  refine ⟨fun h => ?_, fun h => ?_⟩
  · obtain ⟨a', r, c, ha', hr, hc, rfl⟩ := exec_access_ok (i := .wrwD v vaddr) rfl h hok
    obtain ⟨rfl, rfl⟩ := phys_of_translation ha hp ha' hr
    have hmem := cacheWriteWord_mem (by rwa [mem_of_tlbService hr]) hc
    rw [mem_of_tlbService hr] at hmem
    rw [State.respond_mem, hmem]
    exact ⟨memRead_memWrite_self _ _ _ hm, fun b hb => memByte_memWrite_of_outside _ _ _ _ hb⟩
  · obtain ⟨a', r, c, ha', hr, hc, rfl⟩ := exec_access_ok (i := .wrbD v vaddr) rfl h hok
    obtain ⟨rfl, rfl⟩ := phys_of_translation ha hp ha' hr
    obtain ⟨line, hline, hmem⟩ := cacheWriteByte_mem (by rwa [mem_of_tlbService hr]) hc
    rw [mem_of_tlbService hr] at hmem
    rw [lineServed_of_tlbService hr] at hline
    rw [State.respond_mem, hmem]
    exact ⟨⟨_, line, hline, memRead_memWrite_self _ _ _ hm⟩, fun b hb => memByte_memWrite_of_outside _ _ _ _ hb⟩

/-- A lookup looks at the TLB state and the organisation only. -/
theorem tlbLookup_of_sameTlb {s t : State} (hcfg : t.cfg = s.cfg) (htlb : sameTlb s t) (v : Vpn) (k : AccessKind) :
    tlbLookup t v k = tlbLookup s v k := by
  obtain ⟨h1, -, -, -, h2⟩ := id htlb
  simp only [tlbLookup, hcfg, htlb.l1Tlb_eq, h1, h2]

/-- After a word write that answers `OK`: the page translates by the TLB, and the aligned line with the word is in `L1D`. -/
theorem exec_wrwD_ok {s t : State} {v : Word} {vaddr : VAddr} (hwf : s.wf) (h : exec (.wrwD v vaddr) s = .next t)
    (hok : t.status = some .ok) :
    ∃ a p line, decomposeVirtual vaddr = .ok a ∧ vaddr.toNat % 4 = 0 ∧ (composePhysical p).toNat % 4 = 0 ∧
      p.offset = a.offset ∧ tlbLookup t (virtualPageNumber a) .data = (true, p.pfn) ∧
      lineServed t .data (composePhysical p) = .ok (.l1, line) ∧ line.get (wordSelect (composePhysical p)) = v := by
  have hi : accessOf (.wrwD v vaddr) = some (.data, vaddr) := rfl
  obtain ⟨a, r, c, line, ha, hr, -, hc, rfl, hmoves⟩ := exec_movesLine hwf hi h hok
  have hcfg := (exec_cfg_requests h).1
  obtain ⟨hlookup, hoffset⟩ := serviceThenLookupHits s a .data r hwf hr
  obtain ⟨hcfg', htlb, -⟩ := cacheStage_sameButCaches hi hc
  have halign : (composePhysical r.phys).toNat % 4 = 0 := (cacheWriteWord_cases _ _ _ _ hc).1
  rw [← tlbLookup_of_sameTlb (t := c.state.respond _) hcfg' htlb] at hlookup
  refine ⟨a, r.phys, _, ha, ?_, halign, hoffset, hlookup, lineServed_of_movesLine hwf hcfg hmoves, Line.get_put_self ..⟩
  rw [← composePhysical_mod_four ha (translation_of_tlbService hr), halign]

/-- A page that the lookup hits translates to its frame. -/
theorem translation_of_lookup {s : State} {k : AccessKind} {a : VirtualAddress} {pfn : Pfn}
    (h : tlbLookup s (virtualPageNumber a) k = (true, pfn)) : translation s k a = .ok { pfn, offset := a.offset } := by
  rw [translation, h, if_pos rfl]

/-- Settles O42: the write left page and line where the reads look first; a byte of the word is at its own offset. -/
theorem writeThenReadReturnsTheValue : Obligations.WriteThenReadReturnsTheValue := by
  intro s t v vaddr hwf h hok
  obtain ⟨a, p, line, ha, hvalign, halign, hoffset, hlookup, hserved, hv⟩ := exec_wrwD_ok hwf h hok
  refine ⟨?_, fun j hj => ?_⟩
  · have hp := translation_of_lookup hlookup
    rw [← hoffset] at hp
    obtain ⟨u, r, hexec, -, hresp, -⟩ := readWordCompletes t .data vaddr a p .l1 line ha hp hvalign hserved
    rw [hlookup, hv] at hresp
    exact ⟨u, hexec, hresp⟩
  · obtain ⟨b, hb, hvpn, hboffset⟩ := decomposeVirtual_add ha hvalign hj
    rw [← hvpn] at hlookup
    have hq := translation_of_lookup hlookup
    have hsum : (composePhysical { pfn := p.pfn, offset := b.offset }).toNat = (composePhysical p).toNat + j := by
      rw [composePhysical_toNat, composePhysical_toNat, hboffset, hoffset, Nat.add_assoc]
    have hword : wordAligned (composePhysical { pfn := p.pfn, offset := b.offset }) = composePhysical p := by
      refine BitVec.eq_of_toNat_eq ?_
      rw [wordAligned_toNat, hsum]
      omega
    rw [← hword, lineServed_wordAligned] at hserved
    rw [← hword, wordSelect_wordAligned] at hv
    obtain ⟨u, r, hexec, -, hresp, -⟩ := readByteCompletes t .data _ b _ .l1 line hb hq hserved
    have hmod : ((composePhysical p).toNat + j) % 4 = j := by omega
    rw [hlookup, hv, hsum, hmod] at hresp
    exact ⟨u, hexec, hresp⟩

end Sys2Proof.Machine

/-! PROOFS. Machines that agree below the TLB (spec/43_tlb.md section 4, spec/70_reset_and_hazards.md section 6): every cache
operation answers alike and keeps the agreement, and while no translation is stale both TLBs answer as the walk does. -/

namespace Sys2Proof.Machine

/-! ### The cache operations -/

/-- Two outcomes of a cache operation that agree: the same error, or the same answer in states that agree below the TLB. -/
def servedAlike (x y : Except ErrorKind Served) : Prop :=
  match x, y with
  | .error e, .error e' => e' = e
  | .ok c, .ok d => d.data = c.data ∧ d.level = c.level ∧ sameBelowTlb c.state d.state
  | _, _ => False

theorem servedAlike_cases {x y : Except ErrorKind Served} (h : servedAlike x y) :
    (∃ e, x = .error e ∧ y = .error e) ∨
      ∃ c d, x = .ok c ∧ y = .ok d ∧ d.data = c.data ∧ d.level = c.level ∧ sameBelowTlb c.state d.state := by
  cases x <;> cases y
  case error.error e e' => exact .inl ⟨e, rfl, congrArg _ h⟩
  case ok.ok c d => exact .inr ⟨c, d, rfl, rfl, h⟩
  case error.ok => exact h.elim
  case ok.error => exact h.elim

theorem l1_of_sameBelowTlb {s t : State} (h : sameBelowTlb s t) (k : AccessKind) : t.l1 k = s.l1 k := by
  obtain ⟨-, -, -, -, hi, hd, -⟩ := h
  cases k
  · exact hi
  · exact hd

theorem sameBelowTlb_setL1 {s t : State} (h : sameBelowTlb s t) (k : AccessKind) (c : CacheArray) :
    sameBelowTlb (s.setL1 k c) (t.setL1 k c) := by
  obtain ⟨hlen, hg1, hg2, hmem, hi, hd, h2⟩ := h
  cases k
  · exact ⟨hlen, hg1, hg2, hmem, rfl, hd, h2⟩
  · exact ⟨hlen, hg1, hg2, hmem, hi, rfl, h2⟩

section
variable {s t : State} (h : sameBelowTlb s t)
include h

/-- `L2` takes a victim alike (R197). -/
theorem sameBelowTlb_installVictim (v : Option Victim) : sameBelowTlb (installVictim s v) (installVictim t v) := by
  obtain ⟨hlen, hg1, hg2, hmem, hi, hd, h2⟩ := id h
  cases v with
  | none => exact h
  | some v => exact ⟨hlen, hg1, hg2, hmem, hi, hd, by simp only [installVictim, hg2, h2]⟩

/-- `fill_l1` looks at nothing above the caches (R198). -/
theorem sameBelowTlb_fillL1 (k : AccessKind) (p : PAddr) (line : Line) :
    sameBelowTlb (fillL1 s k p line) (fillL1 t k p line) := by
  obtain ⟨-, hg1, -⟩ := id h
  rw [fillL1, fillL1, hg1, l1_of_sameBelowTlb h]
  exact sameBelowTlb_installVictim (sameBelowTlb_setL1 h k _) _

/-- `migrate` looks at nothing above the caches (R199). -/
theorem sameBelowTlb_migrate (k : AccessKind) (p : PAddr) (w : Nat) :
    sameBelowTlb (migrate s k p w) (migrate t k p w) := by
  obtain ⟨hlen, hg1, hg2, hmem, hi, hd, h2⟩ := id h
  rw [migrate, migrate, hg2, h2]
  refine sameBelowTlb_fillL1 ?_ k p _
  exact ⟨hlen, hg1, hg2, hmem, hi, hd, rfl⟩

/-- Both lookups find the same (R191). -/
theorem cacheLookup_alike (k : AccessKind) (p : PAddr) :
    cacheLookup (l1Geometry t.cfg) (t.l1 k) p = cacheLookup (l1Geometry s.cfg) (s.l1 k) p ∧
      cacheLookup (l2Geometry t.cfg) t.l2 p = cacheLookup (l2Geometry s.cfg) s.l2 p := by
  obtain ⟨-, hg1, hg2, -, -, -, h2⟩ := id h
  rw [hg1, hg2, h2, l1_of_sameBelowTlb h]
  exact ⟨rfl, rfl⟩

/-- A word read looks at nothing above the caches (R200 to R203). -/
theorem cacheReadWord_alike (k : AccessKind) (p : PAddr) : servedAlike (cacheReadWord s p k) (cacheReadWord t p k) := by
  obtain ⟨hlen, hg1, hg2, hmem, hi, hd, h2⟩ := id h
  obtain ⟨hlookup1, hlookup2⟩ := cacheLookup_alike h k p
  rw [cacheReadWord, cacheReadWord, hlookup1, hlookup2]
  split
  · rfl
  · cases cacheLookup (l1Geometry s.cfg) (s.l1 k) p with
    | some x =>
      exact ⟨by dsimp only; rw [hg1, l1_of_sameBelowTlb h], rfl, sameBelowTlb_setL1 h k x.2⟩
    | none =>
      cases cacheLookup (l2Geometry s.cfg) s.l2 p with
      | some x =>
        refine ⟨by dsimp only; rw [hg2, h2], rfl, sameBelowTlb_migrate ?_ k p x.1⟩
        exact ⟨hlen, hg1, hg2, hmem, hi, hd, rfl⟩
      | none =>
        dsimp only
        rw [readMiss, readMiss, hlen, hmem]
        split
        · rfl
        · exact ⟨rfl, rfl, sameBelowTlb_fillL1 h k p _⟩

/-- A word write looks at nothing above the caches (R205 to R211). -/
theorem cacheWriteWord_alike (p : PAddr) (v : Word) : servedAlike (cacheWriteWord s p v) (cacheWriteWord t p v) := by
  obtain ⟨hlen, hg1, hg2, hmem, hi, hd, h2⟩ := id h
  obtain ⟨hlookup1, hlookup2⟩ := cacheLookup_alike h .data p
  rw [State.l1_data, State.l1_data] at hlookup1
  have hwrite : memWrite t.mem p.toNat v = memWrite s.mem p.toNat v := by rw [hmem]
  rw [cacheWriteWord, cacheWriteWord, hlookup1, hlookup2, hlen]
  split
  · rfl
  · split
    · rfl
    · cases cacheLookup (l1Geometry s.cfg) s.l1d p with
      | some x => exact ⟨rfl, rfl, hlen, hg1, hg2, hwrite, hi, by dsimp only; rw [hg1], h2⟩
      | none =>
        cases cacheLookup (l2Geometry s.cfg) s.l2 p with
        | some x =>
          have hstored : storeWord (l2Geometry t.cfg) x.2 p x.1 v = storeWord (l2Geometry s.cfg) x.2 p x.1 v := by rw [hg2]
          refine ⟨rfl, rfl, sameBelowTlb_migrate ?_ .data p x.1⟩
          exact ⟨hlen, hg1, hg2, hwrite, hi, hd, hstored⟩
        | none =>
          dsimp only
          rw [writeMiss, writeMiss, hlen, hmem]
          split
          · rfl
          · refine ⟨rfl, rfl, sameBelowTlb_fillL1 ?_ .data p _⟩
            exact ⟨hlen, hg1, hg2, rfl, hi, hd, h2⟩

/-- A byte read looks at nothing above the caches (R214). -/
theorem cacheReadByte_alike (k : AccessKind) (p : PAddr) : servedAlike (cacheReadByte s p k) (cacheReadByte t p k) := by
  obtain ⟨e, hx, hy⟩ | ⟨c, d, hx, hy, hdata, hlevel, hsame⟩ :=
    servedAlike_cases (cacheReadWord_alike h k (wordAligned p)) <;> rw [cacheReadByte, cacheReadByte, hx, hy]
  · rfl
  · exact ⟨by dsimp only; rw [hdata], hlevel, hsame⟩

/-- A byte write looks at nothing above the caches (R219). -/
theorem cacheWriteByte_alike (p : PAddr) (b : Byte) : servedAlike (cacheWriteByte s p b) (cacheWriteByte t p b) := by
  obtain ⟨e, hx, hy⟩ | ⟨c, d, hx, hy, hdata, hlevel, hsame⟩ :=
    servedAlike_cases (cacheReadWord_alike h .data (wordAligned p)) <;> rw [cacheWriteByte, cacheWriteByte, hx, hy]
  · rfl
  · have hwrite := cacheWriteWord_alike hsame (wordAligned p) (mergeByte c.data b p)
    dsimp only
    rw [hdata]
    obtain ⟨e, hx', hy'⟩ | ⟨c', d', hx', hy', -, -, hsame'⟩ := servedAlike_cases hwrite <;> rw [hx', hy']
    · rfl
    · exact ⟨rfl, hlevel, hsame'⟩

/-- The cache stage of a request looks at nothing above the caches. -/
theorem cacheStage_alike (i : Instr) (p : PAddr) : servedAlike (cacheStage i s p) (cacheStage i t p) := by
  cases i with
  | rdbI | rdbD => exact cacheReadByte_alike h _ p
  | rdwI | rdwD => exact cacheReadWord_alike h _ p
  | wrbD => exact cacheWriteByte_alike h p _
  | wrwD => exact cacheWriteWord_alike h p _
  | illegalWrI | xlate | dump | reserved101x | reserved11xx => rfl

end

/-! ### The TLB stage and the requests -/

/-- What the TLB stage leaves agrees below the TLB with what was there. -/
theorem sameBelowTlb_of_sameButTlb {s t s' t' : State} (h : sameBelowTlb s t) (hs : sameButTlb s s')
    (ht : sameButTlb t t') : sameBelowTlb s' t' := by
  obtain ⟨hcfg, hmem, hi, hd, h2, -⟩ := hs
  obtain ⟨hcfg', hmem', hi', hd', h2', -⟩ := ht
  unfold sameBelowTlb
  rwa [hcfg, hmem, hi, hd, h2, hcfg', hmem', hi', hd', h2']

/-- While no translation is stale both TLB stages answer as the walk does (R171). -/
theorem tlbService_alike {s t : State} (h : sameBelowTlb s t) (hs : tlbFaithful s) (ht : tlbFaithful t)
    (a : VirtualAddress) (k : AccessKind) :
    (∃ e, tlbService s a k = .error e ∧ tlbService t a k = .error e) ∨
      ∃ r r', tlbService s a k = .ok r ∧ tlbService t a k = .ok r' ∧ r'.phys = r.phys ∧
        sameBelowTlb r.state r'.state := by
  obtain ⟨hlen, -, -, hmem, -⟩ := id h
  have hphys : Except.map Translated.phys (tlbService t a k) = Except.map Translated.phys (tlbService s a k) := by
    rw [faithfulTlbIsTransparent s a k hs, faithfulTlbIsTransparent t a k ht, hlen, hmem]
  cases hx : tlbService s a k with
  | error e =>
    cases hy : tlbService t a k with
    | error e' =>
      rw [hx, hy] at hphys
      cases hphys
      exact .inl ⟨e, rfl, rfl⟩
    | ok r' =>
      rw [hx, hy] at hphys
      cases hphys
  | ok r =>
    cases hy : tlbService t a k with
    | error e' =>
      rw [hx, hy] at hphys
      cases hphys
    | ok r' =>
      rw [hx, hy] at hphys
      exact .inr ⟨r, r', rfl, rfl, Except.ok.inj hphys,
        sameBelowTlb_of_sameButTlb h (tlbService_sameButTlb s a k r hx) (tlbService_sameButTlb t a k r' hy)⟩

/-- Two states after one request agree: below the TLB, and in the answer. -/
def answersAlike (s t : State) : Prop := sameBelowTlb s t ∧ t.answer = s.answer

/-- The same response in states that agree below the TLB, but for `tlb_hit`. -/
theorem answersAlike_respond {s t : State} (h : sameBelowTlb s t) {r r' : Response} (hstatus : r'.status = r.status)
    (hlevel : r'.level = r.level) (hdata : r'.data = r.data) : answersAlike (s.respond r) (t.respond r') :=
  ⟨h, by simp only [State.answer, State.respond_response, Option.map_some, hstatus, hlevel, hdata]⟩

/-- The access pipeline answers alike on both machines (R239). -/
theorem access_alike {s t : State} (h : sameBelowTlb s t) (hs : tlbFaithful s) (ht : tlbFaithful t) (i : Instr)
    (k : AccessKind) (vaddr : VAddr) : answersAlike (access s k vaddr (cacheStage i)) (access t k vaddr (cacheStage i)) := by
  unfold access
  cases decomposeVirtual vaddr with
  | error e => exact answersAlike_respond h rfl rfl rfl
  | ok a =>
    obtain ⟨e, hx, hy⟩ | ⟨r, r', hx, hy, hphys, hsame⟩ := tlbService_alike h hs ht a k <;> simp only [hx, hy]
    · exact answersAlike_respond h rfl rfl rfl
    · rw [hphys]
      obtain ⟨e, hc, hd⟩ | ⟨c, d, hc, hd, hdata, hlevel, hsame'⟩ :=
        servedAlike_cases (cacheStage_alike hsame i (composePhysical r.phys)) <;> simp only [hc, hd]
      · exact answersAlike_respond hsame rfl rfl rfl
      · exact answersAlike_respond hsame' rfl hlevel hdata

/-- Settles O34: an access answers alike, and of the other requests all but DUMP answer from memory or from nothing. -/
theorem organisationsAgree : Obligations.OrganisationsAgree := by
  intro i s t s' h hs ht hdump hexec
  obtain ⟨hlen, -, -, hmem, -⟩ := id h
  obtain ⟨t', hexec'⟩ := exec_eq_next i t
  refine ⟨t', hexec', ?_⟩
  cases hi : accessOf i with
  | some x =>
    obtain ⟨k, vaddr⟩ := x
    rw [exec_of_access hi] at hexec hexec'
    cases hexec
    cases hexec'
    split
    · exact access_alike h hs ht i k vaddr
    · exact answersAlike_respond h rfl rfl rfl
  | none =>
    obtain ⟨r, rfl⟩ := inspectionChangesOnlyTheResponse i s s' hi hexec
    obtain ⟨r', rfl⟩ := inspectionChangesOnlyTheResponse i t t' hi hexec'
    suffices hresp : r' = r from answersAlike_respond h (by rw [hresp]) (by rw [hresp]) (by rw [hresp])
    cases i with
    | xlate wdata vaddr => exact Option.some.inj (xlateIgnoresTlbAndCaches s t _ _ wdata vaddr hmem hlen hexec hexec')
    | dump wdata mbz way idx arr => exact (hdump wdata mbz way idx arr rfl).elim
    | illegalWrI size wdata vaddr => cases hexec; cases hexec'; rfl
    | reserved101x x wdata vaddr => cases hexec; cases hexec'; rfl
    | reserved11xx x wdata vaddr => cases hexec; cases hexec'; rfl
    | rdbI | rdwI | rdbD | rdwD | wrbD | wrwD => cases hi

end Sys2Proof.Machine

/-! PROOFS. The reset state (spec/70_reset_and_hazards.md section 1, spec/10_state.md section 7): every array has its size and
no valid entry, so the invariants, which speak of valid entries, hold. -/

namespace Sys2Proof.Machine

/-! ### States with no valid entry -/

/-- A TLB array without a valid entry. -/
def tlbEmpty (arr : List TlbEntry) : Prop := ∀ e ∈ arr, e.valid = false

/-- A cache array without a valid way. -/
def cacheEmpty (c : CacheArray) : Prop := ∀ set ∈ c, ∀ e ∈ set, e.valid = false

theorem not_directHolds_of_tlbEmpty {arr : List TlbEntry} (h : tlbEmpty arr) (bits : Nat) (v : Vpn) :
    directHolds bits arr v = false := by
  have hentry : (tlbEntryAt arr (directIndex bits v)).valid = false := by
    rw [tlbEntryAt, List.getD_eq_getElem?_getD]
    cases he : arr[directIndex bits v]? with
    | none => rfl
    | some e => exact h e (List.mem_of_getElem? he)
  rw [directHolds, TlbEntry.matchesVpn, hentry, Bool.false_and]

theorem not_holdsLine_of_cacheEmpty {arr : CacheArray} (h : cacheEmpty arr) (g : Geometry) (p : PAddr) (w : Nat)
    (l : Line) : ¬ holdsLine g arr p w l := by
  rintro ⟨e, he, hvalid, -⟩
  rw [cacheSet, List.getD_eq_getElem?_getD] at he
  cases hset : arr[lineIndex g p]? with
  | none =>
    rw [hset] at he
    cases he
  | some set =>
    rw [hset, Option.getD_some] at he
    rw [h set (List.mem_of_getElem? hset) e (List.mem_of_getElem? he)] at hvalid
    cases hvalid

section
variable {s : State}

theorem tlbTagsUnique_of_empty (htlb : tlbEmpty s.tlb) : tlbTagsUnique s :=
  List.pairwise_of_forall_mem_list fun e he f _ ⟨hvalid, _⟩ => by rw [htlb e he] at hvalid; cases hvalid

theorem tlbInclusive_of_empty (hl1 : ∀ k, tlbEmpty (s.l1Tlb k)) : tlbInclusive s := by
  intro k v hholds
  rw [not_directHolds_of_tlbEmpty (hl1 k)] at hholds
  cases hholds

theorem tlbFaithful_of_empty (htlb : tlbEmpty s.tlb) (hl1 : ∀ k, tlbEmpty (s.l1Tlb k)) (h2 : tlbEmpty s.tlb2) :
    tlbFaithful s := by
  rintro a pfn (⟨e, he, hvalid, -⟩ | ⟨k, hholds, -⟩ | ⟨hholds, -⟩)
  · rw [htlb e he] at hvalid
    cases hvalid
  · rw [not_directHolds_of_tlbEmpty (hl1 k)] at hholds
    cases hholds
  · rw [not_directHolds_of_tlbEmpty h2] at hholds
    cases hholds

theorem cachesCoherent_of_empty (isCode : LineClass) (h : ∀ x, cacheEmpty (s.array x)) : cachesCoherent isCode s := by
  have hnone : ∀ x p w l, ¬ heldIn s x p w l := fun x p w l => not_holdsLine_of_cacheEmpty (h x) _ p w l
  exact (cachesCoherent_iff isCode s).2
    ⟨fun x p w l hheld => (hnone x p w l hheld).elim, fun x _ p w _ l _ hheld => (hnone x p w l hheld).elim⟩

end

/-! ### Reset arrays -/

theorem tlbEmpty_replicate (n : Nat) : tlbEmpty (List.replicate n TlbEntry.reset) := by
  intro e he
  rw [List.eq_of_mem_replicate he]
  rfl

theorem tlbEmpty_nil : tlbEmpty [] := nofun

theorem cacheEmpty_replicate (n ways : Nat) : cacheEmpty (List.replicate n (List.replicate ways CacheEntry.reset)) := by
  intro set hset e he
  rw [List.eq_of_mem_replicate hset] at he
  rw [List.eq_of_mem_replicate he]
  rfl

/-- A reset TLB array is well-formed (R275). -/
theorem tlbArrayWf_replicate (n bits : Nat) : tlbArrayWf n bits (List.replicate n TlbEntry.reset) := by
  refine ⟨List.length_replicate .., fun e he => ?_⟩
  rw [List.eq_of_mem_replicate he]
  exact Nat.two_pow_pos _

/-- A reset cache array is well-formed (R275). -/
theorem cacheArrayWf_replicate {g : Geometry} (hg : geometryWf g) :
    cacheArrayWf g (List.replicate (2 ^ g.bits) (List.replicate g.ways CacheEntry.reset)) := by
  refine ⟨List.length_replicate .., fun set hset => ?_⟩
  rw [List.eq_of_mem_replicate hset]
  refine ⟨List.length_replicate .., fun e he => ?_⟩
  rw [List.eq_of_mem_replicate he]
  exact ⟨hg.2, Nat.two_pow_pos _⟩

/-! ### The reset state -/

section
variable (c : Config) (m : Memory)

theorem tlbEmpty_resetWith : tlbEmpty (State.resetWith c m).tlb ∧ (∀ k, tlbEmpty ((State.resetWith c m).l1Tlb k)) ∧
    tlbEmpty (State.resetWith c m).tlb2 := by
  cases horg : c.org <;>
    simp only [State.resetWith, State.l1Tlb, horg]
  · refine ⟨tlbEmpty_replicate _, fun k => ?_, tlbEmpty_nil⟩
    cases k <;> exact tlbEmpty_nil
  · refine ⟨tlbEmpty_nil, fun k => ?_, tlbEmpty_replicate _⟩
    cases k <;> exact tlbEmpty_replicate _

theorem cacheEmpty_resetWith (x : CacheName) : cacheEmpty ((State.resetWith c m).array x) := by
  cases x with
  | l1 k => cases k <;> exact cacheEmpty_replicate _ _
  | l2 => exact cacheEmpty_replicate _ _

/-- The eviction list starts in the identity order (R148, R275). -/
theorem lru_resetWith (horg : c.org = .fa) : (State.resetWith c m).lru = List.range c.tlbLines := by
  simp only [State.resetWith, horg, listInit_eq_range]

theorem wf_resetWith (hvalid : c.valid = true) (hm : Memory.wf m) (hinside : Memory.inside m c.memLen) :
    (State.resetWith c m).wf := by
  obtain ⟨hg1, hg2⟩ := geometryWf_of_valid hvalid
  refine ⟨hvalid, hm, hinside, fun horg => ?_, fun horg => ?_, cacheArrayWf_replicate hg1, cacheArrayWf_replicate hg1,
    cacheArrayWf_replicate hg2⟩ <;> change c.org = _ at horg
  · refine ⟨?_, ?_, ?_, ?_, ?_⟩
    · simp only [State.resetWith, horg]
      exact tlbArrayWf_replicate _ _
    · rw [lru_resetWith c m horg]
      exact List.Perm.refl _
    all_goals simp only [State.resetWith, horg]
  · simp only [hierTlbWf, State.resetWith, horg]
    exact ⟨trivial, trivial, tlbArrayWf_replicate _ _, tlbArrayWf_replicate _ _, tlbArrayWf_replicate _ _⟩

end

/-- Settles O58: the reset state is well-formed and has no valid entry. -/
theorem resetStateSatisfiesTheInvariants : Obligations.ResetStateSatisfiesTheInvariants := by
  refine ⟨fun c m hvalid hm hinside => ?_, ⟨by decide, rfl⟩, fun s => ⟨rfl, rfl⟩⟩
  obtain ⟨htlb, hl1, h2⟩ := tlbEmpty_resetWith c m
  exact ⟨wf_resetWith c m hvalid hm hinside, tlbTagsUnique_of_empty htlb, tlbInclusive_of_empty hl1,
    tlbFaithful_of_empty htlb hl1 h2, fun isCode => cachesCoherent_of_empty isCode (cacheEmpty_resetWith c m), rfl,
    lru_resetWith c m⟩

end Sys2Proof.Machine
